-- ==== Sys2Proof/Word.lean ====
section
/-! DEFINITION. The word types of the tsSID core (spec/00_scope.md R5, R7). Arithmetic on them is that of
`BitVec`: it wraps modulo 2 to the width, as R7 says. -/

namespace Sys2Proof

/-- One memory cell and every 8-bit register (R5 `XLEN`). -/
abbrev Byte := BitVec 8

/-- The program counter and every bus address (R5 `ALEN`). -/
abbrev Addr := BitVec 16

/-- A phase accumulator (R5 `PHASE_BITS`). -/
abbrev Phase := BitVec 24

/-- A noise shift register (R5 `LFSR_BITS`). -/
abbrev Lfsr := BitVec 23

/-- A waveform sample before centring (R5 `WAVE_BITS`). -/
abbrev Wave := BitVec 12

end Sys2Proof
end

