-- ==== Sys2Proof/Machine/Bits.lean ====
section
/-! DEFINITION. Splitting and joining bytes, sign extension and bit fields (spec/00_scope.md R7). -/

namespace Sys2Proof

/-- `v[7:0]`, the less significant byte of a 16-bit value. -/
def loByte (v : Addr) : Byte := v.extractLsb' 0 8

/-- `v[15:8]`, the more significant byte of a 16-bit value. -/
def hiByte (v : Addr) : Byte := v.extractLsb' 8 8

/-- `{hi, lo}` (30 R114, 20 R81). -/
def joinBytes (hi lo : Byte) : Addr := hi ++ lo

/-- `zext_16` of a byte: a zero-page address (40 R143). -/
def zeroPage (z : Byte) : Addr := z.setWidth 16

/-- `sext_8` of a byte, as a 16-bit word (40 R151). -/
def signExtend (d : Byte) : Addr := BitVec.signExtend 16 d

/-- `v[7:4]`. -/
def hiNibble (v : Byte) : BitVec 4 := v.extractLsb' 4 4

/-- `v[3:0]`. -/
def loNibble (v : Byte) : BitVec 4 := v.extractLsb' 0 4

end Sys2Proof
end

