-- ==== Sys2Proof/Syntax.lean ====
section
/-! DEFINITION. The instructions (spec/30_encoding.md R111 to R119, spec/opcode_table.json).

The table has 256 rows, one per opcode value, under 76 mnemonics. A constructor stands for one instruction of
the table with its operand FORM as data: an addressing mode carrying its operand bytes, or, where several rows
differ in the opcode value alone (the twelve JAMs, the two ANCs, the undocumented NOPs), that value as `code`.
The rows are exactly the well-formed (constructor, form) pairs (`WellFormed.lean`, `Decode.lean`). -/

namespace Sys2Proof

/-- The addressing modes that designate a byte of memory, with their operand bytes (40 R142 to R150). -/
inductive Operand where
  /-- `#$nn` (R142) -/
  | imm (m : Byte)
  /-- `$nn` (R143) -/
  | zp (z : Byte)
  /-- `$nn,X` (R144) -/
  | zpx (z : Byte)
  /-- `$nn,Y` (R145) -/
  | zpy (z : Byte)
  /-- `$nnnn` (R146) -/
  | abs (addr : Addr)
  /-- `$nnnn,X` (R147) -/
  | abx (addr : Addr)
  /-- `$nnnn,Y` (R148) -/
  | aby (addr : Addr)
  /-- `($nn,X)` (R149) -/
  | izx (z : Byte)
  /-- `($nn),Y` (R150) -/
  | izy (z : Byte)
deriving DecidableEq, Repr

/-- The operand of a shift or rotate (43 R210 to R213): the accumulator (40 R141) or memory. -/
inductive ShiftOperand where
  | acc
  | mem (o : Operand)
deriving DecidableEq, Repr

/-- The instructions, each with the rule that gives its meaning. -/
inductive Instr where
  -- load, store, transfer (41)
  /-- R170 -/
  | lda (o : Operand)
  /-- R171 -/
  | ldx (o : Operand)
  /-- R172 -/
  | ldy (o : Operand)
  /-- R173 -/
  | sta (o : Operand)
  /-- R174 -/
  | stx (o : Operand)
  /-- R175 -/
  | sty (o : Operand)
  /-- R176 -/
  | tax
  /-- R177 -/
  | tay
  /-- R178 -/
  | txa
  /-- R179 -/
  | tya
  /-- R180 -/
  | tsx
  /-- R181 -/
  | txs
  -- logic, arithmetic, compare, bit test (42)
  /-- R190 -/
  | ora (o : Operand)
  /-- R191 -/
  | and (o : Operand)
  /-- R192 -/
  | eor (o : Operand)
  /-- R193 -/
  | adc (o : Operand)
  /-- R194 -/
  | sbc (o : Operand)
  /-- R195 -/
  | cmp (o : Operand)
  /-- R196 -/
  | cpx (o : Operand)
  /-- R197 -/
  | cpy (o : Operand)
  /-- R198 -/
  | bit (o : Operand)
  -- shift, rotate, increment, decrement (43)
  /-- R210 -/
  | asl (o : ShiftOperand)
  /-- R211 -/
  | lsr (o : ShiftOperand)
  /-- R212 -/
  | rol (o : ShiftOperand)
  /-- R213 -/
  | ror (o : ShiftOperand)
  /-- R214 -/
  | inc (o : Operand)
  /-- R215 -/
  | dec (o : Operand)
  /-- R216 -/
  | inx
  /-- R217 -/
  | iny
  /-- R218 -/
  | dex
  /-- R219 -/
  | dey
  -- branch, jump, subroutine (44); `d` is the displacement byte
  /-- R231 -/
  | bpl (d : Byte)
  /-- R232 -/
  | bmi (d : Byte)
  /-- R233 -/
  | bvc (d : Byte)
  /-- R234 -/
  | bvs (d : Byte)
  /-- R235 -/
  | bcc (d : Byte)
  /-- R236 -/
  | bcs (d : Byte)
  /-- R237 -/
  | bne (d : Byte)
  /-- R238 -/
  | beq (d : Byte)
  /-- `JMP $nnnn`, R239 -/
  | jmp (target : Addr)
  /-- `JMP ($nnnn)`, R240 -/
  | jmpInd (ptr : Addr)
  /-- R241 -/
  | jsr (target : Addr)
  /-- R242, R265 -/
  | rts
  -- stack, flags, system (45)
  /-- R250 -/
  | pha
  /-- R251 -/
  | php
  /-- R252 -/
  | pla
  /-- R253 -/
  | plp
  /-- R254 -/
  | clc
  /-- R255 -/
  | sec
  /-- R256 -/
  | cli
  /-- R257 -/
  | sei
  /-- R258 -/
  | clv
  /-- R259 -/
  | cld
  /-- R260 -/
  | sed
  /-- `NOP`, 0xEA, R261 -/
  | nop
  /-- R262 -/
  | brk
  /-- R263, R266 -/
  | rti
  -- undocumented (46)
  /-- R280; `code` is which of the twelve opcode values -/
  | jam (code : Byte)
  /-- R282 -/
  | slo (o : Operand)
  /-- R283 -/
  | rla (o : Operand)
  /-- R284 -/
  | sre (o : Operand)
  /-- R285 -/
  | rra (o : Operand)
  /-- R286 -/
  | dcp (o : Operand)
  /-- R287 -/
  | isc (o : Operand)
  /-- R288 -/
  | sax (o : Operand)
  /-- R289 -/
  | lax (o : Operand)
  /-- R290; `code` is 0x0B or 0x2B -/
  | anc (code : Byte) (m : Byte)
  /-- R291 -/
  | alr (m : Byte)
  /-- R292 -/
  | arr (m : Byte)
  /-- R293 -/
  | sbx (m : Byte)
  /-- `SBC #$nn`, opcode 0xEB, R294 -/
  | sbcEB (m : Byte)
  /-- R295 (absolute,Y) -/
  | las (addr : Addr)
  /-- undocumented implied `NOP`, R296 -/
  | nopImplied (code : Byte)
  /-- undocumented `NOP #$nn`, R297 -/
  | nopImm (code : Byte) (m : Byte)
  /-- undocumented `NOP` with a memory operand, R298 -/
  | nopMem (code : Byte) (o : Operand)
  /-- R300 -/
  | ane (m : Byte)
  /-- R301 -/
  | lxa (m : Byte)
  /-- R302 -/
  | sha (o : Operand)
  /-- R303 (absolute,Y) -/
  | shx (addr : Addr)
  /-- R304 (absolute,X) -/
  | shy (addr : Addr)
  /-- R305 (absolute,Y) -/
  | tas (addr : Addr)
deriving DecidableEq, Repr

end Sys2Proof
end

