-- ==== Sys2Proof/WellFormed.lean ====
section
/-! DEFINITION. Which instruction terms are rows of spec/opcode_table.json: the addressing modes each rule's
encoding table lists, and the opcode values of the rows that share a form. -/

namespace Sys2Proof

/-- A mode without its operand bytes. -/
inductive Mode where
  | imm | zp | zpx | zpy | abs | abx | aby | izx | izy
deriving DecidableEq, Repr

/-- The mode of an operand. -/
def Operand.mode : Operand → Mode
  | .imm _ => .imm
  | .zp _ => .zp
  | .zpx _ => .zpx
  | .zpy _ => .zpy
  | .abs _ => .abs
  | .abx _ => .abx
  | .aby _ => .aby
  | .izx _ => .izx
  | .izy _ => .izy

/-- The eight modes of the accumulator group (30 R115). -/
def Mode.accumulatorGroup : List Mode := [.izx, .zp, .imm, .abs, .izy, .zpx, .aby, .abx]

/-- The accumulator group's modes less the immediate (30 R115: `STA` has none; 30 R118: the group-11
read-modify-write instructions, whose immediate column holds others). -/
def Mode.accumulatorStore : List Mode := [.izx, .zp, .abs, .izy, .zpx, .aby, .abx]

/-- The memory modes of the read-modify-write group (30 R116). -/
def Mode.rmwGroup : List Mode := [.zp, .abs, .zpx, .abx]

/-- The operand is in one of the listed modes. -/
def Operand.isIn (o : Operand) (ms : List Mode) : Bool := ms.contains o.mode

/-- The shift operand is the accumulator or in a mode of the read-modify-write group. -/
def ShiftOperand.wellFormed : ShiftOperand → Bool
  | .acc => true
  | .mem o => o.isIn Mode.rmwGroup

/-- The twelve `JAM` opcode values (46 R280). -/
def jamCodes : List Byte :=
  [0x02#8, 0x12#8, 0x22#8, 0x32#8, 0x42#8, 0x52#8] ++ [0x62#8, 0x72#8, 0x92#8, 0xB2#8, 0xD2#8, 0xF2#8]

/-- The two `ANC` opcode values (46 R290). -/
def ancCodes : List Byte := [0x0B#8, 0x2B#8]

/-- The undocumented implied `NOP` opcode values (46 R296). -/
def nopImpliedCodes : List Byte := [0x1A#8, 0x3A#8, 0x5A#8, 0x7A#8, 0xDA#8, 0xFA#8]

/-- The `NOP #$nn` opcode values (46 R297). -/
def nopImmCodes : List Byte := [0x80#8, 0x82#8, 0x89#8, 0xC2#8, 0xE2#8]

/-- The opcode values of `NOP` with a memory operand, per mode (46 R298). -/
def nopMemCodes : Operand → List Byte
  | .zp _ => [0x04#8, 0x44#8, 0x64#8]
  | .zpx _ => [0x14#8, 0x34#8, 0x54#8, 0x74#8, 0xD4#8, 0xF4#8]
  | .abs _ => [0x0C#8]
  | .abx _ => [0x1C#8, 0x3C#8, 0x5C#8, 0x7C#8, 0xDC#8, 0xFC#8]
  | _ => []

/-- The term is a row of the opcode table. -/
def Instr.wellFormed : Instr → Bool
  | .lda o => o.isIn Mode.accumulatorGroup
  | .ldx o => o.isIn [.imm, .zp, .abs, .zpy, .aby]
  | .ldy o => o.isIn [.imm, .zp, .abs, .zpx, .abx]
  | .sta o => o.isIn Mode.accumulatorStore
  | .stx o => o.isIn [.zp, .abs, .zpy]
  | .sty o => o.isIn [.zp, .abs, .zpx]
  | .tax => true
  | .tay => true
  | .txa => true
  | .tya => true
  | .tsx => true
  | .txs => true
  | .ora o => o.isIn Mode.accumulatorGroup
  | .and o => o.isIn Mode.accumulatorGroup
  | .eor o => o.isIn Mode.accumulatorGroup
  | .adc o => o.isIn Mode.accumulatorGroup
  | .sbc o => o.isIn Mode.accumulatorGroup
  | .cmp o => o.isIn Mode.accumulatorGroup
  | .cpx o => o.isIn [.imm, .zp, .abs]
  | .cpy o => o.isIn [.imm, .zp, .abs]
  | .bit o => o.isIn [.zp, .abs]
  | .asl o => o.wellFormed
  | .lsr o => o.wellFormed
  | .rol o => o.wellFormed
  | .ror o => o.wellFormed
  | .inc o => o.isIn Mode.rmwGroup
  | .dec o => o.isIn Mode.rmwGroup
  | .inx => true
  | .iny => true
  | .dex => true
  | .dey => true
  | .bpl _ => true
  | .bmi _ => true
  | .bvc _ => true
  | .bvs _ => true
  | .bcc _ => true
  | .bcs _ => true
  | .bne _ => true
  | .beq _ => true
  | .jmp _ => true
  | .jmpInd _ => true
  | .jsr _ => true
  | .rts => true
  | .pha => true
  | .php => true
  | .pla => true
  | .plp => true
  | .clc => true
  | .sec => true
  | .cli => true
  | .sei => true
  | .clv => true
  | .cld => true
  | .sed => true
  | .nop => true
  | .brk => true
  | .rti => true
  | .jam code => jamCodes.contains code
  | .slo o => o.isIn Mode.accumulatorStore
  | .rla o => o.isIn Mode.accumulatorStore
  | .sre o => o.isIn Mode.accumulatorStore
  | .rra o => o.isIn Mode.accumulatorStore
  | .dcp o => o.isIn Mode.accumulatorStore
  | .isc o => o.isIn Mode.accumulatorStore
  | .sax o => o.isIn [.izx, .zp, .abs, .zpy]
  | .lax o => o.isIn [.izx, .zp, .abs, .izy, .zpy, .aby]
  | .anc code _ => ancCodes.contains code
  | .alr _ => true
  | .arr _ => true
  | .sbx _ => true
  | .sbcEB _ => true
  | .las _ => true
  | .nopImplied code => nopImpliedCodes.contains code
  | .nopImm code _ => nopImmCodes.contains code
  | .nopMem code o => (nopMemCodes o).contains code
  | .ane _ => true
  | .lxa _ => true
  | .sha o => o.isIn [.izy, .aby]
  | .shx _ => true
  | .shy _ => true
  | .tas _ => true

end Sys2Proof
end

