-- ==== Sys2Proof/Decode.lean ====
section
/-! DEFINITION. The decoder (spec/30_encoding.md R111 to R114, R119, R124) and, after it, the encoder
(30 R112, R115 to R118 and the encoding tables of files 41 to 46).

The decoder is the matrix of R119, which the spec calls normative; the encoder is written from the bit fields
`aaa bbb cc` of R112 and the groups of R115 to R118, so that the round trip compares two readings of the spec. -/

namespace Sys2Proof

/-- The operand of a mode from its operand bytes (30 R113, R114): `b1` at the lower address; `b2` is used by
the three-byte formats only. -/
def Mode.operand (b1 b2 : Byte) : Mode → Operand
  | .imm => .imm b1
  | .zp => .zp b1
  | .zpx => .zpx b1
  | .zpy => .zpy b1
  | .abs => .abs (joinBytes b2 b1)
  | .abx => .abx (joinBytes b2 b1)
  | .aby => .aby (joinBytes b2 b1)
  | .izx => .izx b1
  | .izy => .izy b1

/-- How many operand bytes a mode has (30 R111). -/
def Mode.operandBytes : Mode → Nat
  | .imm => 1
  | .zp => 1
  | .zpx => 1
  | .zpy => 1
  | .abs => 2
  | .abx => 2
  | .aby => 2
  | .izx => 1
  | .izy => 1

/-- One cell of the opcode matrix: an instruction that still lacks its operand bytes. -/
inductive Template where
  /-- no operand byte -/
  | bare (i : Instr)
  /-- one operand byte that is not an address: an immediate or a displacement -/
  | byte (f : Byte → Instr)
  /-- a 16-bit address in two operand bytes -/
  | word (f : Addr → Instr)
  /-- a memory operand -/
  | mem (m : Mode) (f : Operand → Instr)
  /-- the memory operand of a shift or rotate -/
  | shift (m : Mode) (f : ShiftOperand → Instr)

/-- How many operand bytes follow the opcode (30 R111). -/
def Template.operandBytes : Template → Nat
  | .bare _ => 0
  | .byte _ => 1
  | .word _ => 2
  | .mem m _ => m.operandBytes
  | .shift m _ => m.operandBytes

/-- The instruction, given its operand bytes; bytes the format does not have are ignored. -/
def Template.fill (b1 b2 : Byte) : Template → Instr
  | .bare i => i
  | .byte f => f b1
  | .word f => f (joinBytes b2 b1)
  | .mem m f => f (m.operand b1 b2)
  | .shift m f => f (.mem (m.operand b1 b2))

/-! The matrix of 30 R119, one definition per row (high nibble), low nibble by position. -/

/-- Opcodes 0x00 to 0x0F. -/
def Template.row0 : List Template :=
  [.bare .brk, .mem .izx .ora, .bare (.jam 0x02), .mem .izx .slo,
   .mem .zp (.nopMem 0x04), .mem .zp .ora, .shift .zp .asl, .mem .zp .slo,
   .bare .php, .mem .imm .ora, .bare (.asl .acc), .byte (.anc 0x0B),
   .mem .abs (.nopMem 0x0C), .mem .abs .ora, .shift .abs .asl, .mem .abs .slo]

/-- Opcodes 0x10 to 0x1F. -/
def Template.row1 : List Template :=
  [.byte .bpl, .mem .izy .ora, .bare (.jam 0x12), .mem .izy .slo,
   .mem .zpx (.nopMem 0x14), .mem .zpx .ora, .shift .zpx .asl, .mem .zpx .slo,
   .bare .clc, .mem .aby .ora, .bare (.nopImplied 0x1A), .mem .aby .slo,
   .mem .abx (.nopMem 0x1C), .mem .abx .ora, .shift .abx .asl, .mem .abx .slo]

/-- Opcodes 0x20 to 0x2F. -/
def Template.row2 : List Template :=
  [.word .jsr, .mem .izx .and, .bare (.jam 0x22), .mem .izx .rla,
   .mem .zp .bit, .mem .zp .and, .shift .zp .rol, .mem .zp .rla,
   .bare .plp, .mem .imm .and, .bare (.rol .acc), .byte (.anc 0x2B),
   .mem .abs .bit, .mem .abs .and, .shift .abs .rol, .mem .abs .rla]

/-- Opcodes 0x30 to 0x3F. -/
def Template.row3 : List Template :=
  [.byte .bmi, .mem .izy .and, .bare (.jam 0x32), .mem .izy .rla,
   .mem .zpx (.nopMem 0x34), .mem .zpx .and, .shift .zpx .rol, .mem .zpx .rla,
   .bare .sec, .mem .aby .and, .bare (.nopImplied 0x3A), .mem .aby .rla,
   .mem .abx (.nopMem 0x3C), .mem .abx .and, .shift .abx .rol, .mem .abx .rla]

/-- Opcodes 0x40 to 0x4F. -/
def Template.row4 : List Template :=
  [.bare .rti, .mem .izx .eor, .bare (.jam 0x42), .mem .izx .sre,
   .mem .zp (.nopMem 0x44), .mem .zp .eor, .shift .zp .lsr, .mem .zp .sre,
   .bare .pha, .mem .imm .eor, .bare (.lsr .acc), .byte .alr,
   .word .jmp, .mem .abs .eor, .shift .abs .lsr, .mem .abs .sre]

/-- Opcodes 0x50 to 0x5F. -/
def Template.row5 : List Template :=
  [.byte .bvc, .mem .izy .eor, .bare (.jam 0x52), .mem .izy .sre,
   .mem .zpx (.nopMem 0x54), .mem .zpx .eor, .shift .zpx .lsr, .mem .zpx .sre,
   .bare .cli, .mem .aby .eor, .bare (.nopImplied 0x5A), .mem .aby .sre,
   .mem .abx (.nopMem 0x5C), .mem .abx .eor, .shift .abx .lsr, .mem .abx .sre]

/-- Opcodes 0x60 to 0x6F. -/
def Template.row6 : List Template :=
  [.bare .rts, .mem .izx .adc, .bare (.jam 0x62), .mem .izx .rra,
   .mem .zp (.nopMem 0x64), .mem .zp .adc, .shift .zp .ror, .mem .zp .rra,
   .bare .pla, .mem .imm .adc, .bare (.ror .acc), .byte .arr,
   .word .jmpInd, .mem .abs .adc, .shift .abs .ror, .mem .abs .rra]

/-- Opcodes 0x70 to 0x7F. -/
def Template.row7 : List Template :=
  [.byte .bvs, .mem .izy .adc, .bare (.jam 0x72), .mem .izy .rra,
   .mem .zpx (.nopMem 0x74), .mem .zpx .adc, .shift .zpx .ror, .mem .zpx .rra,
   .bare .sei, .mem .aby .adc, .bare (.nopImplied 0x7A), .mem .aby .rra,
   .mem .abx (.nopMem 0x7C), .mem .abx .adc, .shift .abx .ror, .mem .abx .rra]

/-- Opcodes 0x80 to 0x8F. -/
def Template.row8 : List Template :=
  [.byte (.nopImm 0x80), .mem .izx .sta, .byte (.nopImm 0x82), .mem .izx .sax,
   .mem .zp .sty, .mem .zp .sta, .mem .zp .stx, .mem .zp .sax,
   .bare .dey, .byte (.nopImm 0x89), .bare .txa, .byte .ane,
   .mem .abs .sty, .mem .abs .sta, .mem .abs .stx, .mem .abs .sax]

/-- Opcodes 0x90 to 0x9F. -/
def Template.row9 : List Template :=
  [.byte .bcc, .mem .izy .sta, .bare (.jam 0x92), .mem .izy .sha,
   .mem .zpx .sty, .mem .zpx .sta, .mem .zpy .stx, .mem .zpy .sax,
   .bare .tya, .mem .aby .sta, .bare .txs, .word .tas,
   .word .shy, .mem .abx .sta, .word .shx, .mem .aby .sha]

/-- Opcodes 0xA0 to 0xAF. -/
def Template.rowA : List Template :=
  [.mem .imm .ldy, .mem .izx .lda, .mem .imm .ldx, .mem .izx .lax,
   .mem .zp .ldy, .mem .zp .lda, .mem .zp .ldx, .mem .zp .lax,
   .bare .tay, .mem .imm .lda, .bare .tax, .byte .lxa,
   .mem .abs .ldy, .mem .abs .lda, .mem .abs .ldx, .mem .abs .lax]

/-- Opcodes 0xB0 to 0xBF. -/
def Template.rowB : List Template :=
  [.byte .bcs, .mem .izy .lda, .bare (.jam 0xB2), .mem .izy .lax,
   .mem .zpx .ldy, .mem .zpx .lda, .mem .zpy .ldx, .mem .zpy .lax,
   .bare .clv, .mem .aby .lda, .bare .tsx, .word .las,
   .mem .abx .ldy, .mem .abx .lda, .mem .aby .ldx, .mem .aby .lax]

/-- Opcodes 0xC0 to 0xCF. -/
def Template.rowC : List Template :=
  [.mem .imm .cpy, .mem .izx .cmp, .byte (.nopImm 0xC2), .mem .izx .dcp,
   .mem .zp .cpy, .mem .zp .cmp, .mem .zp .dec, .mem .zp .dcp,
   .bare .iny, .mem .imm .cmp, .bare .dex, .byte .sbx,
   .mem .abs .cpy, .mem .abs .cmp, .mem .abs .dec, .mem .abs .dcp]

/-- Opcodes 0xD0 to 0xDF. -/
def Template.rowD : List Template :=
  [.byte .bne, .mem .izy .cmp, .bare (.jam 0xD2), .mem .izy .dcp,
   .mem .zpx (.nopMem 0xD4), .mem .zpx .cmp, .mem .zpx .dec, .mem .zpx .dcp,
   .bare .cld, .mem .aby .cmp, .bare (.nopImplied 0xDA), .mem .aby .dcp,
   .mem .abx (.nopMem 0xDC), .mem .abx .cmp, .mem .abx .dec, .mem .abx .dcp]

/-- Opcodes 0xE0 to 0xEF. -/
def Template.rowE : List Template :=
  [.mem .imm .cpx, .mem .izx .sbc, .byte (.nopImm 0xE2), .mem .izx .isc,
   .mem .zp .cpx, .mem .zp .sbc, .mem .zp .inc, .mem .zp .isc,
   .bare .inx, .mem .imm .sbc, .bare .nop, .byte .sbcEB,
   .mem .abs .cpx, .mem .abs .sbc, .mem .abs .inc, .mem .abs .isc]

/-- Opcodes 0xF0 to 0xFF. -/
def Template.rowF : List Template :=
  [.byte .beq, .mem .izy .sbc, .bare (.jam 0xF2), .mem .izy .isc,
   .mem .zpx (.nopMem 0xF4), .mem .zpx .sbc, .mem .zpx .inc, .mem .zpx .isc,
   .bare .sed, .mem .aby .sbc, .bare (.nopImplied 0xFA), .mem .aby .isc,
   .mem .abx (.nopMem 0xFC), .mem .abx .sbc, .mem .abx .inc, .mem .abx .isc]

/-- The matrix of 30 R119. -/
def Template.matrix : List (List Template) :=
  [Template.row0, Template.row1, Template.row2, Template.row3] ++
  [Template.row4, Template.row5, Template.row6, Template.row7] ++
  [Template.row8, Template.row9, Template.rowA, Template.rowB] ++
  [Template.rowC, Template.rowD, Template.rowE, Template.rowF]

/-- The cell of an opcode byte. The matrix is 16 by 16 (`Laws.matrix_complete`), so the fallback of the two
lookups is never reached: every opcode value has a cell (30 R124). -/
def template (op : Byte) : Template :=
  (Template.matrix.getD (op.toNat / 16) []).getD (op.toNat % 16) (.bare .nop)

/-- Why a byte list holds no instruction. No opcode value is rejected (30 R120, R124); only a list that ends
inside the instruction is. -/
inductive DecodeError where
  /-- there is no opcode byte -/
  | noOpcode
  /-- the list ends before the operand bytes the opcode asks for -/
  | missingOperand
deriving DecidableEq, Repr

/-- Decodes the instruction at the head of a byte list and returns it with the rest of the list. -/
def decode : List Byte → Except DecodeError (Instr × List Byte)
  | [] => .error .noOpcode
  | op :: rest =>
    match (template op).operandBytes, rest with
    | 0, _ => .ok ((template op).fill 0 0, rest)
    | 1, b1 :: rest' => .ok ((template op).fill b1 0, rest')
    | 2, b1 :: b2 :: rest' => .ok ((template op).fill b1 b2, rest')
    | _, _ => .error .missingOperand

/-- The three bytes of a table word: bit 0 of `w` is the least significant bit of the first byte; every bit
from `nbits` up is 0. -/
def tableBytes (nbits w : Nat) : List Byte :=
  [BitVec.ofNat 8 (w % 2 ^ nbits), BitVec.ofNat 8 (w % 2 ^ nbits / 256), BitVec.ofNat 8 (w % 2 ^ nbits / 65536)]

/-- The instruction the decoder reads from a table word. -/
def decodeTableWord (nbits w : Nat) : Option Instr :=
  match decode (tableBytes nbits w) with
  | .ok (i, _) => some i
  | .error _ => none

/-! ## The encoder -/

/-- An opcode byte from its fields `aaa bbb cc` (30 R112). -/
def opcodeByte (aaa bbb : BitVec 3) (cc : BitVec 2) : Byte := aaa ++ bbb ++ cc

/-- `bbb` of a mode in the accumulator group `cc = 01` (30 R115) and, for the modes it shares, in the group
`cc = 11` (30 R118). A zero-page,Y or absolute,Y operand of `SAX`, `LAX` and `SHA` sits where the pattern says
X (R118); `SAX` and `LAX` are encoded by `bbbTransfer`. -/
def Mode.bbbAccumulator : Mode → BitVec 3
  | .izx => 0b000
  | .zp => 0b001
  | .imm => 0b010
  | .abs => 0b011
  | .izy => 0b100
  | .zpx => 0b101
  | .aby => 0b110
  | .abx => 0b111
  | .zpy => 0b101

/-- `bbb` of a mode in the group `cc = 11` for `SAX`, `LAX`, `SHA` (30 R118: Y where the pattern says X). -/
def Mode.bbbTransfer : Mode → BitVec 3
  | .izx => 0b000
  | .zp => 0b001
  | .imm => 0b010
  | .abs => 0b011
  | .izy => 0b100
  | .zpx => 0b101
  | .zpy => 0b101
  | .aby => 0b111
  | .abx => 0b111

/-- `bbb` of a mode in the groups `cc = 10` and `cc = 00` (30 R116, R117); the zero-page,Y and absolute,Y forms
of `LDX` and `STX` sit at `zp,X` and `abs,X` (R116). -/
def Mode.bbbMemory : Mode → BitVec 3
  | .imm => 0b000
  | .zp => 0b001
  | .abs => 0b011
  | .zpx => 0b101
  | .zpy => 0b101
  | .abx => 0b111
  | .aby => 0b111
  | .izx => 0b000
  | .izy => 0b100

/-- The operand bytes, lower address first (30 R113). -/
def Operand.bytes : Operand → List Byte
  | .imm m => [m]
  | .zp z => [z]
  | .zpx z => [z]
  | .zpy z => [z]
  | .abs a => [loByte a, hiByte a]
  | .abx a => [loByte a, hiByte a]
  | .aby a => [loByte a, hiByte a]
  | .izx z => [z]
  | .izy z => [z]

/-- An instruction of the accumulator group, `cc = 01` (30 R115). -/
def encodeAccumulator (aaa : BitVec 3) (o : Operand) : List Byte :=
  opcodeByte aaa o.mode.bbbAccumulator 0b01 :: o.bytes

/-- A memory form of the group `cc = 10` (30 R116). -/
def encodeRmw (aaa : BitVec 3) (o : Operand) : List Byte :=
  opcodeByte aaa o.mode.bbbMemory 0b10 :: o.bytes

/-- A memory form of the group `cc = 00` (30 R117). -/
def encodeControl (aaa : BitVec 3) (o : Operand) : List Byte :=
  opcodeByte aaa o.mode.bbbMemory 0b00 :: o.bytes

/-- A read-modify-write instruction of the group `cc = 11` (30 R118). -/
def encodeCombined (aaa : BitVec 3) (o : Operand) : List Byte :=
  opcodeByte aaa o.mode.bbbAccumulator 0b11 :: o.bytes

/-- `SAX`, `LAX`, `SHA` of the group `cc = 11` (30 R118). -/
def encodeTransfer (aaa : BitVec 3) (o : Operand) : List Byte :=
  opcodeByte aaa o.mode.bbbTransfer 0b11 :: o.bytes

/-- A shift or rotate (30 R116): the accumulator form is at `bbb = 010`. -/
def encodeShift (aaa : BitVec 3) : ShiftOperand → List Byte
  | .acc => [opcodeByte aaa 0b010 0b10]
  | .mem o => encodeRmw aaa o

/-- A conditional branch, `xxy10000` (44 R230). -/
def encodeBranch (flag : BitVec 2) (value : BitVec 1) (d : Byte) : List Byte :=
  [opcodeByte (flag ++ value) 0b100 0b00, d]

/-- An instruction with a 16-bit address. -/
def encodeWord (op : Byte) (a : Addr) : List Byte := [op, loByte a, hiByte a]

/-- The words of a well-formed instruction, first byte first. -/
def encode : Instr → List Byte
  | .ora o => encodeAccumulator 0b000 o
  | .and o => encodeAccumulator 0b001 o
  | .eor o => encodeAccumulator 0b010 o
  | .adc o => encodeAccumulator 0b011 o
  | .sta o => encodeAccumulator 0b100 o
  | .lda o => encodeAccumulator 0b101 o
  | .cmp o => encodeAccumulator 0b110 o
  | .sbc o => encodeAccumulator 0b111 o
  | .asl o => encodeShift 0b000 o
  | .rol o => encodeShift 0b001 o
  | .lsr o => encodeShift 0b010 o
  | .ror o => encodeShift 0b011 o
  | .stx o => encodeRmw 0b100 o
  | .ldx o => encodeRmw 0b101 o
  | .dec o => encodeRmw 0b110 o
  | .inc o => encodeRmw 0b111 o
  | .txa => [opcodeByte 0b100 0b010 0b10]
  | .tax => [opcodeByte 0b101 0b010 0b10]
  | .dex => [opcodeByte 0b110 0b010 0b10]
  | .nop => [opcodeByte 0b111 0b010 0b10]
  | .txs => [opcodeByte 0b100 0b110 0b10]
  | .tsx => [opcodeByte 0b101 0b110 0b10]
  | .bpl d => encodeBranch 0b00 0 d
  | .bmi d => encodeBranch 0b00 1 d
  | .bvc d => encodeBranch 0b01 0 d
  | .bvs d => encodeBranch 0b01 1 d
  | .bcc d => encodeBranch 0b10 0 d
  | .bcs d => encodeBranch 0b10 1 d
  | .bne d => encodeBranch 0b11 0 d
  | .beq d => encodeBranch 0b11 1 d
  | .brk => [opcodeByte 0b000 0b000 0b00]
  | .jsr a => encodeWord (opcodeByte 0b001 0b000 0b00) a
  | .rti => [opcodeByte 0b010 0b000 0b00]
  | .rts => [opcodeByte 0b011 0b000 0b00]
  | .php => [opcodeByte 0b000 0b010 0b00]
  | .plp => [opcodeByte 0b001 0b010 0b00]
  | .pha => [opcodeByte 0b010 0b010 0b00]
  | .pla => [opcodeByte 0b011 0b010 0b00]
  | .dey => [opcodeByte 0b100 0b010 0b00]
  | .tay => [opcodeByte 0b101 0b010 0b00]
  | .iny => [opcodeByte 0b110 0b010 0b00]
  | .inx => [opcodeByte 0b111 0b010 0b00]
  | .clc => [opcodeByte 0b000 0b110 0b00]
  | .sec => [opcodeByte 0b001 0b110 0b00]
  | .cli => [opcodeByte 0b010 0b110 0b00]
  | .sei => [opcodeByte 0b011 0b110 0b00]
  | .tya => [opcodeByte 0b100 0b110 0b00]
  | .clv => [opcodeByte 0b101 0b110 0b00]
  | .cld => [opcodeByte 0b110 0b110 0b00]
  | .sed => [opcodeByte 0b111 0b110 0b00]
  | .bit o => encodeControl 0b001 o
  | .jmp a => encodeWord (opcodeByte 0b010 0b011 0b00) a
  | .jmpInd a => encodeWord (opcodeByte 0b011 0b011 0b00) a
  | .sty o => encodeControl 0b100 o
  | .ldy o => encodeControl 0b101 o
  | .cpy o => encodeControl 0b110 o
  | .cpx o => encodeControl 0b111 o
  | .slo o => encodeCombined 0b000 o
  | .rla o => encodeCombined 0b001 o
  | .sre o => encodeCombined 0b010 o
  | .rra o => encodeCombined 0b011 o
  | .sax o => encodeTransfer 0b100 o
  | .lax o => encodeTransfer 0b101 o
  | .dcp o => encodeCombined 0b110 o
  | .isc o => encodeCombined 0b111 o
  | .alr m => [opcodeByte 0b010 0b010 0b11, m]
  | .arr m => [opcodeByte 0b011 0b010 0b11, m]
  | .ane m => [opcodeByte 0b100 0b010 0b11, m]
  | .lxa m => [opcodeByte 0b101 0b010 0b11, m]
  | .sbx m => [opcodeByte 0b110 0b010 0b11, m]
  | .sbcEB m => [opcodeByte 0b111 0b010 0b11, m]
  | .tas a => encodeWord (opcodeByte 0b100 0b110 0b11) a
  | .las a => encodeWord (opcodeByte 0b101 0b110 0b11) a
  | .sha o => encodeTransfer 0b100 o
  | .shx a => encodeWord (opcodeByte 0b100 0b111 0b10) a
  | .shy a => encodeWord (opcodeByte 0b100 0b111 0b00) a
  | .jam code => [code]
  | .anc code m => [code, m]
  | .nopImplied code => [code]
  | .nopImm code m => [code, m]
  | .nopMem code o => code :: o.bytes

/-- The instruction's length in bytes (30 R111). -/
def Instr.length (i : Instr) : Nat := (encode i).length

end Sys2Proof
end

