-- ==== Sys2Proof/Config.lean ====
section
/-! DEFINITION. What is fixed for one instance of the hardware (spec/00_scope.md R5, R12) and the free values.

`Config` is plain data and stands in `State` (field `cfg`), so a statement about every state is a statement
about every configuration. Where the spec leaves a FUNCTION open, it is an `opaque` constant without a body:
nothing can be proved of its values. -/

namespace Sys2Proof

/-- The two chip models (49 R396): `modelA` is the one whose filtered output feeds back into the cutoff. -/
inductive ChipModel where
  | modelA
  | modelB
deriving DecidableEq, Repr

/-- Which function a configuration function is: the default its rule prints, or another one of the same type
(00 R5: every row of the table is a parameter of the model). Log 8. -/
inductive Choice where
  | standard
  | other
deriving DecidableEq, Repr

/-- A state of the external memory abstraction and the out-of-scope peripherals (20 R80 `Ext`): a code for it.
Nothing is known of what a code means; see `Config.extRead`. Log 2. -/
abbrev Ext := Nat

/-- Where the external memory abstraction puts the device registers (20 R89: the five addresses are OPEN,
and the registers may not appear at all), and which address ranges (first, last, inclusive) the bus oracle of
20 R80 answers, about which nothing is assumed. An address in neither is RAM: the premise about the memory
abstraction that 20 R80 lets a claim make, as data. Logs 2, 15. -/
structure BusMap where
  sidBase : Option Addr
  rasterControl : Option Addr
  rasterRow : Option Addr
  rasterFlag : Option Addr
  rasterEnable : Option Addr
  external : List (Addr × Addr)
deriving DecidableEq, Repr

/-- The reference placement (20 R89): sound chip at 0xD400, the raster bytes at 0xD011, 0xD012, 0xD019,
0xD01A, no external window. -/
def BusMap.reference : BusMap where
  sidBase := some 0xD400#16
  rasterControl := some 0xD011#16
  rasterRow := some 0xD012#16
  rasterFlag := some 0xD019#16
  rasterEnable := some 0xD01A#16
  external := []

/-- The reference placement with everything else answered by the bus oracle, as 20 R80 has it: no address is RAM. -/
def BusMap.oracle : BusMap := { BusMap.reference with external := [(0x0000#16, 0xFFFF#16)] }

/-- No device register and no external window: every address is RAM (20 R89, "whether they appear at all"). -/
def BusMap.flat : BusMap where
  sidBase := none
  rasterControl := none
  rasterRow := none
  rasterFlag := none
  rasterEnable := none
  external := []

/-- The configuration record (00 R5, 70 R470). -/
structure Config where
  /-- `STACK_BASE` -/
  stackBase : Addr
  /-- `NMI_VECTOR` -/
  nmiVector : Addr
  /-- `IRQ_VECTOR` -/
  irqVector : Addr
  /-- `SP_RESET` -/
  spReset : Byte
  /-- `P_RESET` -/
  pReset : Byte
  /-- `IRQ_PUSH_I_FORCED` -/
  irqPushIForced : Bool
  /-- `JMP_IND_PAGE_WRAP` -/
  jmpIndPageWrap : Bool
  /-- `UNSTABLE_ADMITTED` -/
  unstableAdmitted : Bool
  /-- `BcdAdc` -/
  bcdAdc : Choice
  /-- `BcdSbc` -/
  bcdSbc : Choice
  /-- `PHASE_BITS`; the rules write their formulas for 24 alone (log 31) -/
  phaseBits : Nat
  /-- `WAVE_BITS`; the rules write their formulas for 12 alone (log 31) -/
  waveBits : Nat
  /-- `NOISE_CLK_BIT` -/
  noiseClkBit : Fin 24
  /-- `RatePeriod` -/
  ratePeriod : List Nat
  /-- `ExpPeriod` -/
  expPeriod : List Nat
  /-- `ENV_ZERO_ON_GATE` -/
  envZeroOnGate : Bool
  /-- `ChipModel` -/
  chipModel : ChipModel
  /-- `FilterStep` -/
  filter : Choice
  /-- `Quantise` -/
  quantise : Choice
  /-- `ATTENUATION` -/
  attenuation : Nat
  /-- `ROWS_TOTAL` -/
  rowsTotal : Nat
  /-- `CYCLES_PER_ROW` -/
  cyclesPerRow : Nat
  /-- `RASTER_ACK_NEEDS_ONE` -/
  rasterAckNeedsOne : Bool
  /-- `REAL_HW_MODE` -/
  realHwMode : Bool
  /-- the clock-to-sample-rate ratio: for the host alone, no rule of the core reads it (00 R5, 49 R405; log 25) -/
  clockRatio : Rat
  /-- `SID_BASE` and the four `RASTER_*_ADDR` -/
  map : BusMap
deriving DecidableEq, Repr

/-- The default `RatePeriod` table (48 R383). -/
def Config.ratePeriodDefault : List Nat :=
  [9, 32, 63, 95, 149, 220, 267, 313] ++ [392, 977, 1954, 3126, 3907, 11720, 19532, 31251]

/-- The default `ExpPeriod` table (48 R384): levels 0; 1 to 6; 7 to 14; 15 to 26; 27 to 54; 55 to 93; 94 to 255. -/
def Config.expPeriodDefault : List Nat :=
  List.replicate 1 1 ++ List.replicate 6 30 ++ List.replicate 8 16 ++ List.replicate 12 8 ++
    List.replicate 28 4 ++ List.replicate 39 2 ++ List.replicate 162 1

/-- The table of 00 R5: every row with a value at that value, and the rows marked OPEN, which are arguments of
`Reset` (`State.resetWith`), at the DESIGN CHOICES of log 3. -/
def Config.standard : Config where
  stackBase := 0x0100#16
  nmiVector := 0xFFFA#16
  irqVector := 0xFFFE#16
  spReset := 0xFF#8
  pReset := 0x04#8
  irqPushIForced := false
  jmpIndPageWrap := true
  unstableAdmitted := false
  bcdAdc := .standard
  bcdSbc := .standard
  phaseBits := 24
  waveBits := 12
  noiseClkBit := 20
  ratePeriod := Config.ratePeriodDefault
  expPeriod := Config.expPeriodDefault
  envZeroOnGate := false
  chipModel := .modelA
  filter := .standard
  quantise := .standard
  attenuation := 1
  rowsTotal := 312
  cyclesPerRow := 63
  rasterAckNeedsOne := false
  realHwMode := true
  clockRatio := 1
  map := BusMap.reference

/-- The configuration `State.reset` is made with: `Config.standard` with the unstable opcodes admitted (log 4). -/
def Config.reference : Config := { Config.standard with unstableAdmitted := true }

/-- `ENTRY_PC` of `State.reset` (00 R5: OPEN, an argument of reset). DESIGN CHOICE, log 3: spec/95's 0x1000. -/
def Config.referenceEntry : Addr := 0x1000#16

namespace Config

/-- The `n`-th free byte: `MAGIC` (46 R300, R301), a read of an unassigned sound-chip offset (10 R49). Nothing is
known of it. Log 5. -/
opaque draw : Nat → Byte

/-- The bus oracle's read (20 R80 `busRead`): the byte and the new external state. Nothing is known of it. Log 2. -/
opaque extRead : Ext → Addr → Byte × Ext

/-- The bus oracle's write (20 R80 `busWrite`): the new external state. Nothing is known of it. Log 2. -/
opaque extWrite : Ext → Addr → Byte → Ext

/-- `Combined` (47 R341): chip model, selector, triangle, sawtooth, pulse, noise. Log 6. -/
opaque combined : ChipModel → BitVec 4 → Wave → Wave → Wave → Wave → Wave

/-- `CutoffCoef` for `ModelA` (49 R394): raw cutoff, low-pass, band-pass. Log 7. -/
opaque cutoffCoefA : BitVec 11 → Rat → Rat → Rat

/-- `CutoffCoef` for `ModelB` (49 R394): the result does not depend on the integrators. Log 7. -/
opaque cutoffCoefB : BitVec 11 → Rat

/-- `ResonanceCoef` (49 R395). Log 7. -/
opaque resonanceCoef : ChipModel → BitVec 4 → Rat

/-- A `FilterStep` other than the default (49 R398): low-pass, band-pass, input, cutoff, resonance. Log 8. -/
opaque otherFilterStep : Rat → Rat → Int → Rat → Rat → Rat × Rat × Rat

/-- A `Quantise` other than the default (49 R402). Log 8. -/
opaque otherQuantise : Rat → Int

/-- A `BcdAdc` other than the default (42 R199): byte and carry. Log 8. -/
opaque otherBcdAdc : Byte → Byte → Bool → Byte × Bool

/-- A `BcdSbc` other than the default (42 R199). Log 8. -/
opaque otherBcdSbc : Byte → Byte → Bool → Byte

/-- How far `VolSmooth` moves from the old value towards the raw one (49 R401), before it is clamped to 0..1.
Log 9. -/
opaque volSmoothFactor : Rat → BitVec 4 → Rat

/-- `DIGI_GAIN` (49 R401). Log 9. -/
opaque digiGain : Rat

end Config

end Sys2Proof
end

