-- ==== Sys2Proof/Machine/State.lean ====
section
/-! DEFINITION. The state of the machine (spec/10_state.md), its stops, and its reset (10 R62 to R64, 70 R470).

`State` is plain data. Beside the state the spec gives the hardware it holds, as data, the configuration, the
host's inputs and the outputs the host is told (70 R475), and one counter of the model's own (`draws`). -/

namespace Sys2Proof.Machine

open Sys2Proof

/-- The hardware has no fault: "There are no recoverable runtime errors inside the core" (60 R420, R421), so
there is no reason a step could fault with. -/
inductive Fault where
deriving DecidableEq, Repr

/-- Why the model gives a step no next state. -/
inductive Refusal where
  /-- Raised by an arm of `exec` for an instruction that has no meaning yet. Safe: nothing can be proved past it. -/
  | notModelled (mnemonic : String)
  /-- Raised by the six unstable mnemonics while `UNSTABLE_ADMITTED` is false (46 R299: "the model refuses").
  Safe: nothing can be proved past it. -/
  | unstableOpcode (mnemonic : String)
  /-- Raised by `ARR` with `P.D = 1` (46 R292: "if P.D = 1 then refuse"). Safe. -/
  | arrDecimal
  /-- Raised by `step` for a configuration outside its domain (49 R402, 93 U18, U20). Safe. -/
  | configOutOfDomain
deriving DecidableEq, Repr

/-- How a step ended (00 R9). -/
inductive StepOutcome where
  /-- the number of clock cycles consumed -/
  | cycles (n : Nat)
  /-- 45 R265 -/
  | subroutineDone
  /-- 45 R266 -/
  | idle
  /-- 46 R280 -/
  | jammed
deriving DecidableEq, Repr

/-- One bus access (70 R475: address, direction, byte). -/
inductive BusAccess where
  | read (addr : Addr) (value : Byte)
  | write (addr : Addr) (value : Byte)
deriving DecidableEq, Repr

/-- What the host can do between two rounds (70 R470 to R475, 49 R405). Log 11. -/
inductive HostEvent where
  /-- the NMI level is now `n` (10 R36) -/
  | nmiLevel (n : Nat)
  /-- the second peripheral's request is now `b` (10 R36) -/
  | extIrq (b : Bool)
  /-- `HostSetRegs` (70 R474) -/
  | setRegs (pc : Addr) (a x y : Byte)
  /-- the host puts a byte into RAM (70 R474: "the host places machine code in memory") -/
  | load (addr : Addr) (value : Byte)
  /-- `Reset(config, ENTRY_PC)` (70 R470, R471) -/
  | reset (cfg : Config) (entry : Addr)
  /-- a sample is due after the next `SidAdvance` (60 R452, 49 R405): `SidOutput` on the pair that call returns, or
  on a pair the host formed (49 R400: "or any combination of such pairs the host forms") -/
  | sample (formed : Option (Int × Int))
  /-- the host calls `SidOutput` now (49 R405), on the pair the last `SidAdvance` returned or on one it formed -/
  | output (formed : Option (Int × Int))
  /-- the external memory abstraction has come into another state by itself (20 R80; 70 R472) -/
  | external (e : Ext)
  /-- the host lets `n` cycles pass on the devices between two rounds (93 U23: a coarser schedule; a jammed
  processor's devices) -/
  | advance (n : Nat)
deriving DecidableEq, Repr

/-- Memory: (address, byte) pairs, addresses strictly rising, no entry equal to what an unlisted address reads
as (`Memory.wf` in `Ops.lean`). -/
structure Memory where
  cells : List Host.Cell
deriving DecidableEq, Repr

/-- One channel (10 R50, R51). -/
structure Channel where
  gate : Bool
  attack : Bool
  decaySustain : Bool
  holdZero : Bool
  rateCounter : BitVec 15
  expCounter : BitVec 8
  envLevel : BitVec 8
  phase : Phase
  prevPhase : Phase
  lfsr : Lfsr
  waveOut : Wave
  /-- serves only the excluded strategy (47 R349): no rule reads or writes it; log 26 -/
  combPrev : Wave
deriving DecidableEq, Repr

/-- The Sound-Chip Core: the 25 stored registers by offset (10 R39), the three channels (R50), the filter and
volume state (R52) and the two carried bits (R53). -/
structure Sid where
  regs : Vector Byte 25
  ch : Vector Channel 3
  lp : Rat
  bp : Rat
  volSmooth : Rat
  syncRise : Bool
  ringMsb : Bool
deriving DecidableEq, Repr

/-- The Raster Timer (10 R54). `matched` is the spec's `match`. -/
structure Raster where
  acc : Nat
  row : BitVec 9
  cmp : BitVec 9
  ctrlLow : BitVec 7
  enable : Byte
  matched : Bool
  irq : Bool
deriving DecidableEq, Repr

/-- The whole machine. -/
structure State where
  -- the Processor Core (10 R20 to R38)
  pc : Addr
  a : Byte
  x : Byte
  y : Byte
  sp : Byte
  p : Byte
  prevNmi : Nat
  jammed : Bool
  -- the devices
  sid : Sid
  raster : Raster
  -- the addresses that are RAM, the state of what answers the others (20 R80), and what reset fixes
  mem : Memory
  ext : Ext
  cfg : Config
  -- inputs: the two lines as they stand (10 R36), the events of the coming rounds, the samples asked for (logs 11, 12)
  nmiLevel : Nat
  extIrq : Bool
  pending : List (List HostEvent)
  requests : List (Option (Int × Int))
  -- outputs (70 R475, log 20): of the last round, its `SidAdvance` pairs and its samples in order; `sums` is the
  -- last pair of all
  outcome : Option StepOutcome
  taken : Bool
  bus : List BusAccess
  sums : Int × Int
  pairs : List (Int × Int)
  samples : List Int
  -- the model's own counter of free values drawn (log 5)
  draws : Nat
deriving DecidableEq, Repr

/-- A channel after reset (10 R63): released, frozen at level 0, noise register all ones. -/
def Channel.reset : Channel where
  gate := false
  attack := false
  decaySustain := false
  holdZero := true
  rateCounter := 0
  expCounter := 0
  envLevel := 0
  phase := 0
  prevPhase := 0
  lfsr := 0x7FFFFF#23
  waveOut := 0
  combPrev := 0

/-- The Sound-Chip Core after reset (10 R63). -/
def Sid.reset : Sid where
  regs := Vector.replicate 25 0
  ch := Vector.replicate 3 Channel.reset
  lp := 0
  bp := 0
  volSmooth := 0
  syncRise := false
  ringMsb := false

/-- The Raster Timer after reset (10 R64). -/
def Raster.reset : Raster where
  acc := 0
  row := 0
  cmp := 0
  ctrlLow := 0
  enable := 0
  matched := false
  irq := false

/-- `Reset(config, ENTRY_PC)` (70 R470, R471) applied to a machine: every field of the three components at its
reset value and the configuration fixed; memory, the two lines and what else belongs to the host untouched. -/
def State.hostReset (cfg : Config) (entry : Addr) (s : State) : State :=
  { s with
    pc := entry, a := 0, x := 0, y := 0, sp := cfg.spReset, p := cfg.pReset, prevNmi := 0, jammed := false,
    sid := Sid.reset, raster := Raster.reset, cfg := cfg }

/-- The machine right after its first `Reset(config, ENTRY_PC)`, both arguments of it (70 R470): 10 R62 to R64; no
memory listed (log 1), the external state unknown to every rule (log 2), no host input (logs 11, 12), nothing
reported yet (log 20), nothing drawn (log 5). -/
def State.resetWith (cfg : Config) (entry : Addr) : State where
  pc := entry
  a := 0
  x := 0
  y := 0
  sp := cfg.spReset
  p := cfg.pReset
  prevNmi := 0
  jammed := false
  sid := Sid.reset
  raster := Raster.reset
  mem := { cells := [] }
  ext := 0
  cfg := cfg
  nmiLevel := 0
  extIrq := false
  pending := []
  requests := []
  outcome := none
  taken := false
  bus := []
  sums := (0, 0)
  pairs := []
  samples := []
  draws := 0

/-- The machine right after reset, with the arguments of logs 3 and 4. -/
def State.reset : State := State.resetWith Config.reference Config.referenceEntry

end Sys2Proof.Machine
end

