-- ==== Sys2Proof/Machine/Flags.lean ====
section
/-! DEFINITION. The status register (spec/10_state.md R25) and every flag computation of the instruction set:
`SetNZ` (00 R8), binary and decimal add and subtract (42 R188, R193, R194, R199), compare (42 R189), shifts and
rotates (43 R210 to R213). -/

namespace Sys2Proof.Machine

open Sys2Proof

/-- The eight bits of `P` by name (10 R25). -/
inductive Flag where
  | n | v | u | b | d | i | z | c
deriving DecidableEq, Repr

/-- The bit position of a flag (10 R25). -/
def Flag.bit : Flag → Nat
  | .n => 7
  | .v => 6
  | .u => 5
  | .b => 4
  | .d => 3
  | .i => 2
  | .z => 1
  | .c => 0

/-- The mask of a flag (10 R25). -/
def Flag.mask (f : Flag) : Byte := 1#8 <<< f.bit

/-- `P.f`. -/
def flag (p : Byte) (f : Flag) : Bool := p.getLsbD f.bit

/-- `P.f <- v`: the other seven bits stay. -/
def setFlag (p : Byte) (f : Flag) (v : Bool) : Byte :=
  if v then p ||| f.mask else p &&& ~~~f.mask

/-- `SetNZ(r)` (00 R8): `N <- r[7]`, `Z <- (r = 0)`. -/
def setNZ (r p : Byte) : Byte := setFlag (setFlag p .n r.msb) .z (r == 0)

/-- A bit as a number. -/
def bitNat (b : Bool) : Nat := if b then 1 else 0

/-- `BcdAdc` (42 R199): the corrected byte and the decimal carry. -/
def bcdAdcStandard (a m : Byte) (c : Bool) : Byte × Bool :=
  let al := (loNibble a).toNat + (loNibble m).toNat + bitNat c
  let al := if al ≥ 0x0A then (al + 6) % 16 + 0x10 else al
  let s := (hiNibble a).toNat * 16 + (hiNibble m).toNat * 16 + al
  let s := if s ≥ 0xA0 then s + 0x60 else s
  (BitVec.ofNat 8 s, decide (s ≥ 0x100))

/-- `BcdSbc` (42 R199): the corrected byte. `& 0x0F` of a negative integer is its residue modulo 16. -/
def bcdSbcStandard (a m : Byte) (c : Bool) : Byte :=
  let al : Int := (loNibble a).toNat - (loNibble m).toNat + bitNat c - 1
  let al : Int := if al < 0 then (al - 6) % 16 - 0x10 else al
  let s : Int := (hiNibble a).toNat * 16 - (hiNibble m).toNat * 16 + al
  let s : Int := if s < 0 then s - 0x60 else s
  BitVec.ofInt 8 s

/-- The configured `BcdAdc` (00 R5). -/
def bcdAdc (cfg : Config) (a m : Byte) (c : Bool) : Byte × Bool :=
  match cfg.bcdAdc with
  | .standard => bcdAdcStandard a m c
  | .other => Config.otherBcdAdc a m c

/-- The configured `BcdSbc` (00 R5). -/
def bcdSbc (cfg : Config) (a m : Byte) (c : Bool) : Byte :=
  match cfg.bcdSbc with
  | .standard => bcdSbcStandard a m c
  | .other => Config.otherBcdSbc a m c

/-- The `ADC` operation (42 R193): the new accumulator and the new `P`. -/
def adc (cfg : Config) (a m p : Byte) : Byte × Byte :=
  let c := flag p .c
  let s := a.toNat + m.toNat + bitNat c
  let r := BitVec.ofNat 8 s
  let p := setFlag p .v ((a ^^^ r) &&& (m ^^^ r)).msb
  if flag p .d then
    let (a2, c2) := bcdAdc cfg a m c
    (a2, setNZ a2 (setFlag p .c c2))
  else
    (r, setNZ r (setFlag p .c (decide (s > 255))))

/-- The `SBC` operation (42 R194): the new accumulator and the new `P`. -/
def sbc (cfg : Config) (a m p : Byte) : Byte × Byte :=
  let c := flag p .c
  let s : Int := a.toNat - m.toNat - (1 - bitNat c)
  let r := BitVec.ofInt 8 s
  let p := setFlag p .v ((a ^^^ m) &&& (a ^^^ r)).msb
  let p := setFlag p .c (decide (s ≥ 0))
  if flag p .d then
    let a2 := bcdSbc cfg a m c
    (a2, setNZ a2 p)
  else
    (r, setNZ r p)

/-- The compare law (42 R189): `C <- (reg >= m)`, `Z <- (reg = m)`, `N <- (reg - m)[7]`. -/
def compare (reg m p : Byte) : Byte :=
  setFlag (setFlag (setFlag p .c (decide (reg.toNat ≥ m.toNat))) .z (reg == m)) .n (reg - m).msb

/-- `BIT` (42 R198): `Z <- ((A & m) = 0)`, `N <- m[7]`, `V <- m[6]`. -/
def bitTest (a m p : Byte) : Byte :=
  setFlag (setFlag (setFlag p .z (a &&& m == 0)) .n (m.getLsbD 7)) .v (m.getLsbD 6)

/-- `ASL` (43 R210): the result and the new `P`. -/
def shiftLeft (v p : Byte) : Byte × Byte :=
  let r := v <<< 1
  (r, setNZ r (setFlag p .c (v.getLsbD 7)))

/-- `LSR` (43 R211). -/
def shiftRight (v p : Byte) : Byte × Byte :=
  let r := v >>> 1
  (r, setFlag (setFlag (setFlag p .c (v.getLsbD 0)) .n false) .z (r == 0))

/-- `ROL` (43 R212). -/
def rotateLeft (v p : Byte) : Byte × Byte :=
  let r := (v <<< 1) ||| (if flag p .c then 0x01#8 else 0)
  (r, setNZ r (setFlag p .c (v.getLsbD 7)))

/-- `ROR` (43 R213). -/
def rotateRight (v p : Byte) : Byte × Byte :=
  let r := (v >>> 1) ||| (if flag p .c then 0x80#8 else 0)
  (r, setNZ r (setFlag p .c (v.getLsbD 0)))

end Sys2Proof.Machine
end

