-- ==== Sys2Proof/Machine/Raster.lean ====
section
/-! DEFINITION. The Raster Timer (spec/10_state.md R54 to R58, spec/60_exceptions.md R440 to R447). -/

namespace Sys2Proof.Machine

open Sys2Proof

/-- The control/status byte as read (10 R55): `{row[8], ctrl_low}`. -/
def Raster.readControl (r : Raster) : Byte := r.row.extractLsb' 8 1 ++ r.ctrlLow

/-- The row byte as read (10 R56): `row[7:0]`. -/
def Raster.readRow (r : Raster) : Byte := r.row.extractLsb' 0 8

/-- The interrupt-flag byte as read (10 R57): `{irq, 0, 0, 0, 0, 0, 0, match}`. -/
def Raster.readFlag (r : Raster) : Byte := BitVec.ofBool r.irq ++ 0#6 ++ BitVec.ofBool r.matched

/-- A write of the control/status byte (10 R55). -/
def Raster.writeControl (v : Byte) (r : Raster) : Raster :=
  { r with cmp := v.extractLsb' 7 1 ++ r.cmp.extractLsb' 0 8, ctrlLow := v.extractLsb' 0 7 }

/-- A write of the row byte (10 R56): the compare row's low byte. -/
def Raster.writeRow (v : Byte) (r : Raster) : Raster :=
  { r with cmp := r.cmp.extractLsb' 8 1 ++ v }

/-- `Acknowledge(v)` (60 R443), what a write of the flag byte is. -/
def Raster.acknowledge (cfg : Config) (v : Byte) (r : Raster) : Raster :=
  if cfg.realHwMode && (!cfg.rasterAckNeedsOne || v.getLsbD 0) then
    { r with matched := false, irq := false }
  else r

/-- A write of the enable byte (10 R58). -/
def Raster.writeEnable (v : Byte) (r : Raster) : Raster := { r with enable := v }

/-- The next row (60 R441): `(row + 1 = ROWS_TOTAL) ? 0 : row + 1`. -/
def nextRow (rowsTotal : Nat) (row : BitVec 9) : BitVec 9 :=
  if row.toNat + 1 = rowsTotal then 0 else row + 1

/-- One pass of `RasterAdvance`'s loop after the subtraction (60 R441): the row moves on, and a match is
judged against `cmp` and `enable[0]` as they stand (R442). -/
def Raster.rowTick (rowsTotal : Nat) (r : Raster) : Raster :=
  let row := nextRow rowsTotal r.row
  if r.enable.getLsbD 0 && row == r.cmp then
    { r with row := row, matched := true, irq := true }
  else { r with row := row }

/-- `k` passes of the loop. -/
def Raster.rowTicks (rowsTotal : Nat) : Nat → Raster → Raster
  | 0, r => r
  | k + 1, r => Raster.rowTicks rowsTotal k (r.rowTick rowsTotal)

/-- `RasterAdvance(n)` (60 R441). The loop subtracts `CYCLES_PER_ROW` while `acc + n` reaches it: it runs
`(acc + n) / CYCLES_PER_ROW` times and leaves the remainder (`Obligations.RasterLoop`). -/
def Raster.advance (cfg : Config) (n : Nat) (r : Raster) : Raster :=
  { Raster.rowTicks cfg.rowsTotal ((r.acc + n) / cfg.cyclesPerRow) r with
    acc := (r.acc + n) % cfg.cyclesPerRow }

end Sys2Proof.Machine
end

