-- ==== Sys2Proof/Machine/SidRegisters.lean ====
section
/-! DEFINITION. The Sound-Chip Core's register surface (spec/10_state.md R39 to R49): reading and writing a
register offset, and the fields of the registers. Channel numbers are `Fin 3` (00 R10). -/

namespace Sys2Proof.Machine

open Sys2Proof

/-- The stored byte at an offset of channel `c`'s block (10 R39: offsets `7c .. 7c + 6`). -/
def Sid.chanReg (t : Sid) (c : Fin 3) (k : Fin 7) : Byte := t.regs[7 * c.val + k.val]

/-- `FREQ[c] = {FREQ_HI[c], FREQ_LO[c]}` (10 R40). -/
def Sid.freq (t : Sid) (c : Fin 3) : BitVec 16 := joinBytes (t.chanReg c 1) (t.chanReg c 0)

/-- `PW[c] = {PW_HI[c][3:0], PW_LO[c]}` (10 R41). -/
def Sid.pulseWidth (t : Sid) (c : Fin 3) : Wave := loNibble (t.chanReg c 3) ++ t.chanReg c 2

/-- `CONTROL[c]` (10 R42). -/
def Sid.control (t : Sid) (c : Fin 3) : Byte := t.chanReg c 4

/-- `CONTROL[c].GATE` (10 R42). -/
def Sid.gateBit (t : Sid) (c : Fin 3) : Bool := (t.control c).getLsbD 0

/-- `CONTROL[c].SYNC` (10 R42). -/
def Sid.syncBit (t : Sid) (c : Fin 3) : Bool := (t.control c).getLsbD 1

/-- `CONTROL[c].RING` (10 R42). -/
def Sid.ringBit (t : Sid) (c : Fin 3) : Bool := (t.control c).getLsbD 2

/-- `CONTROL[c].TEST` (10 R42). -/
def Sid.testBit (t : Sid) (c : Fin 3) : Bool := (t.control c).getLsbD 3

/-- `sel[c] = CONTROL[c][7:4]` (10 R42): triangle, sawtooth, pulse, noise from bit 0 up. -/
def Sid.selector (t : Sid) (c : Fin 3) : BitVec 4 := hiNibble (t.control c)

/-- `AD[c]` (10 R43). -/
def Sid.attackDecay (t : Sid) (c : Fin 3) : Byte := t.chanReg c 5

/-- `SR[c]` (10 R44). -/
def Sid.sustainRelease (t : Sid) (c : Fin 3) : Byte := t.chanReg c 6

/-- `sustain_level = SR[7:4] × 17` (10 R44): the nibble in both halves. -/
def Sid.sustainLevel (t : Sid) (c : Fin 3) : BitVec 8 :=
  hiNibble (t.sustainRelease c) ++ hiNibble (t.sustainRelease c)

/-- `CUTOFF = {CUTOFF_HI, CUTOFF_LO[2:0]}` (10 R45). -/
def Sid.cutoff (t : Sid) : BitVec 11 := t.regs[0x16] ++ t.regs[0x15].extractLsb' 0 3

/-- `RES_ROUTE[7:4]` (10 R46). -/
def Sid.resonance (t : Sid) : BitVec 4 := hiNibble t.regs[0x17]

/-- `RES_ROUTE[c]` (10 R46). -/
def Sid.routed (t : Sid) (c : Fin 3) : Bool := t.regs[0x17].getLsbD c.val

/-- `MODE_VOL` (10 R47). -/
def Sid.modeVol (t : Sid) : Byte := t.regs[0x18]

/-- `MODE_VOL[3:0]` (10 R47). -/
def Sid.volume (t : Sid) : BitVec 4 := loNibble t.modeVol

/-- `OSC3` (10 R48): `ch[2].wave_out[11:4]`. -/
def Sid.osc3 (t : Sid) : Byte := t.ch[2].waveOut.extractLsb' 4 8

/-- `ENV3` (10 R48). -/
def Sid.env3 (t : Sid) : Byte := t.ch[2].envLevel

/-- The byte a read of register offset `o` returns (10 R39, R48), or `none` where it is a draw (10 R49). -/
def Sid.read (t : Sid) (o : BitVec 5) : Option Byte :=
  if h : o.toNat < 25 then some t.regs[o.toNat]
  else if o = 0x1B then some t.osc3
  else if o = 0x1C then some t.env3
  else none

/-- A write of `v` at register offset `o`: a stored register takes the byte at once (10 R39); every other
offset ignores it (10 R48, R49). -/
def Sid.write (t : Sid) (o : BitVec 5) (v : Byte) : Sid :=
  if h : o.toNat < 25 then { t with regs := t.regs.set o.toNat v } else t

end Sys2Proof.Machine
end

