-- ==== Sys2Proof/Machine/Ops.lean ====
section
/-! DEFINITION. The named operations every instruction is written with: memory, the bus (spec/20_memory.md),
the stack (00 R8, 45 R264), taking an exception (60 R424 `Enter`, 45 R262) and returning from one (45 R263,
60 R430), and how a step ends. -/

namespace Sys2Proof.Machine

open Sys2Proof

/-! ## Memory -/

/-- What an address no entry lists reads as. DESIGN CHOICE, log 1 (spec/95: "all zero except the listed bytes"). -/
def Memory.unlisted : Byte := 0x00#8

/-- The byte at address `n` of a cell list. -/
def readCells (n : Nat) : List Host.Cell → Byte
  | [] => Memory.unlisted
  | (k, v) :: rest => if k = n then v else readCells n rest

/-- The cell list with `v` at address `n`; the value unlisted addresses read as is not listed. -/
def writeCells (n : Nat) (v : Byte) : List Host.Cell → List Host.Cell
  | [] => if v = Memory.unlisted then [] else [(n, v)]
  | (k, w) :: rest =>
    if n < k then (if v = Memory.unlisted then (k, w) :: rest else (n, v) :: (k, w) :: rest)
    else if n = k then (if v = Memory.unlisted then rest else (n, v) :: rest)
    else (k, w) :: writeCells n v rest

/-- The memory byte at an address. -/
def Memory.read (m : Memory) (addr : Addr) : Byte := readCells addr.toNat m.cells

/-- Memory with `v` at an address. -/
def Memory.write (m : Memory) (addr : Addr) (v : Byte) : Memory := ⟨writeCells addr.toNat v m.cells⟩

/-- Every listed address is at least `lo`, below 2^16, addresses rise strictly, and no listed byte is the
unlisted one. -/
def cellsFrom (lo : Nat) : List Host.Cell → Bool
  | [] => true
  | (k, v) :: rest => decide (lo ≤ k) && decide (k < 65536) && v != Memory.unlisted && cellsFrom (k + 1) rest

/-- The canonical form. -/
def Memory.wf (m : Memory) : Bool := cellsFrom 0 m.cells

/-! ## The address map -/

/-- What answers at a bus address (20 R80, R89). -/
inductive Target where
  | sid (offset : BitVec 5)
  | rasterControl
  | rasterRow
  | rasterFlag
  | rasterEnable
  | external
  | ram
deriving DecidableEq, Repr

/-- The address lies in an inclusive range. -/
def inWindow (addr : Addr) (w : Addr × Addr) : Bool :=
  decide (w.1.toNat ≤ addr.toNat) && decide (addr.toNat ≤ w.2.toNat)

/-- The sound-chip offset an address selects: a 32-byte window without mirrors (92 D18). DESIGN CHOICE, log 32: where
a configured `SID_BASE` takes `SID_BASE + o` past 0xFFFF the window goes on at 0x0000 (20 R89 states no reduction). -/
def BusMap.sidOffset (m : BusMap) (addr : Addr) : Option (BitVec 5) :=
  match m.sidBase with
  | none => none
  | some base => if (addr - base).toNat < 32 then some ((addr - base).setWidth 5) else none

/-- What answers at `addr`. Where the configured addresses overlap, the first in this order wins: sound chip,
control, row, flag, enable, external window (93 U21; log 15). -/
def BusMap.target (m : BusMap) (addr : Addr) : Target :=
  match BusMap.sidOffset m addr with
  | some o => .sid o
  | none =>
    if m.rasterControl = some addr then .rasterControl
    else if m.rasterRow = some addr then .rasterRow
    else if m.rasterFlag = some addr then .rasterFlag
    else if m.rasterEnable = some addr then .rasterEnable
    else if m.external.any (inWindow addr) then .external
    else .ram

/-- What answers at `addr` in a state. -/
def State.target (s : State) (addr : Addr) : Target := BusMap.target s.cfg.map addr

/-! ## The bus -/

/-- The byte known to stand at `addr`, or `none` where a read is a draw (10 R49) or the oracle's (20 R80). -/
def State.stored (s : State) (addr : Addr) : Option Byte :=
  match s.target addr with
  | .sid o => s.sid.read o
  | .rasterControl => some s.raster.readControl
  | .rasterRow => some s.raster.readRow
  | .rasterFlag => some s.raster.readFlag
  | .rasterEnable => some s.raster.enable
  | .external => none
  | .ram => some (s.mem.read addr)

/-- The byte a read returns where none is known: the bus oracle's at an external address (20 R80), else a draw
(10 R49). -/
def State.unknown (s : State) (addr : Addr) : Byte :=
  if s.target addr = .external then (Config.extRead s.ext addr).1 else Config.draw s.draws

/-- The byte a bus read of `addr` returns now. -/
def State.peek (s : State) (addr : Addr) : Byte := (s.stored addr).getD (s.unknown addr)

/-- `MemRead(addr, 1)` (00 R8, 20 R80): returns the byte and records the access; a draw is used up, and a read the
oracle answers takes it to its new state. Nothing else changes: no register of the core has a read side effect
(10 R39, 20 R85). -/
def busRead (addr : Addr) (s : State) : Byte × State :=
  (s.peek addr,
   { s with
     bus := s.bus ++ [.read addr (s.peek addr)]
     ext := if s.target addr = .external then (Config.extRead s.ext addr).2 else s.ext
     draws := if (s.stored addr).isNone && s.target addr != .external then s.draws + 1 else s.draws })

/-- The raster registers after a write. -/
def Raster.write (cfg : Config) (t : Target) (v : Byte) (r : Raster) : Raster :=
  match t with
  | .rasterControl => r.writeControl v
  | .rasterRow => r.writeRow v
  | .rasterFlag => r.acknowledge cfg v
  | .rasterEnable => r.writeEnable v
  | .sid _ => r
  | .external => r
  | .ram => r

/-- The sound-chip registers after a write. -/
def Sid.busWrite (t : Target) (v : Byte) (d : Sid) : Sid :=
  match t with
  | .sid o => d.write o v
  | .rasterControl => d
  | .rasterRow => d
  | .rasterFlag => d
  | .rasterEnable => d
  | .external => d
  | .ram => d

/-- `MemWrite(addr, 1, v)` (00 R8, 20 R80, R92): the byte reaches what answers at `addr` at once, and the
access is recorded. A device address does not reach the RAM beneath it (log 15); a write to an external address
takes the oracle to its new state and changes nothing in the core. -/
def busWrite (addr : Addr) (v : Byte) (s : State) : State :=
  { s with
    mem := if s.target addr = .ram then s.mem.write addr v else s.mem
    sid := s.sid.busWrite (s.target addr) v
    raster := s.raster.write s.cfg (s.target addr) v
    ext := if s.target addr = .external then Config.extWrite s.ext addr v else s.ext
    bus := s.bus ++ [.write addr v] }

/-- `Read16(addr)` (00 R8): the low byte first, then the high byte at the next address modulo 65536. -/
def read16 (addr : Addr) (s : State) : Addr × State :=
  let (lo, s) := busRead addr s
  let (hi, s) := busRead (addr + 1) s
  (joinBytes hi lo, s)

/-! ## The stack -/

/-- `STACK_BASE + SP` (20 R87). For a configured `STACK_BASE` above 0xFF00 the sum may exceed 0xFFFF, for which the
spec states no reduction: taking it modulo 65536, as every address here and in a pull, is a DESIGN CHOICE (log 30). -/
def State.stackAddr (s : State) : Addr := s.cfg.stackBase + zeroPage s.sp

/-- `Push(v)` (00 R8). -/
def push (v : Byte) (s : State) : State :=
  let s := busWrite s.stackAddr v s
  { s with sp := s.sp - 1 }

/-- `Pull()` (00 R8). -/
def pull (s : State) : Byte × State :=
  let s := { s with sp := s.sp + 1 }
  busRead s.stackAddr s

/-- The two pushes of a 16-bit address, high byte first (20 R81). -/
def pushAddr (v : Addr) (s : State) : State := push (loByte v) (push (hiByte v) s)

/-- The two pulls of a 16-bit address, low byte first. -/
def pullAddr (s : State) : Addr × State :=
  let (lo, s) := pull s
  let (hi, s) := pull s
  (joinBytes hi lo, s)

/-! ## Taking an exception and returning from one -/

/-- The entry sequence NMI, IRQ and BRK share (60 R424 `Enter`, R429; 45 R262): the return address is pushed,
high byte first, then the status byte; `P.I` becomes 1; `pc` is read from the vector. No other flag and no
other register changes. -/
def takeException (ret : Addr) (status : Byte) (vector : Addr) (s : State) : State :=
  let s := push status (pushAddr ret s)
  let s := { s with p := setFlag s.p .i true }
  let (target, s) := read16 vector s
  { s with pc := target }

/-- The return sequence (45 R263, 60 R430): the status byte, all eight bits, then `pc` low and high. -/
def returnFromException (s : State) : State :=
  let (status, s) := pull s
  let s := { s with p := status }
  let (target, s) := pullAddr s
  { s with pc := target }

/-! ## How a step ends -/

/-- The step consumed `n` cycles (00 R9). -/
def State.spend (n : Nat) (s : State) : State := { s with outcome := some (.cycles n) }

/-- `pc <- (PC0 + len) mod 65536` (10 R34) and the cycle count. -/
def State.finish (len : Nat) (n : Nat) (s : State) : State :=
  { s with pc := s.pc + BitVec.ofNat 16 len, outcome := some (.cycles n) }

/-- The next free byte, used up (93 U2: "a draw taken anew at each execution"). -/
def drawByte (s : State) : Byte × State := (Config.draw s.draws, { s with draws := s.draws + 1 })

/-! ## The configuration's domain -/

/-- The configuration is one the spec admits: `ROWS_TOTAL` in 1..512, `CYCLES_PER_ROW` and `ATTENUATION`
positive (93 U18, U20: any other is refused), and the two widths those the rules write their formulas for
(log 31). -/
def inDomain (cfg : Config) : Bool :=
  decide (cfg.phaseBits = 24) && decide (cfg.waveBits = 12) &&
  decide (1 ≤ cfg.rowsTotal) && decide (cfg.rowsTotal ≤ 512) && decide (1 ≤ cfg.cyclesPerRow) &&
    decide (1 ≤ cfg.attenuation)

/-- The two envelope tables have their lengths and ranges (48 R383, R384). The rules that read them are total
without it. -/
def tablesInDomain (cfg : Config) : Bool :=
  decide (cfg.ratePeriod.length = 16) && cfg.ratePeriod.all (fun k => decide (1 ≤ k) && decide (k ≤ 32767)) &&
    decide (cfg.expPeriod.length = 256) && cfg.expPeriod.all (fun k => decide (1 ≤ k) && decide (k ≤ 255))

end Sys2Proof.Machine
end

