-- ==== Sys2Proof/Machine/Operands.lean ====
section
/-! DEFINITION. The addressing-mode phase (spec/40_addressing_modes.md): effective addresses, page crossing,
access classes, cycle counts, and the four shapes an instruction with an operand has. -/

namespace Sys2Proof.Machine

open Sys2Proof

/-- How an instruction uses its memory operand (40 R154). -/
inductive Access where
  | read | write | rmw
deriving DecidableEq, Repr

/-- The base cycle count of a mode (40 R142 to R150). -/
def baseCycles : Mode → Nat
  | .imm => 2
  | .zp => 3
  | .zpx => 4
  | .zpy => 4
  | .abs => 4
  | .abx => 5
  | .aby => 5
  | .izx => 6
  | .izy => 6

/-- The modes that get the one-cycle reduction (40 R153 (a)). -/
def reducible : Mode → Bool
  | .imm => false
  | .zp => false
  | .zpx => false
  | .zpy => false
  | .abs => false
  | .abx => true
  | .aby => true
  | .izx => false
  | .izy => true

/-- The cycle count of an instruction with a memory operand (40 R153). -/
def cycleCount (cls : Access) (m : Mode) (crossed : Bool) : Nat :=
  match cls with
  | .read => if reducible m && !crossed then baseCycles m - 1 else baseCycles m
  | .write => baseCycles m
  | .rmw => baseCycles m + 2

/-- The instruction's length (40 R142 to R150). -/
def opLength (o : Operand) : Nat := 1 + o.mode.operandBytes

/-- What the addressing-mode phase computes (40 R140): the effective address, the page-crossed bit, and the
high byte of the unindexed address, which 46 R302 to R305 use. -/
structure Located where
  addr : Addr
  crossed : Bool
  baseHi : Byte
deriving DecidableEq, Repr

/-- An address without indexing. -/
def Located.plain (addr : Addr) : Located := { addr := addr, crossed := false, baseHi := hiByte addr }

/-- A base address indexed by a register (40 R147, R148, R150). -/
def Located.indexed (base : Addr) (index : Byte) : Located :=
  { addr := base + zeroPage index
    crossed := decide ((loByte base).toNat + index.toNat > 0xFF)
    baseHi := hiByte base }

/-- The 16-bit pointer in the zero page at `z`: low byte first, the high byte at `z + 1` modulo 256
(40 R149, R150). -/
def zeroPagePointer (z : Byte) (s : State) : Addr × State :=
  let (lo, s) := busRead (zeroPage z) s
  let (hi, s) := busRead (zeroPage (z + 1)) s
  (joinBytes hi lo, s)

/-- The addressing-mode phase (40 R142 to R150). The operand bytes have been fetched with the instruction
(log 16); the pointer bytes are read here. -/
def locate (o : Operand) (s : State) : Located × State :=
  match o with
  | .imm _ => (Located.plain (s.pc + 1), s)
  | .zp z => (Located.plain (zeroPage z), s)
  | .zpx z => (Located.plain (zeroPage (z + s.x)), s)
  | .zpy z => (Located.plain (zeroPage (z + s.y)), s)
  | .abs addr => (Located.plain addr, s)
  | .abx addr => (Located.indexed addr s.x, s)
  | .aby addr => (Located.indexed addr s.y, s)
  | .izx z =>
    let (ptr, s) := zeroPagePointer (z + s.x) s
    (Located.plain ptr, s)
  | .izy z =>
    let (ptr, s) := zeroPagePointer z s
    (Located.indexed ptr s.y, s)

/-- The operand of a read-class instruction: the byte, whether a page was crossed, the state after the reads. -/
structure Loaded where
  value : Byte
  crossed : Bool
  state : State

/-- `m = MemRead(ea, 1)` (40 R154). The immediate byte was read once, with the instruction (40 R142; log 16). -/
def load (o : Operand) (s : State) : Loaded :=
  match o with
  | .imm m => ⟨m, false, s⟩
  | o =>
    let (l, s) := locate o s
    let (v, s) := busRead l.addr s
    ⟨v, l.crossed, s⟩

/-- A read-class instruction: `effect` is applied to the operand and the state after it was read. -/
def readWith (o : Operand) (effect : Byte → State → State) (s : State) : State :=
  let l := load o s
  (effect l.value l.state).finish (opLength o) (cycleCount .read o.mode l.crossed)

/-- A write-class instruction: one write of `value` and no read of the target. -/
def storeWith (o : Operand) (value : State → Byte) (s : State) : State :=
  let (l, s) := locate o s
  (busWrite l.addr (value s) s).finish (opLength o) (cycleCount .write o.mode l.crossed)

/-- A read-modify-write instruction (20 R84): one read, one write of the same address. `alu` gives the byte to
write and the state with the registers it changes. -/
def rmwWith (o : Operand) (alu : Byte → State → Byte × State) (s : State) : State :=
  let (l, s) := locate o s
  let (m, s) := busRead l.addr s
  let (r, s) := alu m s
  (busWrite l.addr r s).finish (opLength o) (cycleCount .rmw o.mode l.crossed)

/-- A shift or rotate (43 R210 to R213): `f` takes the operand and `P` to the result and the new `P`. -/
def shiftWith (o : ShiftOperand) (f : Byte → Byte → Byte × Byte) (s : State) : State :=
  match o with
  | .acc => { s with a := (f s.a s.p).1, p := (f s.a s.p).2 }.finish 1 2
  | .mem o => rmwWith o (fun v s => ((f v s.p).1, { s with p := (f v s.p).2 })) s

/-- An implied instruction of two cycles (40 R141). -/
def implied (effect : State → State) (s : State) : State := (effect s).finish 1 2

/-- A conditional branch (44 R230, 40 R151). -/
def branch (taken : Bool) (d : Byte) (s : State) : State :=
  if taken then { s with pc := s.pc + 2 + signExtend d }.spend 3 else s.finish 2 2

/-- `A <- v`, `SetNZ(v)`. -/
def State.loadA (v : Byte) (s : State) : State := { s with a := v, p := setNZ v s.p }

/-- `X <- v`, `SetNZ(v)`. -/
def State.loadX (v : Byte) (s : State) : State := { s with x := v, p := setNZ v s.p }

/-- `Y <- v`, `SetNZ(v)`. -/
def State.loadY (v : Byte) (s : State) : State := { s with y := v, p := setNZ v s.p }

/-- The `ADC` operation on the machine (42 R193). -/
def State.addA (m : Byte) (s : State) : State :=
  { s with a := (adc s.cfg s.a m s.p).1, p := (adc s.cfg s.a m s.p).2 }

/-- The `SBC` operation on the machine (42 R194). -/
def State.subA (m : Byte) (s : State) : State :=
  { s with a := (sbc s.cfg s.a m s.p).1, p := (sbc s.cfg s.a m s.p).2 }

end Sys2Proof.Machine
end

