-- ==== Sys2Proof/Machine/Arithmetic.lean ====
section
/-! DEFINITION. Logic, arithmetic, compare and bit-test instructions (spec/42_logic_arithmetic.md). -/

namespace Sys2Proof.Machine

open Sys2Proof

/-- `ORA`, R190. -/
def execOra (o : Operand) (s : State) : Host.Outcome State Fault Refusal :=
  .next (readWith o (fun m s => s.loadA (s.a ||| m)) s)

/-- `AND`, R191. -/
def execAnd (o : Operand) (s : State) : Host.Outcome State Fault Refusal :=
  .next (readWith o (fun m s => s.loadA (s.a &&& m)) s)

/-- `EOR`, R192. -/
def execEor (o : Operand) (s : State) : Host.Outcome State Fault Refusal :=
  .next (readWith o (fun m s => s.loadA (s.a ^^^ m)) s)

/-- `ADC`, R193. -/
def execAdc (o : Operand) (s : State) : Host.Outcome State Fault Refusal := .next (readWith o State.addA s)

/-- `SBC`, R194. -/
def execSbc (o : Operand) (s : State) : Host.Outcome State Fault Refusal := .next (readWith o State.subA s)

/-- `CMP`, R195. -/
def execCmp (o : Operand) (s : State) : Host.Outcome State Fault Refusal :=
  .next (readWith o (fun m s => { s with p := compare s.a m s.p }) s)

/-- `CPX`, R196. -/
def execCpx (o : Operand) (s : State) : Host.Outcome State Fault Refusal :=
  .next (readWith o (fun m s => { s with p := compare s.x m s.p }) s)

/-- `CPY`, R197. -/
def execCpy (o : Operand) (s : State) : Host.Outcome State Fault Refusal :=
  .next (readWith o (fun m s => { s with p := compare s.y m s.p }) s)

/-- `BIT`, R198. -/
def execBit (o : Operand) (s : State) : Host.Outcome State Fault Refusal :=
  .next (readWith o (fun m s => { s with p := bitTest s.a m s.p }) s)

end Sys2Proof.Machine
end

