-- ==== Sys2Proof/Machine/BranchJump.lean ====
section
/-! DEFINITION. Branch, jump and subroutine instructions (spec/44_branch_jump.md), with the `RTS` sentinel
(45 R265). -/

namespace Sys2Proof.Machine

open Sys2Proof

/-- `BPL`, R231. -/
def execBpl (d : Byte) (s : State) : Host.Outcome State Fault Refusal := .next (branch (!flag s.p .n) d s)

/-- `BMI`, R232. -/
def execBmi (d : Byte) (s : State) : Host.Outcome State Fault Refusal := .next (branch (flag s.p .n) d s)

/-- `BVC`, R233. -/
def execBvc (d : Byte) (s : State) : Host.Outcome State Fault Refusal := .next (branch (!flag s.p .v) d s)

/-- `BVS`, R234. -/
def execBvs (d : Byte) (s : State) : Host.Outcome State Fault Refusal := .next (branch (flag s.p .v) d s)

/-- `BCC`, R235. -/
def execBcc (d : Byte) (s : State) : Host.Outcome State Fault Refusal := .next (branch (!flag s.p .c) d s)

/-- `BCS`, R236. -/
def execBcs (d : Byte) (s : State) : Host.Outcome State Fault Refusal := .next (branch (flag s.p .c) d s)

/-- `BNE`, R237. -/
def execBne (d : Byte) (s : State) : Host.Outcome State Fault Refusal := .next (branch (!flag s.p .z) d s)

/-- `BEQ`, R238. -/
def execBeq (d : Byte) (s : State) : Host.Outcome State Fault Refusal := .next (branch (flag s.p .z) d s)

/-- `JMP $nnnn`, R239: fixed count 3. -/
def execJmp (target : Addr) (s : State) : Host.Outcome State Fault Refusal :=
  .next ({ s with pc := target }.spend 3)

/-- The address of the pointer's high byte (40 R152): in the same page when `JMP_IND_PAGE_WRAP`. -/
def pointerHi (wrap : Bool) (ptr : Addr) : Addr :=
  if wrap then joinBytes (hiByte ptr) (loByte ptr + 1) else ptr + 1

/-- `JMP ($nnnn)`, R240: fixed count 5. -/
def execJmpInd (ptr : Addr) (s : State) : Host.Outcome State Fault Refusal :=
  let (lo, s) := busRead ptr s
  let (hi, s) := busRead (pointerHi s.cfg.jmpIndPageWrap ptr) s
  .next ({ s with pc := joinBytes hi lo }.spend 5)

/-- `JSR`, R241: the address of its own last byte is pushed; fixed count 6. -/
def execJsr (target : Addr) (s : State) : Host.Outcome State Fault Refusal :=
  let s := pushAddr (s.pc + 2) s
  .next ({ s with pc := target }.spend 6)

/-- `RTS`, R242, with the sentinel of R265: at `SP = SP_RESET` nothing is pulled and nothing changes. -/
def execRts (s : State) : Host.Outcome State Fault Refusal :=
  if s.sp = s.cfg.spReset then .next { s with outcome := some .subroutineDone }
  else
    let (ret, s) := pullAddr s
    .next ({ s with pc := ret + 1 }.spend 6)

end Sys2Proof.Machine
end

