-- ==== Sys2Proof/Machine/LoadStore.lean ====
section
/-! DEFINITION. Load, store and register-transfer instructions (spec/41_load_store_transfer.md). -/

namespace Sys2Proof.Machine

open Sys2Proof

/-- `LDA`, R170. -/
def execLda (o : Operand) (s : State) : Host.Outcome State Fault Refusal := .next (readWith o State.loadA s)

/-- `LDX`, R171. -/
def execLdx (o : Operand) (s : State) : Host.Outcome State Fault Refusal := .next (readWith o State.loadX s)

/-- `LDY`, R172. -/
def execLdy (o : Operand) (s : State) : Host.Outcome State Fault Refusal := .next (readWith o State.loadY s)

/-- `STA`, R173. -/
def execSta (o : Operand) (s : State) : Host.Outcome State Fault Refusal := .next (storeWith o State.a s)

/-- `STX`, R174. -/
def execStx (o : Operand) (s : State) : Host.Outcome State Fault Refusal := .next (storeWith o State.x s)

/-- `STY`, R175. -/
def execSty (o : Operand) (s : State) : Host.Outcome State Fault Refusal := .next (storeWith o State.y s)

/-- `TAX`, R176. -/
def execTax (s : State) : Host.Outcome State Fault Refusal := .next (implied (fun s => s.loadX s.a) s)

/-- `TAY`, R177. -/
def execTay (s : State) : Host.Outcome State Fault Refusal := .next (implied (fun s => s.loadY s.a) s)

/-- `TXA`, R178. -/
def execTxa (s : State) : Host.Outcome State Fault Refusal := .next (implied (fun s => s.loadA s.x) s)

/-- `TYA`, R179. -/
def execTya (s : State) : Host.Outcome State Fault Refusal := .next (implied (fun s => s.loadA s.y) s)

/-- `TSX`, R180. -/
def execTsx (s : State) : Host.Outcome State Fault Refusal := .next (implied (fun s => s.loadX s.sp) s)

/-- `TXS`, R181: no flag is written. -/
def execTxs (s : State) : Host.Outcome State Fault Refusal := .next (implied (fun s => { s with sp := s.x }) s)

end Sys2Proof.Machine
end

