-- ==== Sys2Proof/Machine/ShiftIncDec.lean ====
section
/-! DEFINITION. Shift, rotate, increment and decrement instructions (spec/43_shift_incdec.md). -/

namespace Sys2Proof.Machine

open Sys2Proof

/-- `ASL`, R210. -/
def execAsl (o : ShiftOperand) (s : State) : Host.Outcome State Fault Refusal := .next (shiftWith o shiftLeft s)

/-- `LSR`, R211. -/
def execLsr (o : ShiftOperand) (s : State) : Host.Outcome State Fault Refusal := .next (shiftWith o shiftRight s)

/-- `ROL`, R212. -/
def execRol (o : ShiftOperand) (s : State) : Host.Outcome State Fault Refusal := .next (shiftWith o rotateLeft s)

/-- `ROR`, R213. -/
def execRor (o : ShiftOperand) (s : State) : Host.Outcome State Fault Refusal := .next (shiftWith o rotateRight s)

/-- `INC`, R214. -/
def execInc (o : Operand) (s : State) : Host.Outcome State Fault Refusal :=
  .next (rmwWith o (fun m s => (m + 1, { s with p := setNZ (m + 1) s.p })) s)

/-- `DEC`, R215. -/
def execDec (o : Operand) (s : State) : Host.Outcome State Fault Refusal :=
  .next (rmwWith o (fun m s => (m - 1, { s with p := setNZ (m - 1) s.p })) s)

/-- `INX`, R216. -/
def execInx (s : State) : Host.Outcome State Fault Refusal := .next (implied (fun s => s.loadX (s.x + 1)) s)

/-- `INY`, R217. -/
def execIny (s : State) : Host.Outcome State Fault Refusal := .next (implied (fun s => s.loadY (s.y + 1)) s)

/-- `DEX`, R218. -/
def execDex (s : State) : Host.Outcome State Fault Refusal := .next (implied (fun s => s.loadX (s.x - 1)) s)

/-- `DEY`, R219. -/
def execDey (s : State) : Host.Outcome State Fault Refusal := .next (implied (fun s => s.loadY (s.y - 1)) s)

end Sys2Proof.Machine
end

