-- ==== Sys2Proof/Machine/StackSystem.lean ====
section
/-! DEFINITION. Stack, flag and system instructions (spec/45_stack_flag_system.md). -/

namespace Sys2Proof.Machine

open Sys2Proof

/-- `PHA`, R250. -/
def execPha (s : State) : Host.Outcome State Fault Refusal := .next ((push s.a s).finish 1 3)

/-- `PHP`, R251: all eight bits as stored. -/
def execPhp (s : State) : Host.Outcome State Fault Refusal := .next ((push s.p s).finish 1 3)

/-- `PLA`, R252. -/
def execPla (s : State) : Host.Outcome State Fault Refusal :=
  let (v, s) := pull s
  .next ((s.loadA v).finish 1 4)

/-- `PLP`, R253: all eight bits. -/
def execPlp (s : State) : Host.Outcome State Fault Refusal :=
  let (v, s) := pull s
  .next ({ s with p := v }.finish 1 4)

/-- `CLC`, R254. -/
def execClc (s : State) : Host.Outcome State Fault Refusal :=
  .next (implied (fun s => { s with p := setFlag s.p .c false }) s)

/-- `SEC`, R255. -/
def execSec (s : State) : Host.Outcome State Fault Refusal :=
  .next (implied (fun s => { s with p := setFlag s.p .c true }) s)

/-- `CLI`, R256. -/
def execCli (s : State) : Host.Outcome State Fault Refusal :=
  .next (implied (fun s => { s with p := setFlag s.p .i false }) s)

/-- `SEI`, R257. -/
def execSei (s : State) : Host.Outcome State Fault Refusal :=
  .next (implied (fun s => { s with p := setFlag s.p .i true }) s)

/-- `CLV`, R258. -/
def execClv (s : State) : Host.Outcome State Fault Refusal :=
  .next (implied (fun s => { s with p := setFlag s.p .v false }) s)

/-- `CLD`, R259. -/
def execCld (s : State) : Host.Outcome State Fault Refusal :=
  .next (implied (fun s => { s with p := setFlag s.p .d false }) s)

/-- `SED`, R260. -/
def execSed (s : State) : Host.Outcome State Fault Refusal :=
  .next (implied (fun s => { s with p := setFlag s.p .d true }) s)

/-- `NOP`, R261. -/
def execNop (s : State) : Host.Outcome State Fault Refusal := .next (implied id s)

/-- `BRK`, R262: the return address is `PC0 + 2`; the pushed status has B set and the live B stays; the padding
byte is not read; 7 cycles. -/
def execBrk (s : State) : Host.Outcome State Fault Refusal :=
  .next ((takeException (s.pc + 2) (s.p ||| 0x10#8) s.cfg.irqVector s).spend 7)

/-- `RTI`, R263, with the sentinel of R266: at `SP = SP_RESET` nothing is pulled and nothing changes. -/
def execRti (s : State) : Host.Outcome State Fault Refusal :=
  if s.sp = s.cfg.spReset then .next { s with outcome := some .idle }
  else .next ((returnFromException s).spend 6)

end Sys2Proof.Machine
end

