-- ==== Sys2Proof/Machine/Undocumented.lean ====
section
/-! DEFINITION. The undocumented opcodes (spec/46_undocumented.md). `code` arguments say which row of the table
the word was; the rows of one rule behave alike. -/

namespace Sys2Proof.Machine

open Sys2Proof

/-- `JAM`, R280: `jammed <- 1`, nothing else changes (`pc` stays at `PC0`), outcome `Jammed`. -/
def execJam (_code : Byte) (s : State) : Host.Outcome State Fault Refusal :=
  .next { s with jammed := true, outcome := some .jammed }

/-- `SLO`, R282. -/
def execSlo (o : Operand) (s : State) : Host.Outcome State Fault Refusal :=
  .next (rmwWith o (fun m s =>
    (m <<< 1, { s with p := setFlag s.p .c (m.getLsbD 7) }.loadA (s.a ||| m <<< 1))) s)

/-- `RLA`, R283. -/
def execRla (o : Operand) (s : State) : Host.Outcome State Fault Refusal :=
  .next (rmwWith o (fun m s =>
    let r := (rotateLeft m s.p).1
    (r, { s with p := setFlag s.p .c (m.getLsbD 7) }.loadA (s.a &&& r))) s)

/-- `SRE`, R284. -/
def execSre (o : Operand) (s : State) : Host.Outcome State Fault Refusal :=
  .next (rmwWith o (fun m s =>
    (m >>> 1, { s with p := setFlag s.p .c (m.getLsbD 0) }.loadA (s.a ^^^ m >>> 1))) s)

/-- `RRA`, R285: the carry shifted out of memory is the carry added in. -/
def execRra (o : Operand) (s : State) : Host.Outcome State Fault Refusal :=
  .next (rmwWith o (fun m s =>
    let r := (rotateRight m s.p).1
    (r, { s with p := setFlag s.p .c (m.getLsbD 0) }.addA r)) s)

/-- `DCP`, R286. -/
def execDcp (o : Operand) (s : State) : Host.Outcome State Fault Refusal :=
  .next (rmwWith o (fun m s => (m - 1, { s with p := compare s.a (m - 1) s.p })) s)

/-- `ISC`, R287. -/
def execIsc (o : Operand) (s : State) : Host.Outcome State Fault Refusal :=
  .next (rmwWith o (fun m s => (m + 1, s.subA (m + 1))) s)

/-- `SAX`, R288. -/
def execSax (o : Operand) (s : State) : Host.Outcome State Fault Refusal :=
  .next (storeWith o (fun s => s.a &&& s.x) s)

/-- `LAX`, R289. -/
def execLax (o : Operand) (s : State) : Host.Outcome State Fault Refusal :=
  .next (readWith o (fun m s => { s with x := m }.loadA m) s)

/-- `ANC`, R290: `C <- A[7]` of the new A. -/
def execAnc (_code : Byte) (m : Byte) (s : State) : Host.Outcome State Fault Refusal :=
  .next (readWith (.imm m) (fun m s =>
    let s := s.loadA (s.a &&& m)
    { s with p := setFlag s.p .c s.a.msb }) s)

/-- `ALR`, R291. -/
def execAlr (m : Byte) (s : State) : Host.Outcome State Fault Refusal :=
  .next (readWith (.imm m) (fun m s =>
    { s with a := (shiftRight (s.a &&& m) s.p).1, p := (shiftRight (s.a &&& m) s.p).2 }) s)

/-- `ARR`, R292, in binary mode; refused in decimal mode. -/
def execArr (m : Byte) (s : State) : Host.Outcome State Fault Refusal :=
  if flag s.p .d then .refused .arrDecimal
  else
    .next (readWith (.imm m) (fun m s =>
      let r := (rotateRight (s.a &&& m) s.p).1
      let s := s.loadA r
      { s with p := setFlag (setFlag s.p .c (r.getLsbD 6)) .v (r.getLsbD 6 != r.getLsbD 5) }) s)

/-- `SBX`, R293. -/
def execSbx (m : Byte) (s : State) : Host.Outcome State Fault Refusal :=
  .next (readWith (.imm m) (fun m s =>
    { s with p := setFlag s.p .c (decide ((s.a &&& s.x).toNat ≥ m.toNat)) }.loadX ((s.a &&& s.x) - m)) s)

/-- `SBC #$nn`, opcode 0xEB, R294: exactly `SBC` in immediate mode. -/
def execSbcEB (m : Byte) (s : State) : Host.Outcome State Fault Refusal :=
  .next (readWith (.imm m) State.subA s)

/-- `LAS`, R295. -/
def execLas (addr : Addr) (s : State) : Host.Outcome State Fault Refusal :=
  .next (readWith (.aby addr) (fun m s =>
    { s with x := m &&& s.sp, sp := m &&& s.sp }.loadA (m &&& s.sp)) s)

/-- Undocumented implied `NOP`, R296. -/
def execNopImplied (_code : Byte) (s : State) : Host.Outcome State Fault Refusal := .next (implied id s)

/-- `NOP #$nn`, R297: the operand byte was read with the instruction and is discarded. -/
def execNopImm (_code : Byte) (m : Byte) (s : State) : Host.Outcome State Fault Refusal :=
  .next (readWith (.imm m) (fun _ s => s) s)

/-- `NOP` with a memory operand, R298: the operand is read once and discarded. -/
def execNopMem (_code : Byte) (o : Operand) (s : State) : Host.Outcome State Fault Refusal :=
  .next (readWith o (fun _ s => s) s)

/-! ## The unstable opcodes (R299 to R305): refused unless `UNSTABLE_ADMITTED` -/

/-- `ANE`, R300: `MAGIC` is a free value. -/
def execAne (m : Byte) (s : State) : Host.Outcome State Fault Refusal :=
  if s.cfg.unstableAdmitted then
    .next (readWith (.imm m) (fun m s =>
      let (magic, s) := drawByte s
      s.loadA ((s.a ||| magic) &&& s.x &&& m)) s)
  else .refused (.unstableOpcode "ANE")

/-- `LXA`, R301: `MAGIC` is a free value. -/
def execLxa (m : Byte) (s : State) : Host.Outcome State Fault Refusal :=
  if s.cfg.unstableAdmitted then
    .next (readWith (.imm m) (fun m s =>
      let (magic, s) := drawByte s
      let v := (s.a ||| magic) &&& m
      { s with x := v }.loadA v) s)
  else .refused (.unstableOpcode "LXA")

/-- The store the unstable write-class opcodes share (R302 to R305): `v = reg & (H + 1)`, and a crossed page
puts `v` in the address's high byte. `reg` sees the state after the pointer reads. -/
def unstableStore (o : Operand) (reg : State → Byte) (s : State) : State :=
  let (l, s) := locate o s
  let v := reg s &&& (l.baseHi + 1)
  let addr := if l.crossed then joinBytes v (loByte l.addr) else l.addr
  (busWrite addr v s).finish (opLength o) (cycleCount .write o.mode l.crossed)

/-- `SHA`, R302. -/
def execSha (o : Operand) (s : State) : Host.Outcome State Fault Refusal :=
  if s.cfg.unstableAdmitted then .next (unstableStore o (fun s => s.a &&& s.x) s)
  else .refused (.unstableOpcode "SHA")

/-- `SHX`, R303. -/
def execShx (addr : Addr) (s : State) : Host.Outcome State Fault Refusal :=
  if s.cfg.unstableAdmitted then .next (unstableStore (.aby addr) State.x s)
  else .refused (.unstableOpcode "SHX")

/-- `SHY`, R304. -/
def execShy (addr : Addr) (s : State) : Host.Outcome State Fault Refusal :=
  if s.cfg.unstableAdmitted then .next (unstableStore (.abx addr) State.y s)
  else .refused (.unstableOpcode "SHY")

/-- `TAS`, R305: `SP <- A & X` first. -/
def execTas (addr : Addr) (s : State) : Host.Outcome State Fault Refusal :=
  if s.cfg.unstableAdmitted then
    .next (unstableStore (.aby addr) State.sp { s with sp := s.a &&& s.x })
  else .refused (.unstableOpcode "TAS")

end Sys2Proof.Machine
end

