-- ==== Sys2Proof/Machine/Interrupts.lean ====
section
/-! DEFINITION. The interrupt-service entry point (spec/60_exceptions.md R424 to R434). -/

namespace Sys2Proof.Machine

open Sys2Proof

/-- `irq_line = raster.irq OR ext_irq` (10 R36, 60 R444). -/
def State.irqLine (s : State) : Bool := s.raster.irq || s.extIrq

/-- An NMI is requested: the level rose above the last-seen one (60 R425). -/
def State.nmiRequested (s : State) : Bool := decide (s.nmiLevel > s.prevNmi)

/-- The maskable interrupt would be taken (60 R426). -/
def State.irqRequested (s : State) : Bool := s.irqLine && !flag s.p .i

/-- The status byte an interrupt entry pushes (60 R429): `P` as stored, unless `IRQ_PUSH_I_FORCED`. -/
def State.entryStatus (s : State) : Byte := if s.cfg.irqPushIForced then s.p ||| 0x04#8 else s.p

/-- `Enter(vector)` (60 R424): the pending instruction's address is pushed. -/
def enterInterrupt (vector : Addr) (s : State) : State := takeException s.pc s.entryStatus vector s

/-- `ServiceInterrupts(nmi_level, irq_line)` (60 R424): NMI first, else IRQ, else nothing; the latch follows the
level in every case; a jammed processor does nothing (R434). `taken` is what it returns. -/
def serviceInterrupts (s : State) : State :=
  if s.jammed then { s with taken := false }
  else if s.nmiRequested then
    { enterInterrupt s.cfg.nmiVector s with taken := true, prevNmi := s.nmiLevel }
  else if s.irqRequested then
    { enterInterrupt s.cfg.irqVector s with taken := true, prevNmi := s.nmiLevel }
  else { s with taken := false, prevNmi := s.nmiLevel }

end Sys2Proof.Machine
end

