-- ==== Sys2Proof/Machine/SidEnvelope.lean ====
section
/-! DEFINITION. The envelope generator of a channel (spec/48_sid_envelope.md R370 to R384). -/

namespace Sys2Proof.Machine

open Sys2Proof

/-- `RisingGate(c)` (48 R372). -/
def risingGate (cfg : Config) (ch : Channel) : Channel :=
  { ch with
    gate := true, attack := true, decaySustain := true, holdZero := false
    envLevel := if cfg.envZeroOnGate then 0 else ch.envLevel }

/-- `FallingGate(c)` (48 R373). -/
def fallingGate (ch : Channel) : Channel := { ch with gate := false, attack := false, decaySustain := false }

/-- The gate edge seen by a step (48 R371): at most one. -/
def gateEdge (cfg : Config) (g : Bool) (ch : Channel) : Channel :=
  if g && !ch.gate then risingGate cfg ch
  else if !g && ch.gate then fallingGate ch
  else ch

/-- An entry of `RatePeriod` (48 R383); the index is four bits and the table has sixteen entries (`tablesInDomain`). -/
def ratePeriodAt (cfg : Config) (i : BitVec 4) : Nat := cfg.ratePeriod.getD i.toNat 1

/-- An entry of `ExpPeriod` (48 R384); the index is eight bits and the table has 256 entries (`tablesInDomain`). -/
def expPeriodAt (cfg : Config) (level : BitVec 8) : Nat := cfg.expPeriod.getD level.toNat 1

/-- `SelectPeriod(c)` (48 R374). -/
def selectPeriod (cfg : Config) (t : Sid) (c : Fin 3) (ch : Channel) : Nat :=
  if ch.attack then ratePeriodAt cfg (hiNibble (t.attackDecay c))
  else if ch.decaySustain then ratePeriodAt cfg (loNibble (t.attackDecay c))
  else ratePeriodAt cfg (loNibble (t.sustainRelease c))

/-- `LevelUp(c)` (48 R378). -/
def levelUp (ch : Channel) : Channel :=
  if ch.holdZero then ch
  else { ch with envLevel := ch.envLevel + 1, attack := if ch.envLevel + 1 = 255#8 then false else ch.attack }

/-- `LevelDown(c)` (48 R379, R380). -/
def levelDown (sustain : BitVec 8) (ch : Channel) : Channel :=
  if ch.holdZero then ch
  else if ch.decaySustain && ch.envLevel == sustain then ch
  else { ch with envLevel := ch.envLevel - 1, holdZero := ch.envLevel - 1 == 0 }

/-- `Tick(c)` (48 R377). -/
def tick (cfg : Config) (sustain : BitVec 8) (ch : Channel) : Channel :=
  if ch.attack then levelUp { ch with expCounter := 0 }
  else if (ch.expCounter + 1).toNat ≥ expPeriodAt cfg ch.envLevel then
    levelDown sustain { ch with expCounter := 0 }
  else { ch with expCounter := ch.expCounter + 1 }

/-- The advanced rate counter (48 R371, R375): `rate_counter + n`, less 32768 if that reaches 32768. -/
def advanceRate (rc : BitVec 15) (n : Nat) : Nat :=
  if rc.toNat + n ≥ 32768 then rc.toNat + n - 32768 else rc.toNat + n

/-- `EnvStep(c, n)` (48 R371). An advance of 0 cycles changes nothing (47 R345, 93 U23; log 29). A counter value of
32768 or more, possible only for `n > 32768`, is stored modulo 32768 (R375; log 21). -/
def envStep (cfg : Config) (t : Sid) (c : Fin 3) (n : Nat) (ch : Channel) : Channel :=
  if n = 0 then ch
  else
    let ch := gateEdge cfg (t.gateBit c) ch
    let period := selectPeriod cfg t c ch
    let rc := advanceRate ch.rateCounter n
    if period ≤ rc ∧ rc < period + n then
      tick cfg (t.sustainLevel c) { ch with rateCounter := BitVec.ofNat 15 (rc - period) }
    else { ch with rateCounter := BitVec.ofNat 15 rc }

end Sys2Proof.Machine
end

