-- ==== Sys2Proof/Machine/SidOscillator.lean ====
section
/-! DEFINITION. The oscillator of a channel (spec/47_sid_oscillator.md R332 to R342). -/

namespace Sys2Proof.Machine

open Sys2Proof

/-- The two bits one channel's oscillator step leaves to the next channel's (47 R342). -/
structure Carried where
  syncRise : Bool
  ringMsb : Bool
deriving DecidableEq, Repr

/-- Bit 23 of a phase. -/
def phaseMsb (ph : Phase) : Bool := ph.getLsbD 23

/-- The phase after `n` cycles (47 R332) and after hard sync (47 R333). -/
def advancePhase (test sync : Bool) (freq : BitVec 16) (n : Nat) (syncRise : Bool) (phase : Phase) : Phase :=
  if sync && syncRise then 0
  else if test then 0
  else phase + BitVec.ofNat 24 (freq.toNat * n)

/-- One clock of the noise register (47 R334): shift left, bits 22 and 17 XORed into bit 0. -/
def clockNoise (l : Lfsr) : Lfsr :=
  (l <<< 1) ||| (if l.getLsbD 22 != l.getLsbD 17 then 1#23 else 0)

/-- The noise register after an advance (47 R334). -/
def advanceNoise (test : Bool) (clkBit : Fin 24) (prevPhase phase : Phase) (l : Lfsr) : Lfsr :=
  if test then 0x7FFFFF#23
  else if phase.getLsbD clkBit.val != prevPhase.getLsbD clkBit.val then clockNoise l
  else l

/-- The noise sample (47 R339). -/
def noiseWave (l : Lfsr) : Wave :=
  l.extractLsb' 20 1 ++ l.extractLsb' 18 1 ++ l.extractLsb' 14 1 ++ l.extractLsb' 11 1 ++
    l.extractLsb' 9 1 ++ l.extractLsb' 5 1 ++ l.extractLsb' 2 1 ++ l.extractLsb' 0 1 ++ 0#4

/-- The sawtooth sample (47 R338): `phase[23:12]`. -/
def sawWave (ph : Phase) : Wave := ph.extractLsb' 12 12

/-- The triangle sample (47 R336): `phase[22:11]`, inverted while the ring-modified MSB is 1. -/
def triangleWave (ring ringMsb : Bool) (ph : Phase) : Wave :=
  if phaseMsb ph != (ring && ringMsb) then (~~~ph).extractLsb' 11 12 else ph.extractLsb' 11 12

/-- The pulse sample (47 R337). -/
def pulseWave (pw : Wave) (ph : Phase) : Wave :=
  if (sawWave ph).toNat ≥ pw.toNat then 0xFFF#12 else 0x000#12

/-- The new `wave_out` (47 R340): held when no waveform is selected, one of the four waveforms when exactly one
is, `Combined` (R341) otherwise. -/
def selectWave (model : ChipModel) (sel : BitVec 4) (tri saw pul noi held : Wave) : Wave :=
  if sel = 0b0000 then held
  else if sel = 0b0001 then tri
  else if sel = 0b0010 then saw
  else if sel = 0b0100 then pul
  else if sel = 0b1000 then noi
  else Config.combined model sel tri saw pul noi

/-- The first three parts of `OscStep(c, n)` (47 R332 to R334): the previous phase, the phase, the noise register.
An advance of 0 cycles leaves them as they are (47 R345, 93 U23; log 29). -/
def oscMove (cfg : Config) (t : Sid) (c : Fin 3) (n : Nat) (syncRise : Bool) (ch : Channel) : Channel :=
  if n = 0 then ch
  else
    let phase := advancePhase (t.testBit c) (t.syncBit c) (t.freq c) n syncRise ch.phase
    { ch with
      prevPhase := ch.phase
      phase := phase
      lfsr := advanceNoise (t.testBit c) cfg.noiseClkBit ch.phase phase ch.lfsr }

/-- The sample of a channel that has moved (47 R335 to R341). -/
def oscWave (cfg : Config) (t : Sid) (c : Fin 3) (ringMsb : Bool) (ch : Channel) : Wave :=
  selectWave cfg.chipModel (t.selector c) (triangleWave (t.ringBit c) ringMsb ch.phase) (sawWave ch.phase)
    (pulseWave (t.pulseWidth c) ch.phase) (noiseWave ch.lfsr) ch.waveOut

/-- `OscStep(c, n)` (47 R332 to R342): the channel and the two carried bits afterwards. At 0 cycles no MSB rose and
the bit of the last advance stands (log 29). -/
def oscStep (cfg : Config) (t : Sid) (c : Fin 3) (n : Nat) (k : Carried) (ch : Channel) : Channel × Carried :=
  let moved := oscMove cfg t c n k.syncRise ch
  ({ moved with waveOut := oscWave cfg t c k.ringMsb moved },
   { syncRise := if n = 0 then k.syncRise else !phaseMsb ch.phase && phaseMsb moved.phase
     ringMsb := phaseMsb moved.phase })

end Sys2Proof.Machine
end

