-- ==== Sys2Proof/Machine/SidMixer.lean ====
section
/-! DEFINITION. Routing, `SidAdvance` and the output stage (spec/49_sid_filter_mixer.md R390 to R405,
spec/47_sid_oscillator.md R331). Numbers of type `Q` are rationals (49 R390; log 10). -/

namespace Sys2Proof.Machine

open Sys2Proof

/-- `sample(c)` (49 R391). -/
def channelSample (ch : Channel) : Int := ((ch.waveOut.toNat : Int) - 2048) * (ch.envLevel.toNat : Int)

/-- `Route(c, filt_in, direct)` (49 R392): the pair with the channel's sample added. -/
def route (t : Sid) (c : Fin 3) (ch : Channel) (sums : Int × Int) : Int × Int :=
  if t.routed c then (sums.1 + channelSample ch, sums.2)
  else if c == 2 && t.modeVol.getLsbD 7 then sums
  else (sums.1, sums.2 + channelSample ch)

/-- One channel's part of `SidAdvance(n)` (47 R331): envelope, oscillator, routing. -/
def advanceChannel (cfg : Config) (n : Nat) (c : Fin 3) (acc : Sid × (Int × Int)) : Sid × (Int × Int) :=
  let t := acc.1
  let ch := envStep cfg t c n t.ch[c]
  let (ch, k) := oscStep cfg t c n ⟨t.syncRise, t.ringMsb⟩ ch
  ({ t with ch := t.ch.set c ch, syncRise := k.syncRise, ringMsb := k.ringMsb }, route t c ch acc.2)

/-- `SidAdvance(n)` (47 R331): channels 0, 1, 2 in this order; the pair is what it returns. -/
def sidAdvance (cfg : Config) (n : Nat) (t : Sid) : Sid × (Int × Int) :=
  advanceChannel cfg n 2 (advanceChannel cfg n 1 (advanceChannel cfg n 0 (t, (0, 0))))

/-- `CutoffCoef` (49 R394). -/
def cutoffCoef (m : ChipModel) (cutoff : BitVec 11) (lp bp : Rat) : Rat :=
  match m with
  | .modelA => Config.cutoffCoefA cutoff lp bp
  | .modelB => Config.cutoffCoefB cutoff

/-- The default `FilterStep` (49 R398): new low-pass, new band-pass, high-pass. -/
def filterStepStandard (lp bp : Rat) (x : Int) (cut res : Rat) : Rat × Rat × Rat :=
  let hp := (x : Rat) - lp - res * bp
  let bp' := bp + cut * hp
  (lp + cut * bp', bp', hp)

/-- The configured `FilterStep` (00 R5). -/
def filterStep (cfg : Config) (lp bp : Rat) (x : Int) (cut res : Rat) : Rat × Rat × Rat :=
  match cfg.filter with
  | .standard => filterStepStandard lp bp x cut res
  | .other => Config.otherFilterStep lp bp x cut res

/-- The value of `q` or the nearer end of 0..1. -/
def clampUnit (q : Rat) : Rat := if q < 0 then 0 else if 1 < q then 1 else q

/-- `VolSmooth(v, raw)` (49 R401): some step from the old state towards the raw value, never past it; a constant
value is a fixed point. How far it steps is unknown (log 9). -/
def volSmoothStep (v : Rat) (raw : BitVec 4) : Rat :=
  v + clampUnit (Config.volSmoothFactor v raw) * ((raw.toNat : Rat) - v)

/-- `Quantise` (49 R402): the default truncates toward zero. -/
def quantise (cfg : Config) (q : Rat) : Int :=
  match cfg.quantise with
  | .standard => q.num.tdiv q.den
  | .other => Config.otherQuantise q

/-- A tap's contribution (49 R397): the value if its bit is set. -/
def tap (on : Bool) (v : Rat) : Rat := if on then v else 0

/-- `filt_out` (49 R397, R400): low-pass and band-pass added, high-pass subtracted. -/
def filterOut (modeVol : Byte) (lp bp hp : Rat) : Rat :=
  tap (modeVol.getLsbD 4) lp + tap (modeVol.getLsbD 5) bp - tap (modeVol.getLsbD 6) hp

/-- The mixed value before attenuation (49 R400): DC part as gain, AC part added on its own. -/
def mixOut (main vs : Rat) (raw : BitVec 4) : Rat := main * vs + ((raw.toNat : Rat) - vs) * Config.digiGain

/-- `SidOutput(filt_in, direct)` (49 R400): the sound chip afterwards and the sample. -/
def sidOutput (cfg : Config) (sums : Int × Int) (t : Sid) : Sid × Int :=
  let cut := cutoffCoef cfg.chipModel t.cutoff t.lp t.bp
  let res := Config.resonanceCoef cfg.chipModel t.resonance
  let f := filterStep cfg t.lp t.bp sums.1 cut res
  let main := (sums.2 : Rat) + filterOut t.modeVol f.1 f.2.1 f.2.2
  let vs := volSmoothStep t.volSmooth t.volume
  ({ t with lp := f.1, bp := f.2.1, volSmooth := vs },
   quantise cfg (mixOut main vs t.volume / (cfg.attenuation : Rat)))

end Sys2Proof.Machine
end

