-- ==== Sys2Proof/Machine/Round.lean ====
section
/-! DEFINITION. The parts of the reference schedule `Round` (spec/60_exceptions.md R452): the host's events, the
fetch, one instruction, the devices' advance. -/

namespace Sys2Proof.Machine

open Sys2Proof

/-- The host calls `SidOutput` (49 R400, R405), on a pair it formed or on the last `SidAdvance`'s; the sample is
reported. -/
def output (formed : Option (Int × Int)) (s : State) : State :=
  { s with
    sid := (sidOutput s.cfg (formed.getD s.sums) s.sid).1
    samples := s.samples ++ [(sidOutput s.cfg (formed.getD s.sums) s.sid).2] }

/-- One call after another. -/
def outputs : List (Option (Int × Int)) → State → State
  | [], s => s
  | r :: rs, s => outputs rs (output r s)

/-- The samples the host asked for, in the order it asked (49 R405; log 12: one output per request, each on the pair
of the `SidAdvance` just made or on the one the request brings). -/
def takeSamples (s : State) : State := { outputs s.requests s with requests := [] }

/-- `n` cycles pass on the devices (60 R452): `RasterAdvance(n)`, `SidAdvance(n)`, whose pair is reported, and the
samples that are due. -/
def passTime (n : Nat) (s : State) : State :=
  takeSamples { s with
    raster := s.raster.advance s.cfg n
    sid := (sidAdvance s.cfg n s.sid).1
    sums := (sidAdvance s.cfg n s.sid).2
    pairs := s.pairs ++ [(sidAdvance s.cfg n s.sid).2] }

/-- One host event (log 11). -/
def hostEvent (e : HostEvent) (s : State) : State :=
  match e with
  | .nmiLevel n => { s with nmiLevel := n }
  | .extIrq b => { s with extIrq := b }
  | .setRegs pc a x y => { s with pc := pc, a := a, x := x, y := y }
  | .load addr v => { s with mem := s.mem.write addr v }
  | .reset cfg entry => s.hostReset cfg entry
  | .sample formed => { s with requests := s.requests ++ [formed] }
  | .output formed => output formed s
  | .external e => { s with ext := e }
  | .advance n => passTime n s

/-- The host events of a round, in order. -/
def hostEvents : List HostEvent → State → State
  | [], s => s
  | e :: es, s => hostEvents es (hostEvent e s)

/-- The start of a round: the report of the last one is cleared and the host's events for this round happen. -/
def beginRound (s : State) : State :=
  hostEvents s.pending.headI
    { s with pending := s.pending.tail, bus := [], taken := false, pairs := [], samples := [] }

/-- The instruction at `pc` and the state after its bytes were read, opcode first, then the operand bytes in
ascending address order modulo 65536 (20 R82; 30 R110). `pc` still is `PC0`. -/
def fetch (s : State) : Instr × State :=
  let (op, s) := busRead s.pc s
  match (template op).operandBytes with
  | 0 => ((template op).fill 0 0, s)
  | 1 =>
    let (b1, s) := busRead (s.pc + 1) s
    ((template op).fill b1 0, s)
  | _ =>
    let (b1, s) := busRead (s.pc + 1) s
    let (b2, s) := busRead (s.pc + 2) s
    ((template op).fill b1 b2, s)

/-- `Step()` (30 R110) of a processor that is not jammed. -/
def runInstruction (s : State) : Host.Outcome State Fault Refusal := exec (fetch s).1 (fetch s).2

/-- The devices after an instruction (60 R452): the time of the outcome `Cycles(n)` passes; none passes for any
other outcome. -/
def advanceDevices (s : State) : State :=
  match s.outcome with
  | some (.cycles n) => passTime n s
  | _ => s

/-- The rest of a round once the host's events have happened. -/
def serviceAndRun (s : State) : Host.Outcome State Fault Refusal :=
  let s := serviceInterrupts s
  if s.jammed then .next { s with outcome := some .jammed }
  else
    match runInstruction s with
    | .next t => .next (advanceDevices t)
    | .fault r => .fault r
    | .refused r => .refused r

/-- A host event brings no configuration outside its domain. -/
def HostEvent.admitted : HostEvent → Bool
  | .reset cfg _ => inDomain cfg
  | .nmiLevel _ => true
  | .extIrq _ => true
  | .setRegs _ _ _ _ => true
  | .load _ _ => true
  | .sample _ => true
  | .output _ => true
  | .external _ => true
  | .advance _ => true

/-- Every configuration of the coming round is in its domain: the one that stands and those its resets bring. -/
def State.roundInDomain (s : State) : Bool := inDomain s.cfg && s.pending.headI.all HostEvent.admitted

/-- `Round` (60 R452). A configuration outside its domain is refused (93 U18, U20), before any event. -/
def round (s : State) : Host.Outcome State Fault Refusal :=
  if s.roundInDomain then serviceAndRun (beginRound s) else .refused .configOutOfDomain

end Sys2Proof.Machine
end

