-- ==== Sys2Proof/Machine/Step.lean ====
section
/-! DEFINITION. One step of the machine is one `Round` of the reference schedule (spec/60_exceptions.md R452:
"The schedule this spec takes as the machine's top-level step"). -/

namespace Sys2Proof.Machine

open Sys2Proof

/-- One round: host events, interrupt service, one instruction, the devices. -/
def step (s : State) : Host.Outcome State Fault Refusal := round s

/-- Memory with the bytes of a list from `addr` upward, modulo 65536. -/
def storeBytes (addr : Addr) : List Byte → Memory → Memory
  | [], m => m
  | b :: bs, m => storeBytes (addr + 1) bs (m.write addr b)

/-- The three bytes from `pc` are RAM in the state's address map. -/
def State.fetchesRam (s : State) : Bool :=
  s.target s.pc == .ram && s.target (s.pc + 1) == .ram && s.target (s.pc + 2) == .ram

/-- `s` with an instruction stored where `step` fetches the next one, at `pc`, and with what else must hold for
the very next step to run it: the processor not jammed, no host event in the coming round, no interrupt
requested, a configuration in its domain, `pc` in RAM. Each is changed only if it does not hold. Log 18. -/
def State.withFetchWord (s : State) (nbits w : Nat) : State :=
  { s with
    jammed := false
    pending := if s.pending.headI.isEmpty then s.pending else [] :: s.pending
    nmiLevel := if s.nmiRequested then s.prevNmi else s.nmiLevel
    extIrq := if s.irqRequested then false else s.extIrq
    raster := if s.irqRequested then { s.raster with irq := false } else s.raster
    cfg := { (if inDomain s.cfg then s.cfg else Config.reference) with
      map := if s.fetchesRam then s.cfg.map else BusMap.flat }
    mem := storeBytes s.pc (tableBytes nbits w) s.mem }

end Sys2Proof.Machine
end

