-- ==== Sys2Proof/Safety.lean ====
section
/-! DEFINITION. The words the statements are written in: what an instruction leaves alone, what it stores, what
one row of an instruction rule's encoding table says, and the invariant every step keeps. -/

namespace Sys2Proof.Machine

open Sys2Proof

/-! ## Frames -/

/-- The four 8-bit registers beside `P` (10 R21 to R24). -/
inductive Reg where
  | a | x | y | sp
deriving DecidableEq, Repr

/-- The value of a register. -/
def State.reg (s : State) : Reg → Byte
  | .a => s.a
  | .x => s.x
  | .y => s.y
  | .sp => s.sp

/-- Every register but the listed ones holds what it held. -/
def RegsKept (written : List Reg) (s t : State) : Prop := ∀ r, r ∉ written → t.reg r = s.reg r

/-- Every bit of `P` but the listed ones is what it was. -/
def FlagsKept (written : List Flag) (s t : State) : Prop := ∀ f, f ∉ written → flag t.p f = flag s.p f

/-- `N` and `Z` are those of `v` (00 R8 `SetNZ`). -/
def NZIs (v : Byte) (t : State) : Prop := flag t.p .n = v.msb ∧ flag t.p .z = (v == 0)

/-- What no instruction's operation phase touches: the NMI latch, the jam bit, the configuration, the host's
inputs and the other outputs of a round. -/
structure RestKept (s t : State) : Prop where
  prevNmi : t.prevNmi = s.prevNmi
  jammed : t.jammed = s.jammed
  cfg : t.cfg = s.cfg
  nmiLevel : t.nmiLevel = s.nmiLevel
  extIrq : t.extIrq = s.extIrq
  pending : t.pending = s.pending
  requests : t.requests = s.requests
  taken : t.taken = s.taken
  sums : t.sums = s.sums
  pairs : t.pairs = s.pairs
  samples : t.samples = s.samples

/-- Nothing was stored: every byte of memory, every device register and all device state is as before. -/
structure NothingStored (s t : State) : Prop where
  memory : ∀ b, t.mem.read b = s.mem.read b
  stored : ∀ b, t.stored b = s.stored b
  sid : t.sid = s.sid
  raster : t.raster = s.raster

/-- One byte `v` was stored at `addr` and nothing else: any other address answers as before; memory, in its
canonical form, takes `v` where memory answers at `addr`; the devices change as a bus write at `addr` changes
them. -/
structure StoredAt (addr : Addr) (v : Byte) (s t : State) : Prop where
  elsewhere : ∀ b, b ≠ addr → t.stored b = s.stored b ∧ t.mem.read b = s.mem.read b
  memory : s.mem.wf = true → t.mem.read addr = if s.target addr = .ram then v else s.mem.read addr
  sid : t.sid = s.sid.busWrite (s.target addr) v
  raster : t.raster = s.raster.write s.cfg (s.target addr) v

/-- What stands outside the core (20 R80 `Ext`), and the count of free values, are those of `u`. -/
def OutsideIs (u t : State) : Prop := t.ext = u.ext ∧ t.draws = u.draws

/-- No bus access was made and no free value drawn. -/
def NoAccess (s t : State) : Prop := t.bus = s.bus ∧ OutsideIs s t

/-- The instruction is finished: `pc` stands `len` bytes on (10 R34), and the step took `n` cycles. -/
def Advanced (len n : Nat) (s t : State) : Prop :=
  t.pc = s.pc + BitVec.ofNat 16 len ∧ t.outcome = some (.cycles n)

/-- The compare law (42 R189) as the flags of `t` show it. -/
def CompareIs (reg m : Byte) (t : State) : Prop :=
  (flag t.p .c = true ↔ m.toNat ≤ reg.toNat) ∧ (flag t.p .z = true ↔ reg = m) ∧ flag t.p .n = (reg - m).msb

/-- The result and the flags of the `ADC` operation (42 R193) on the accumulator and carry of `s`: `V` from the
binary sum in both modes, by the signs; in binary mode the sum modulo 256 and the carry out; in decimal mode those
of `BcdAdc`. -/
def AdcResult (m : Byte) (s t : State) : Prop :=
  ∀ (c : Nat) (r : Byte), c = (if flag s.p .c then 1 else 0) → r = BitVec.ofNat 8 (s.a.toNat + m.toNat + c) →
    (flag t.p .v = true ↔ s.a.msb = m.msb ∧ r.msb ≠ s.a.msb) ∧ NZIs t.a t ∧
    (flag s.p .d = false → t.a = r ∧ (flag t.p .c = true ↔ 255 < s.a.toNat + m.toNat + c)) ∧
    (flag s.p .d = true → t.a = (bcdAdc s.cfg s.a m (flag s.p .c)).1 ∧
      flag t.p .c = (bcdAdc s.cfg s.a m (flag s.p .c)).2)

/-- The result and the flags of the `SBC` operation (42 R194): `V` by the signs and `C` as no-borrow from the binary
difference in both modes; in binary mode the difference modulo 256, in decimal mode `BcdSbc`. -/
def SbcResult (m : Byte) (s t : State) : Prop :=
  ∀ (d : Int) (r : Byte), d = s.a.toNat - m.toNat - (if flag s.p .c then 0 else 1) → r = BitVec.ofInt 8 d →
    (flag t.p .v = true ↔ s.a.msb ≠ m.msb ∧ r.msb = m.msb) ∧ NZIs t.a t ∧ (flag t.p .c = true ↔ 0 ≤ d) ∧
    (flag s.p .d = false → t.a = r) ∧ (flag s.p .d = true → t.a = bcdSbc s.cfg s.a m (flag s.p .c))

/-! ## The stack -/

/-- The address of the stack byte `k` below the one `SP` designates, inside the page (20 R87, 10 R24). -/
def stackSlot (s : State) (k : Byte) : Addr := s.cfg.stackBase + zeroPage (s.sp - k)

/-- The state after three bytes were pushed: `hi` first, then `lo`, then `status`. -/
def stacked3 (hi lo status : Byte) (s : State) : State :=
  busWrite (stackSlot s 2) status (busWrite (stackSlot s 1) lo (busWrite (stackSlot s 0) hi s))

/-- What the entry sequence of NMI, IRQ and BRK does (60 R424, R429; 45 R262): the return address and the status
byte are on the stack, `SP` is three lower, `P.I` is 1, `pc` is what the vector holds, low byte first; no other
register or flag changes, and no other byte. -/
structure Entered (ret : Addr) (status : Byte) (vector : Addr) (s t : State) : Prop where
  pc : t.pc = joinBytes
    (busRead (vector + 1) (busRead vector (stacked3 (hiByte ret) (loByte ret) status s)).2).1
    (busRead vector (stacked3 (hiByte ret) (loByte ret) status s)).1
  bus : t.bus =
    (busRead (vector + 1) (busRead vector (stacked3 (hiByte ret) (loByte ret) status s)).2).2.bus
  outside : OutsideIs
    (busRead (vector + 1) (busRead vector (stacked3 (hiByte ret) (loByte ret) status s)).2).2 t
  sp : t.sp = s.sp - 3
  regs : RegsKept [.sp] s t
  mask : flag t.p .i = true
  flags : FlagsKept [.i] s t
  store : t.mem = (stacked3 (hiByte ret) (loByte ret) status s).mem ∧
    t.sid = (stacked3 (hiByte ret) (loByte ret) status s).sid ∧
    t.raster = (stacked3 (hiByte ret) (loByte ret) status s).raster
  elsewhere : ∀ b, b ≠ stackSlot s 0 → b ≠ stackSlot s 1 → b ≠ stackSlot s 2 →
    t.stored b = s.stored b ∧ t.mem.read b = s.mem.read b
  saved : s.mem.wf = true →
    (s.target (stackSlot s 0) = .ram → t.mem.read (stackSlot s 0) = hiByte ret) ∧
    (s.target (stackSlot s 1) = .ram → t.mem.read (stackSlot s 1) = loByte ret) ∧
    (s.target (stackSlot s 2) = .ram → t.mem.read (stackSlot s 2) = status)

/-- What one push of `v` does (00 R8, 45 R264), beside `pc` and the outcome. -/
structure Pushed (v : Byte) (s t : State) : Prop where
  store : StoredAt (stackSlot s 0) v s t
  bus : t.bus = s.bus ++ [.write (stackSlot s 0) v]
  outside : OutsideIs (busWrite (stackSlot s 0) v s) t
  sp : t.sp = s.sp - 1
  regs : RegsKept [.sp] s t
  flags : t.p = s.p

/-- The byte the next pull returns (00 R8, 45 R264): `SP` is raised first. -/
def pulledByte (s : State) : Byte := s.peek (s.cfg.stackBase + zeroPage (s.sp + 1))

/-! ## Encoding tables -/

/-- The instruction is well formed, its words are `words`, and the decoder reads it from them. -/
def Encoded (i : Instr) (words : List Byte) : Prop :=
  i.wellFormed = true ∧ encode i = words ∧ ∀ rest, decode (words ++ rest) = .ok (i, rest)

/-- One row of an instruction rule's encoding table: opcode, mode, bytes, cycles, cycles when a page is crossed. -/
structure Row where
  opcode : Byte
  mode : Mode
  bytes : Nat
  cycles : Nat
  crossedCycles : Nat
deriving DecidableEq, Repr

/-- A row whose count does not depend on a page crossing. -/
def Row.fixed (opcode : Byte) (mode : Mode) (bytes cycles : Nat) : Row := ⟨opcode, mode, bytes, cycles, cycles⟩

/-- The row's words with operand bytes `b1`, `b2`. -/
def Row.words (r : Row) (b1 b2 : Byte) : List Byte := [r.opcode, b1, b2].take r.bytes

/-- The row's operand with operand bytes `b1`, `b2`. -/
def Row.operand (r : Row) (b1 b2 : Byte) : Operand := r.mode.operand b1 b2

/-- The row's cycle count. -/
def Row.count (r : Row) (crossed : Bool) : Nat := if crossed then r.crossedCycles else r.cycles

/-- Every row of a table, with every operand and from every state: the words encode the instruction `f` makes of
the opcode and the operand, and `exec` answers a next state with the row's length and count, the frame that holds
of every instruction, and the effect. -/
def RowsRun (f : Byte → Operand → Instr) (rows : List Row) (Effect : Operand → State → State → Prop) : Prop :=
  ∀ r ∈ rows, ∀ (b1 b2 : Byte) (s : State),
    Encoded (f r.opcode (r.operand b1 b2)) (r.words b1 b2) ∧
    ∃ t, exec (f r.opcode (r.operand b1 b2)) s = .next t ∧
      Advanced r.bytes (r.count (locate (r.operand b1 b2) s).1.crossed) s t ∧ RestKept s t ∧
      Effect (r.operand b1 b2) s t

/-- The effect of an instruction of class read: the operand is read once and nothing is stored; the listed
registers and flags may change, as `Result` says of the operand byte. -/
def ReadEffect (regs : List Reg) (flags : List Flag) (Result : Byte → State → State → Prop)
    (o : Operand) (s t : State) : Prop :=
  t.bus = (load o s).state.bus ∧ OutsideIs (load o s).state t ∧ NothingStored s t ∧
    RegsKept regs s t ∧ FlagsKept flags s t ∧ Result (load o s).value s t

/-- The effect of an instruction of class write: one write of `value s` at the effective address. -/
def StoreEffect (value : State → Byte) (o : Operand) (s t : State) : Prop :=
  t.bus = (locate o s).2.bus ++ [.write (locate o s).1.addr (value s)] ∧
    OutsideIs (busWrite (locate o s).1.addr (value s) (locate o s).2) t ∧
    StoredAt (locate o s).1.addr (value s) s t ∧ RegsKept [] s t ∧ t.p = s.p

/-- The operand byte of a read-modify-write instruction. -/
def rmwByte (o : Operand) (s : State) : Byte := (locate o s).2.peek (locate o s).1.addr

/-- The effect of an instruction of class rmw: one read, then one write of `result` at the same address. -/
def RmwEffect (regs : List Reg) (flags : List Flag) (result : Byte → State → Byte)
    (Result : Byte → State → State → Prop) (o : Operand) (s t : State) : Prop :=
  t.bus = (locate o s).2.bus ++
      [.read (locate o s).1.addr (rmwByte o s), .write (locate o s).1.addr (result (rmwByte o s) s)] ∧
    OutsideIs (busWrite (locate o s).1.addr (result (rmwByte o s) s)
      (busRead (locate o s).1.addr (locate o s).2).2) t ∧
    StoredAt (locate o s).1.addr (result (rmwByte o s) s) s t ∧
    RegsKept regs s t ∧ FlagsKept flags s t ∧ Result (rmwByte o s) s t

/-- An implied instruction that touches registers and flags alone: its word, its length 1, its count, its frame
and its effect. -/
def ImpliedRuns (i : Instr) (opcode : Byte) (cycles : Nat) (regs : List Reg) (flags : List Flag)
    (Result : State → State → Prop) : Prop :=
  Encoded i [opcode] ∧
  ∀ s, ∃ t, exec i s = .next t ∧ Advanced 1 cycles s t ∧ RestKept s t ∧ NoAccess s t ∧ NothingStored s t ∧
    RegsKept regs s t ∧ FlagsKept flags s t ∧ Result s t

/-- An instruction with one immediate byte: its words, and from every state that meets `Pre` its length 2, its
count 2, its frame and its effect. The byte was read with the instruction (log 16), so no access is made. -/
def ImmediateRuns (i : Byte → Instr) (opcode : Byte) (regs : List Reg) (flags : List Flag) (Pre : State → Prop)
    (Result : Byte → State → State → Prop) : Prop :=
  ∀ (m : Byte) (s : State),
    Encoded (i m) [opcode, m] ∧
    (Pre s → ∃ t, exec (i m) s = .next t ∧ Advanced 2 2 s t ∧ RestKept s t ∧ t.bus = s.bus ∧ t.ext = s.ext ∧
      NothingStored s t ∧
      RegsKept regs s t ∧ FlagsKept flags s t ∧ Result m s t)

/-- The address the unstable stores write. -/
def maskedAddr (value : Byte) (o : Operand) (s : State) : Addr :=
  if (locate o s).1.crossed then joinBytes value (loByte (locate o s).1.addr) else (locate o s).1.addr

/-- The effect of the unstable stores (46 R302 to R305): `value` is written, and stands in for the high byte of
the address when a page was crossed. -/
def MaskedStoreEffect (regs : List Reg) (value : Byte) (o : Operand) (s t : State) : Prop :=
  t.bus = (locate o s).2.bus ++ [.write (maskedAddr value o s) value] ∧
    OutsideIs (busWrite (maskedAddr value o s) value (locate o s).2) t ∧
    StoredAt (maskedAddr value o s) value s t ∧ RegsKept regs s t ∧ t.p = s.p

/-- A flag instruction: `f` becomes `v`, nothing else changes. -/
def FlagRuns (i : Instr) (opcode : Byte) (f : Flag) (v : Bool) : Prop :=
  ImpliedRuns i opcode 2 [] [f] (fun _ t => flag t.p f = v)

/-- A conditional branch: taken exactly when flag `f` has the value `v`. -/
def BranchRuns (i : Byte → Instr) (opcode : Byte) (f : Flag) (v : Bool) : Prop :=
  ∀ (d : Byte) (s : State),
    Encoded (i d) [opcode, d] ∧
    ∃ t, exec (i d) s = .next t ∧
      (flag s.p f = v → t.pc = s.pc + 2 + signExtend d ∧ t.outcome = some (.cycles 3)) ∧
      (flag s.p f ≠ v → t.pc = s.pc + 2 ∧ t.outcome = some (.cycles 2)) ∧
      RestKept s t ∧ NoAccess s t ∧ NothingStored s t ∧ RegsKept [] s t ∧ t.p = s.p

/-- The state after `n` bus reads at ascending addresses from `addr`, and the bytes they returned. -/
def readBytes : Nat → Addr → State → List Byte × State
  | 0, _, s => ([], s)
  | n + 1, addr, s =>
    ((busRead addr s).1 :: (readBytes n (addr + 1) (busRead addr s).2).1,
      (readBytes n (addr + 1) (busRead addr s).2).2)

/-! ## The invariant -/

/-- What holds of a channel in every reachable state (47 R334: the all-zero noise register is unreachable;
48 R372, R373, R378, R380: how the four envelope flags go together). -/
structure ChannelOk (ch : Channel) : Prop where
  noise : ch.lfsr ≠ 0
  sustain : ch.decaySustain = ch.gate
  attack : ch.attack = true → ch.gate = true ∧ ch.holdZero = false
  frozen : ch.holdZero = true → ch.envLevel = 0

/-- The invariant every step keeps: memory in canonical form, the channels, the two carried bits (47 R342), the
volume state within the register's range (49 R401), the timer's two request bits equal (60 R444), its counters in
range (60 R447). -/
structure Inv (s : State) : Prop where
  memory : s.mem.wf = true
  channels : ∀ c : Fin 3, ChannelOk s.sid.ch[c]
  ring : s.sid.ringMsb = phaseMsb s.sid.ch[2].phase
  sync : s.sid.syncRise = (!phaseMsb s.sid.ch[2].prevPhase && phaseMsb s.sid.ch[2].phase)
  volume : 0 ≤ s.sid.volSmooth ∧ s.sid.volSmooth ≤ 15
  request : s.raster.irq = s.raster.matched
  timer : inDomain s.cfg = true →
    s.raster.acc < s.cfg.cyclesPerRow ∧ s.raster.row.toNat < s.cfg.rowsTotal

end Sys2Proof.Machine
end

