-- ==== Sys2Proof/Certificates/Slice0/Obligations.lean ====
section
/-! DEFINITION. The statements for the provers, from the rules of spec/. Each docstring names what it formalises. -/

open Sys2Proof Sys2Proof.Machine

/-- For every well-formed instruction, with every operand, and whatever follows its words, decoding its words
gives the instruction and what follows. (30_encoding.md R112 to R119.) -/
def Obligations.DecodeOfEncode : Prop :=
  ∀ (i : Instr) (rest : List Byte), i.wellFormed = true → decode (encode i ++ rest) = .ok (i, rest)

/-- If a byte list decodes to an instruction and a rest, the instruction is well formed and the list is its
words followed by the rest. (30_encoding.md R113, R119, R124.) -/
def Obligations.EncodeOfDecode : Prop :=
  ∀ (bs rest : List Byte) (i : Instr), decode bs = .ok (i, rest) → i.wellFormed = true ∧ bs = encode i ++ rest

/-- For every opcode byte there is one length, 1, 2 or 3, such that with any two bytes after it the decoder
reads an instruction of exactly that length, with that opcode byte first, and leaves the other bytes.
(30_encoding.md R111, R121, R124.) -/
def Obligations.EveryOpcodeDecodes : Prop :=
  ∀ op : Byte, ∃ n : Nat, 1 ≤ n ∧ n ≤ 3 ∧ ∀ (b1 b2 : Byte) (rest : List Byte), ∃ i : Instr,
    decode (op :: b1 :: b2 :: rest) = .ok (i, (op :: b1 :: b2 :: rest).drop n) ∧ i.length = n ∧
      (encode i).head? = some op

/-- Eight words, one for each file of instructions and each format, decode to the instruction the table gives:
A9 00, 99 00 02, BD FF 20, 7D 34 12, 7E 00 20, 10 80, 6C FF 12, 00, 40, 5F 34 12, EB 01, 93 10. (30_encoding.md
R113, R119, opcode_table.json.) -/
def Obligations.WrittenWordsDecode : Prop :=
  decode [0xA9, 0x00] = .ok (.lda (.imm 0x00), []) ∧
  decode [0x99, 0x00, 0x02] = .ok (.sta (.aby 0x0200), []) ∧
  decode [0xBD, 0xFF, 0x20] = .ok (.lda (.abx 0x20FF), []) ∧
  decode [0x7D, 0x34, 0x12] = .ok (.adc (.abx 0x1234), []) ∧
  decode [0x7E, 0x00, 0x20] = .ok (.ror (.mem (.abx 0x2000)), []) ∧
  decode [0x10, 0x80] = .ok (.bpl 0x80, []) ∧
  decode [0x6C, 0xFF, 0x12] = .ok (.jmpInd 0x12FF, []) ∧
  decode [0x00] = .ok (.brk, []) ∧
  decode [0x40] = .ok (.rti, []) ∧
  decode [0x5F, 0x34, 0x12] = .ok (.sre (.abx 0x1234), []) ∧
  decode [0xEB, 0x01] = .ok (.sbcEB 0x01, []) ∧
  decode [0x93, 0x10] = .ok (.sha (.izy 0x10), [])

/-- If the bytes that bus reads from pc upward return are the words of a well-formed instruction, the fetch
answers that instruction and the state after exactly those reads. That all bytes are read before the operation
is the model's choice (log 16). Once the host's events of the round and the interrupt service are done, with
every configuration of the round in its domain and not jammed, a step is exec of the instruction whose words
stand at pc, at the state after its bytes were read, followed by the devices' advance; a fault or a refusal of
exec is the step's. Where the host's events fall in a round is the model's choice (log 11). (30_encoding.md
R110, 20_memory.md R82, 60_exceptions.md R452, log 11, log 16.) -/
def Obligations.FetchAndStepRunTheInstruction : Prop :=
  (∀ (s : State) (i : Instr), i.wellFormed = true → (readBytes i.length s.pc s).1 = encode i →
    fetch s = (i, (readBytes i.length s.pc s).2)) ∧
  (∀ (s u : State) (i : Instr), s.roundInDomain = true → u = serviceInterrupts (beginRound s) →
    u.jammed = false → i.wellFormed = true → (readBytes i.length u.pc u).1 = encode i →
    step s = match exec i (readBytes i.length u.pc u).2 with
      | .next t => .next (advanceDevices t)
      | .fault r => .fault r
      | .refused r => .refused r)

/-- For the outcome Cycles(n) the raster timer advances by n and the sound chip by n, whose pair of sums is
reported; then each sample the host asked for is output in turn, on that pair or on the one the host formed, and
reported, and no request stays (that a request waits for the next SidAdvance, and that each is answered, is the
model's choice, log 12). For any other outcome nothing changes. The processor, memory, what stands outside, the
configuration, the two lines with the NMI latch, the coming host events and the rest of the report are
untouched. (60_exceptions.md R452, 49_sid_filter_mixer.md R400, R405, log 12.) -/
def Obligations.TimePassesByTheCount : Prop :=
  ∀ (s : State) (n : Nat) (adv : Sid × (Int × Int)), adv = sidAdvance s.cfg n s.sid →
    (s.outcome = some (.cycles n) →
      (advanceDevices s).raster = s.raster.advance s.cfg n ∧
      (advanceDevices s).sums = adv.2 ∧ (advanceDevices s).pairs = s.pairs ++ [adv.2] ∧
      (advanceDevices s).requests = [] ∧
      ((advanceDevices s).sid, (advanceDevices s).samples) =
        s.requests.foldl
          (fun (acc : Sid × List Int) r =>
            ((sidOutput s.cfg (r.getD adv.2) acc.1).1, acc.2 ++ [(sidOutput s.cfg (r.getD adv.2) acc.1).2]))
          (adv.1, s.samples)) ∧
    ((∀ k, s.outcome ≠ some (.cycles k)) → advanceDevices s = s) ∧
    (advanceDevices s).pc = s.pc ∧ (advanceDevices s).p = s.p ∧ RegsKept [] s (advanceDevices s) ∧
    (advanceDevices s).prevNmi = s.prevNmi ∧ (advanceDevices s).jammed = s.jammed ∧
    (advanceDevices s).mem = s.mem ∧ OutsideIs s (advanceDevices s) ∧ (advanceDevices s).cfg = s.cfg ∧
    (advanceDevices s).nmiLevel = s.nmiLevel ∧ (advanceDevices s).extIrq = s.extIrq ∧
    (advanceDevices s).pending = s.pending ∧ (advanceDevices s).outcome = s.outcome ∧
    (advanceDevices s).taken = s.taken ∧ (advanceDevices s).bus = s.bus

/-- A step is refused as outside the domain exactly when the configuration that stands, or one that a reset
among the round's host events brings, has no row, more than 512 rows, no cycle in a row, attenuation 0, or a
phase or waveform width other than 24 and 12 bits (that other widths are refused is the model's choice, log 31;
that a reset's configuration is looked at before any event is log 14). (93_implementation_defined.md U18, U20,
49_sid_filter_mixer.md R402, log 14, log 31.) -/
def Obligations.OutOfDomainIsRefused : Prop :=
  ∀ s : State, step s = .refused .configOutOfDomain ↔
    ∃ cfg : Config, (cfg = s.cfg ∨ ∃ entry, .reset cfg entry ∈ s.pending.headI) ∧
      (cfg.rowsTotal = 0 ∨ 512 < cfg.rowsTotal ∨ cfg.cyclesPerRow = 0 ∨ cfg.attenuation = 0 ∨
        cfg.phaseBits ≠ 24 ∨ cfg.waveBits ≠ 12)

/-- For every instruction and state, exec answers a next state, unless the instruction is one of the six
unstable mnemonics and UNSTABLE_ADMITTED is false, or it is ARR and P.D is 1; in those cases it is refused under
that name. While UNSTABLE_ADMITTED is false every form of the six unstable mnemonics is refused, and with P.D =
1 ARR is refused. (60_exceptions.md R420, R421, 46_undocumented.md R292, R299.) -/
def Obligations.RefusalsAreTheStatedOnes : Prop :=
  (∀ (i : Instr) (s : State),
    (∃ t, exec i s = .next t) ∨
    (s.cfg.unstableAdmitted = false ∧
      ((∃ m, i = .ane m ∧ exec i s = .refused (.unstableOpcode "ANE")) ∨
        (∃ m, i = .lxa m ∧ exec i s = .refused (.unstableOpcode "LXA")) ∨
        (∃ o, i = .sha o ∧ exec i s = .refused (.unstableOpcode "SHA")) ∨
        (∃ a, i = .shx a ∧ exec i s = .refused (.unstableOpcode "SHX")) ∨
        (∃ a, i = .shy a ∧ exec i s = .refused (.unstableOpcode "SHY")) ∨
        (∃ a, i = .tas a ∧ exec i s = .refused (.unstableOpcode "TAS")))) ∨
    (flag s.p .d = true ∧ ∃ m, i = .arr m ∧ exec i s = .refused .arrDecimal)) ∧
  (∀ s : State,
    (s.cfg.unstableAdmitted = false →
      (∀ m, exec (.ane m) s = .refused (.unstableOpcode "ANE")) ∧
      (∀ m, exec (.lxa m) s = .refused (.unstableOpcode "LXA")) ∧
      (∀ o, exec (.sha o) s = .refused (.unstableOpcode "SHA")) ∧
      (∀ a, exec (.shx a) s = .refused (.unstableOpcode "SHX")) ∧
      (∀ a, exec (.shy a) s = .refused (.unstableOpcode "SHY")) ∧
      (∀ a, exec (.tas a) s = .refused (.unstableOpcode "TAS"))) ∧
    (flag s.p .d = true → ∀ m, exec (.arr m) s = .refused .arrDecimal))

/-- Reset with a configuration and an entry address leaves pc at the entry, A, X, Y, the NMI latch and the jam
bit 0, SP and P at SP_RESET and P_RESET, which by default are 0xFF and 0x04; every stored sound register 0,
every channel released, frozen at level 0 with the noise register all ones, the filter and carried bits 0; the
raster timer all 0. The reset state is such a reset of itself, with the configuration and the entry address the
model chose (logs 3, 4). Reset leaves memory, what stands outside the core and the two interrupt-line inputs as
they are and makes no bus access, in the jammed state too, which it leaves. (10_state.md R62 to R64,
70_reset_and_hazards.md R470, R471, log 3, log 4.) -/
def Obligations.ResetLeaves : Prop :=
  (∀ (cfg : Config) (entry : Addr) (s t : State), t = s.hostReset cfg entry →
      t.pc = entry ∧ t.a = 0 ∧ t.x = 0 ∧ t.y = 0 ∧ t.sp = cfg.spReset ∧ t.p = cfg.pReset ∧ t.prevNmi = 0 ∧
      t.jammed = false ∧ t.cfg = cfg ∧
      (∀ o : Fin 25, t.sid.regs[o] = 0) ∧
      (∀ c : Fin 3, t.sid.ch[c].gate = false ∧ t.sid.ch[c].attack = false ∧ t.sid.ch[c].decaySustain = false ∧
        t.sid.ch[c].holdZero = true ∧ t.sid.ch[c].rateCounter = 0 ∧ t.sid.ch[c].expCounter = 0 ∧
        t.sid.ch[c].envLevel = 0 ∧ t.sid.ch[c].phase = 0 ∧ t.sid.ch[c].prevPhase = 0 ∧
        t.sid.ch[c].lfsr = 0x7FFFFF ∧ t.sid.ch[c].waveOut = 0 ∧ t.sid.ch[c].combPrev = 0) ∧
      t.sid.lp = 0 ∧ t.sid.bp = 0 ∧ t.sid.volSmooth = 0 ∧ t.sid.syncRise = false ∧ t.sid.ringMsb = false ∧
      t.raster.acc = 0 ∧ t.raster.row = 0 ∧ t.raster.cmp = 0 ∧ t.raster.ctrlLow = 0 ∧ t.raster.enable = 0 ∧
      t.raster.matched = false ∧ t.raster.irq = false) ∧
  State.reset = State.reset.hostReset Config.reference Config.referenceEntry ∧
  Config.reference = { Config.standard with unstableAdmitted := true } ∧
  Config.standard.spReset = 0xFF ∧ Config.standard.pReset = 0x04 ∧
  (∀ f, flag Config.standard.pReset f = true ↔ f = .i) ∧
  (∀ (cfg : Config) (entry : Addr) (s : State),
    (s.hostReset cfg entry).mem = s.mem ∧ (s.hostReset cfg entry).nmiLevel = s.nmiLevel ∧
    (s.hostReset cfg entry).extIrq = s.extIrq ∧ NoAccess s (s.hostReset cfg entry) ∧
    (s.hostReset cfg entry).jammed = false)

/-- The machine right after reset has its memory in canonical form, its channels, carried bits and volume state
in range, the timer's two request bits equal and its counters in range. (10_state.md R62 to R64,
60_exceptions.md R444, R447, 47_sid_oscillator.md R346.) -/
def Obligations.InvariantAtReset : Prop :=
  Inv State.reset

/-- From every state that meets the invariant a step that answers a next state answers one that meets it: memory
stays in canonical form, no noise register becomes 0, the envelope flags go together, the carried bits are
channel 2's, the volume state stays in 0 to 15, the timer's two request bits stay equal and its counters in
range. (60_exceptions.md R444, R447, 47_sid_oscillator.md R342, R346, 48_sid_envelope.md R372, R373, R378, R380,
49_sid_filter_mixer.md R401.) -/
def Obligations.StepKeepsInvariant : Prop :=
  ∀ s t : State, Inv s → step s = .next t → Inv t

/-- If no reset is among the host's events of the round, a step leaves the configuration as it is and a jammed
processor jammed. (70_reset_and_hazards.md R470, R471, 60_exceptions.md R434.) -/
def Obligations.OnlyResetReconfigures : Prop :=
  ∀ s t : State, (∀ cfg entry, .reset cfg entry ∉ s.pending.headI) → step s = .next t →
    t.cfg = s.cfg ∧ (s.jammed = true → t.jammed = true)

/-- In canonical form: a read of the written address gives the written byte, a read of any other address what it
gave, the form is kept, and two memories that read alike everywhere are equal data. The form, and what an
unlisted address reads as, are the model's choice (log 1). (20_memory.md R80, R91, log 1.) -/
def Obligations.MemoryLaws : Prop :=
  (∀ (m : Memory) (a b : Addr) (v : Byte), m.wf = true →
      (m.write a v).read a = v ∧ (b ≠ a → (m.write a v).read b = m.read b) ∧ (m.write a v).wf = true) ∧
  (∀ m m' : Memory, m.wf = true → m'.wf = true → (∀ a, m.read a = m'.read a) → m = m')

/-- Whatever the address map, a bus write changes the answer at no other address, puts the byte into memory
where memory answers, changes the devices as their register writes say, is recorded once, and changes no
register. A write to an external address takes the oracle to its new state, any other leaves it. That an address
outside the devices and the external windows is RAM, which changes by writes to it alone and reads back what was
written, is the model's choice (log 2; 20 R80 assumes nothing of the bus); so is which device answers where
configured addresses overlap, and that the RAM beneath a device stays (log 15). (20_memory.md R80, R89, R92, log
2, log 15.) -/
def Obligations.BusWriteStoresOneByte : Prop :=
  ∀ (a : Addr) (v : Byte) (s : State),
    StoredAt a v s (busWrite a v s) ∧ (busWrite a v s).bus = s.bus ++ [.write a v] ∧
    (busWrite a v s).pc = s.pc ∧ (busWrite a v s).p = s.p ∧ RegsKept [] s (busWrite a v s) ∧
    RestKept s (busWrite a v s) ∧ (busWrite a v s).draws = s.draws ∧
    (s.target a = .external → (busWrite a v s).ext = Config.extWrite s.ext a v) ∧
    (s.target a ≠ .external → (busWrite a v s).ext = s.ext) ∧
    (s.mem.wf = true → s.target a = .ram → (busWrite a v s).stored a = some v)

/-- A bus read returns the byte that stands at the address; where none is known it is the oracle's, which moves
to its new state, at an external address, and a draw at an unassigned sound-chip offset (how a draw is counted
is the model's choice, log 5); it is recorded once; no register, byte or device changes. Which addresses are
external is configured, and the others outside the devices are RAM, by the model's choice (log 2). (20_memory.md
R80, R85, 10_state.md R39, log 2, log 5.) -/
def Obligations.BusReadChangesNothing : Prop :=
  ∀ (a : Addr) (s : State),
    (∀ v, s.stored a = some v → (busRead a s).1 = v ∧ OutsideIs s (busRead a s).2) ∧
    (s.target a = .external → s.stored a = none ∧ (busRead a s).1 = (Config.extRead s.ext a).1 ∧
      (busRead a s).2.ext = (Config.extRead s.ext a).2 ∧ (busRead a s).2.draws = s.draws) ∧
    (s.stored a = none → s.target a ≠ .external → (busRead a s).1 = Config.draw s.draws ∧
      (busRead a s).2.draws = s.draws + 1 ∧ (busRead a s).2.ext = s.ext) ∧
    (busRead a s).2.bus = s.bus ++ [.read a (busRead a s).1] ∧ NothingStored s (busRead a s).2 ∧
    (busRead a s).2.pc = s.pc ∧ (busRead a s).2.p = s.p ∧ RegsKept [] s (busRead a s).2 ∧
    RestKept s (busRead a s).2

/-- At the four raster addresses a read returns the control/status byte (row bit 8, then the seven bits last
written), the row's low byte, the flag byte (irq, six zeros, match) and the enable byte; a write sets the
compare row's bit 8 and the seven bits, the compare row's low byte, acknowledges, and sets the enable byte, each
changing nothing else of the timer. (R55, R56, R57, R58, R443.) -/
def Obligations.RasterBytes : Prop :=
  ∀ (s : State) (a : Addr) (v : Byte),
    (s.target a = .rasterControl →
      (∃ b, s.stored a = some b ∧ b.getLsbD 7 = s.raster.row.getLsbD 8 ∧
        ∀ i, i < 7 → b.getLsbD i = s.raster.ctrlLow.getLsbD i) ∧
      ∃ r, (busWrite a v s).raster = r ∧ r.cmp.getLsbD 8 = v.getLsbD 7 ∧
        (∀ i, i < 8 → r.cmp.getLsbD i = s.raster.cmp.getLsbD i) ∧
        (∀ i, i < 7 → r.ctrlLow.getLsbD i = v.getLsbD i) ∧ r.acc = s.raster.acc ∧ r.row = s.raster.row ∧
        r.enable = s.raster.enable ∧ r.matched = s.raster.matched ∧ r.irq = s.raster.irq) ∧
    (s.target a = .rasterRow →
      (∃ b, s.stored a = some b ∧ ∀ i, i < 8 → b.getLsbD i = s.raster.row.getLsbD i) ∧
      ∃ r, (busWrite a v s).raster = r ∧ r.cmp.getLsbD 8 = s.raster.cmp.getLsbD 8 ∧
        (∀ i, i < 8 → r.cmp.getLsbD i = v.getLsbD i) ∧ r.ctrlLow = s.raster.ctrlLow ∧ r.acc = s.raster.acc ∧
        r.row = s.raster.row ∧ r.enable = s.raster.enable ∧ r.matched = s.raster.matched ∧
        r.irq = s.raster.irq) ∧
    (s.target a = .rasterFlag →
      (∃ b, s.stored a = some b ∧ b.getLsbD 7 = s.raster.irq ∧ b.getLsbD 0 = s.raster.matched ∧
        ∀ i, 1 ≤ i → i < 7 → b.getLsbD i = false) ∧
      (s.cfg.realHwMode = true ∧ (s.cfg.rasterAckNeedsOne = false ∨ v.getLsbD 0 = true) →
        (busWrite a v s).raster = { s.raster with matched := false, irq := false }) ∧
      (¬ (s.cfg.realHwMode = true ∧ (s.cfg.rasterAckNeedsOne = false ∨ v.getLsbD 0 = true)) →
        (busWrite a v s).raster = s.raster)) ∧
    (s.target a = .rasterEnable →
      s.stored a = some s.raster.enable ∧ (busWrite a v s).raster = { s.raster with enable := v })

/-- At a sound-chip offset: a stored register reads the byte last written and a write changes it alone; OSC3 and
ENV3 read channel 2's sample and level and ignore writes; the unassigned offsets read as nothing known and
ignore writes. That the RAM beneath the window stays is the model's choice (log 15). FREQ is high byte times 256
plus low byte; PW is the low nibble of the high byte times 256 plus the low byte; CUTOFF is the high byte times
8 plus the low three bits; the sustain level is the sustain nibble times 17; the control, routing and volume
fields are the bits the tables give, at offsets 7c to 7c + 6 and 0x15 to 0x18. (10_state.md R39 to R49, log 15.) -/
def Obligations.SoundRegisters : Prop :=
  (∀ (s : State) (a : Addr) (v : Byte) (o : BitVec 5), s.target a = .sid o →
    (∀ h : o.toNat < 25, s.stored a = some s.sid.regs[o.toNat] ∧ (busWrite a v s).stored a = some v ∧
      (∀ k : Fin 25, (busWrite a v s).sid.regs[k] = if k.val = o.toNat then v else s.sid.regs[k])) ∧
    (o = 0x1B → s.stored a = some ((s.sid.ch[2].waveOut >>> 4).setWidth 8)) ∧
    (o = 0x1C → s.stored a = some s.sid.ch[2].envLevel) ∧
    (o ∈ [0x19, 0x1A, 0x1D, 0x1E, 0x1F] → s.stored a = none) ∧
    (25 ≤ o.toNat → (busWrite a v s).sid = s.sid) ∧
    (busWrite a v s).sid.ch = s.sid.ch ∧ (busWrite a v s).sid.lp = s.sid.lp ∧
    (busWrite a v s).sid.bp = s.sid.bp ∧ (busWrite a v s).sid.volSmooth = s.sid.volSmooth ∧
    (busWrite a v s).sid.syncRise = s.sid.syncRise ∧ (busWrite a v s).sid.ringMsb = s.sid.ringMsb ∧
    (busWrite a v s).mem = s.mem ∧ (busWrite a v s).raster = s.raster ∧ OutsideIs s (busWrite a v s)) ∧
  (∀ (t : Sid) (c : Fin 3),
    (t.freq c).toNat = 256 * t.regs[7 * c.val + 1].toNat + t.regs[7 * c.val].toNat ∧
    (t.pulseWidth c).toNat = 256 * (t.regs[7 * c.val + 3].toNat % 16) + t.regs[7 * c.val + 2].toNat ∧
    t.gateBit c = t.regs[7 * c.val + 4].getLsbD 0 ∧ t.syncBit c = t.regs[7 * c.val + 4].getLsbD 1 ∧
    t.ringBit c = t.regs[7 * c.val + 4].getLsbD 2 ∧ t.testBit c = t.regs[7 * c.val + 4].getLsbD 3 ∧
    (t.selector c).toNat = t.regs[7 * c.val + 4].toNat / 16 ∧
    t.attackDecay c = t.regs[7 * c.val + 5] ∧
    (t.sustainLevel c).toNat = 17 * (t.regs[7 * c.val + 6].toNat / 16) ∧
    (t.cutoff).toNat = 8 * t.regs[0x16].toNat + t.regs[0x15].toNat % 8 ∧
    (t.resonance).toNat = t.regs[0x17].toNat / 16 ∧ t.routed c = t.regs[0x17].getLsbD c.val ∧
    (t.volume).toNat = t.regs[0x18].toNat % 16)

/-- A push writes at STACK_BASE + SP and lowers SP modulo 256; a pull raises SP modulo 256 and reads at
STACK_BASE + SP, changing nothing else; where memory answers there, a pull after a push returns the pushed byte
with SP restored. Where a configured STACK_BASE takes the sum past 0xFFFF it is taken modulo 65536 by the
model's choice (log 30); that RAM reads back is log 2. (45_stack_flag_system.md R264, 00_scope.md R8, log 2, log
30.) -/
def Obligations.StackDiscipline : Prop :=
  ∀ (v : Byte) (s : State),
    Pushed v s (push v s) ∧ (push v s).pc = s.pc ∧
    (pull s).1 = pulledByte s ∧ (pull s).2.sp = s.sp + 1 ∧
    (pull s).2.bus = s.bus ++ [.read (s.cfg.stackBase + zeroPage (s.sp + 1)) (pulledByte s)] ∧
    OutsideIs (busRead (s.cfg.stackBase + zeroPage (s.sp + 1)) s).2 (pull s).2 ∧
    NothingStored s (pull s).2 ∧ RegsKept [.sp] s (pull s).2 ∧ (pull s).2.p = s.p ∧ (pull s).2.pc = s.pc ∧
    (s.sp = 0x00 → (push v s).sp = 0xFF) ∧ (s.sp = 0xFF → (pull s).2.sp = 0x00) ∧
    (s.mem.wf = true → s.target (stackSlot s 0) = .ram →
      (pull (push v s)).1 = v ∧ (pull (push v s)).2.sp = s.sp)

/-- That an immediate byte is read with the instruction, and so not again here, is the model's choice (log 16).
Each mode's effective address, page-crossed bit and pointer reads, its length and its base cycle count:
immediate, zero page, zero page indexed (inside the page), absolute, absolute indexed (modulo 65536), and the
two indirect modes with both pointer bytes from the zero page, low byte first. For every operand but an
immediate, the operand read returns the byte of one bus read at the effective address made after the pointer
reads, and the state after it; the count by access class is the mode's base, less one for an indexed read
without a page crossing, plus two for a read-modify-write. (40_addressing_modes.md R140, R142 to R150, R153,
R154, log 16.) -/
def Obligations.AddressingModes : Prop :=
  (∀ (s : State) (b1 b2 : Byte),
    ((locate (.imm b1) s).1.addr = s.pc + 1 ∧ (locate (.imm b1) s).1.crossed = false ∧
      (locate (.imm b1) s).2 = s ∧ (load (.imm b1) s).value = b1 ∧ (load (.imm b1) s).state = s ∧
      opLength (.imm b1) = 2 ∧ baseCycles .imm = 2) ∧
    ((locate (.zp b1) s).1.addr.toNat = b1.toNat ∧ (locate (.zp b1) s).1.crossed = false ∧
      (locate (.zp b1) s).2 = s ∧ opLength (.zp b1) = 2 ∧ baseCycles .zp = 3) ∧
    ((locate (.zpx b1) s).1.addr.toNat = (b1.toNat + s.x.toNat) % 256 ∧
      (locate (.zpx b1) s).1.crossed = false ∧ (locate (.zpx b1) s).2 = s ∧ opLength (.zpx b1) = 2 ∧
      baseCycles .zpx = 4) ∧
    ((locate (.zpy b1) s).1.addr.toNat = (b1.toNat + s.y.toNat) % 256 ∧
      (locate (.zpy b1) s).1.crossed = false ∧ (locate (.zpy b1) s).2 = s ∧ opLength (.zpy b1) = 2 ∧
      baseCycles .zpy = 4) ∧
    ((locate (.abs (joinBytes b2 b1)) s).1.addr.toNat = 256 * b2.toNat + b1.toNat ∧
      (locate (.abs (joinBytes b2 b1)) s).1.crossed = false ∧ (locate (.abs (joinBytes b2 b1)) s).2 = s ∧
      opLength (.abs (joinBytes b2 b1)) = 3 ∧ baseCycles .abs = 4) ∧
    ((locate (.abx (joinBytes b2 b1)) s).1.addr.toNat = (256 * b2.toNat + b1.toNat + s.x.toNat) % 65536 ∧
      (locate (.abx (joinBytes b2 b1)) s).1.crossed = decide (b1.toNat + s.x.toNat > 255) ∧
      ((locate (.abx (joinBytes b2 b1)) s).1.crossed = true ↔
        hiByte (locate (.abx (joinBytes b2 b1)) s).1.addr ≠ b2) ∧
      (locate (.abx (joinBytes b2 b1)) s).2 = s ∧ opLength (.abx (joinBytes b2 b1)) = 3 ∧ baseCycles .abx = 5) ∧
    ((locate (.aby (joinBytes b2 b1)) s).1.addr.toNat = (256 * b2.toNat + b1.toNat + s.y.toNat) % 65536 ∧
      (locate (.aby (joinBytes b2 b1)) s).1.crossed = decide (b1.toNat + s.y.toNat > 255) ∧
      (locate (.aby (joinBytes b2 b1)) s).2 = s ∧ opLength (.aby (joinBytes b2 b1)) = 3 ∧ baseCycles .aby = 5) ∧
    (∀ lo hi : Byte × State, lo = busRead (BitVec.ofNat 16 ((b1.toNat + s.x.toNat) % 256)) s →
      hi = busRead (BitVec.ofNat 16 ((b1.toNat + s.x.toNat + 1) % 256)) lo.2 →
      (locate (.izx b1) s).1.addr.toNat = 256 * hi.1.toNat + lo.1.toNat ∧
      (locate (.izx b1) s).1.crossed = false ∧ (locate (.izx b1) s).2 = hi.2 ∧ opLength (.izx b1) = 2 ∧
      baseCycles .izx = 6) ∧
    (∀ lo hi : Byte × State, lo = busRead (BitVec.ofNat 16 b1.toNat) s →
      hi = busRead (BitVec.ofNat 16 ((b1.toNat + 1) % 256)) lo.2 →
      (locate (.izy b1) s).1.addr.toNat = (256 * hi.1.toNat + lo.1.toNat + s.y.toNat) % 65536 ∧
      (locate (.izy b1) s).1.crossed = decide (lo.1.toNat + s.y.toNat > 255) ∧
      (locate (.izy b1) s).2 = hi.2 ∧ (locate (.izy b1) s).1.baseHi = hi.1 ∧ opLength (.izy b1) = 2 ∧
      baseCycles .izy = 6)) ∧
  (∀ (o : Operand) (s : State), o.mode ≠ .imm →
      (load o s).value = (busRead (locate o s).1.addr (locate o s).2).1 ∧
      (load o s).state = (busRead (locate o s).1.addr (locate o s).2).2) ∧
  (∀ (m : Mode) (crossed : Bool),
      cycleCount .write m crossed = baseCycles m ∧ cycleCount .rmw m crossed = baseCycles m + 2 ∧
      cycleCount .read m crossed + (if m ∈ [.abx, .aby, .izy] ∧ crossed = false then 1 else 0) = baseCycles m)

/-- Every form of the four loads, from every state: its words, length and count as its rule's table gives them;
the destination registers hold the operand byte, N and Z are its sign and zero-ness, the operand is read once,
and every other register, flag, latch, byte and device is unchanged. (R170, R171, R172, R289.) -/
def Obligations.LoadsRun : Prop :=
  RowsRun (fun _ => .lda)
      [.fixed 0xA1 .izx 2 6, .fixed 0xA5 .zp 2 3, .fixed 0xA9 .imm 2 2, .fixed 0xAD .abs 3 4,
       ⟨0xB1, .izy, 2, 5, 6⟩, .fixed 0xB5 .zpx 2 4, ⟨0xB9, .aby, 3, 4, 5⟩,
       ⟨0xBD, .abx, 3, 4, 5⟩]
      (ReadEffect [.a] [.n, .z] (fun m _ t => t.a = m ∧ NZIs m t)) ∧
  RowsRun (fun _ => .ldx)
      [.fixed 0xA2 .imm 2 2, .fixed 0xA6 .zp 2 3, .fixed 0xAE .abs 3 4, .fixed 0xB6 .zpy 2 4,
       ⟨0xBE, .aby, 3, 4, 5⟩]
      (ReadEffect [.x] [.n, .z] (fun m _ t => t.x = m ∧ NZIs m t)) ∧
  RowsRun (fun _ => .ldy)
      [.fixed 0xA0 .imm 2 2, .fixed 0xA4 .zp 2 3, .fixed 0xAC .abs 3 4, .fixed 0xB4 .zpx 2 4,
       ⟨0xBC, .abx, 3, 4, 5⟩]
      (ReadEffect [.y] [.n, .z] (fun m _ t => t.y = m ∧ NZIs m t)) ∧
  RowsRun (fun _ => .lax)
      [.fixed 0xA3 .izx 2 6, .fixed 0xA7 .zp 2 3, .fixed 0xAF .abs 3 4, ⟨0xB3, .izy, 2, 5, 6⟩,
       .fixed 0xB7 .zpy 2 4, ⟨0xBF, .aby, 3, 4, 5⟩]
      (ReadEffect [.a, .x] [.n, .z] (fun m _ t => t.a = m ∧ t.x = m ∧ NZIs m t))

/-- Every form of the four stores, from every state: its words, length and count as its rule's table gives them;
the byte is written once at the effective address, the target is not read, and every other byte, register, flag,
latch and device is unchanged. (R173, R174, R175, R288.) -/
def Obligations.StoresRun : Prop :=
  RowsRun (fun _ => .sta)
      [.fixed 0x81 .izx 2 6, .fixed 0x85 .zp 2 3, .fixed 0x8D .abs 3 4, .fixed 0x91 .izy 2 6,
       .fixed 0x95 .zpx 2 4, .fixed 0x99 .aby 3 5, .fixed 0x9D .abx 3 5]
      (StoreEffect (fun s => s.a)) ∧
  RowsRun (fun _ => .stx)
      [.fixed 0x86 .zp 2 3, .fixed 0x8E .abs 3 4, .fixed 0x96 .zpy 2 4]
      (StoreEffect (fun s => s.x)) ∧
  RowsRun (fun _ => .sty)
      [.fixed 0x84 .zp 2 3, .fixed 0x8C .abs 3 4, .fixed 0x94 .zpx 2 4]
      (StoreEffect (fun s => s.y)) ∧
  RowsRun (fun _ => .sax)
      [.fixed 0x83 .izx 2 6, .fixed 0x87 .zp 2 3, .fixed 0x8F .abs 3 4, .fixed 0x97 .zpy 2 4]
      (StoreEffect (fun s => s.a &&& s.x))

/-- TAX, TAY, TXA, TYA, TSX move the source register to the destination and set N and Z from it; TXS moves X to
SP and writes no flag; two cycles, nothing else changes. The four register increments and decrements: two
cycles, the register one more or one less modulo 256, N and Z set from it, everything else unchanged. (R176,
R177, R178, R179, R180, R181, R216, R217, R218, R219.) -/
def Obligations.RegisterInstructionsRun : Prop :=
  ImpliedRuns .tax 0xAA 2 [.x] [.n, .z] (fun s t => t.x = s.a ∧ NZIs s.a t) ∧
  ImpliedRuns .tay 0xA8 2 [.y] [.n, .z] (fun s t => t.y = s.a ∧ NZIs s.a t) ∧
  ImpliedRuns .txa 0x8A 2 [.a] [.n, .z] (fun s t => t.a = s.x ∧ NZIs s.x t) ∧
  ImpliedRuns .tya 0x98 2 [.a] [.n, .z] (fun s t => t.a = s.y ∧ NZIs s.y t) ∧
  ImpliedRuns .tsx 0xBA 2 [.x] [.n, .z] (fun s t => t.x = s.sp ∧ NZIs s.sp t) ∧
  ImpliedRuns .txs 0x9A 2 [.sp] [] (fun s t => t.sp = s.x) ∧
  ImpliedRuns .inx 0xE8 2 [.x] [.n, .z] (fun s t => t.x = s.x + 1 ∧ NZIs (s.x + 1) t) ∧
  ImpliedRuns .iny 0xC8 2 [.y] [.n, .z] (fun s t => t.y = s.y + 1 ∧ NZIs (s.y + 1) t) ∧
  ImpliedRuns .dex 0xCA 2 [.x] [.n, .z] (fun s t => t.x = s.x - 1 ∧ NZIs (s.x - 1) t) ∧
  ImpliedRuns .dey 0x88 2 [.y] [.n, .z] (fun s t => t.y = s.y - 1 ∧ NZIs (s.y - 1) t)

/-- Every form of the three logic instructions, from every state: words, length and count as the rule's table
gives them; the accumulator becomes the bitwise OR, AND or exclusive OR with the operand byte, N and Z are set
from it, everything else is unchanged. (R190, R191, R192.) -/
def Obligations.LogicRuns : Prop :=
  RowsRun (fun _ => .ora)
      [.fixed 0x01 .izx 2 6, .fixed 0x05 .zp 2 3, .fixed 0x09 .imm 2 2, .fixed 0x0D .abs 3 4,
       ⟨0x11, .izy, 2, 5, 6⟩, .fixed 0x15 .zpx 2 4, ⟨0x19, .aby, 3, 4, 5⟩,
       ⟨0x1D, .abx, 3, 4, 5⟩]
      (ReadEffect [.a] [.n, .z] (fun m s t => t.a = s.a ||| m ∧ NZIs (s.a ||| m) t)) ∧
  RowsRun (fun _ => .and)
      [.fixed 0x21 .izx 2 6, .fixed 0x25 .zp 2 3, .fixed 0x29 .imm 2 2, .fixed 0x2D .abs 3 4,
       ⟨0x31, .izy, 2, 5, 6⟩, .fixed 0x35 .zpx 2 4, ⟨0x39, .aby, 3, 4, 5⟩,
       ⟨0x3D, .abx, 3, 4, 5⟩]
      (ReadEffect [.a] [.n, .z] (fun m s t => t.a = s.a &&& m ∧ NZIs (s.a &&& m) t)) ∧
  RowsRun (fun _ => .eor)
      [.fixed 0x41 .izx 2 6, .fixed 0x45 .zp 2 3, .fixed 0x49 .imm 2 2, .fixed 0x4D .abs 3 4,
       ⟨0x51, .izy, 2, 5, 6⟩, .fixed 0x55 .zpx 2 4, ⟨0x59, .aby, 3, 4, 5⟩,
       ⟨0x5D, .abx, 3, 4, 5⟩]
      (ReadEffect [.a] [.n, .z] (fun m s t => t.a = s.a ^^^ m ∧ NZIs (s.a ^^^ m) t))

/-- Every form of ADC, from every state: words, length and count as the rule's table gives them; V is 1 exactly
when A and the operand have the same sign and the binary sum the other, also in decimal mode; in binary mode A
is the sum modulo 256 and C says the sum exceeds 255; in decimal mode A and C are BcdAdc's; N and Z are the new
accumulator's; everything else is unchanged. Every form of SBC, the second immediate encoding 0xEB among them,
from every state: words, length and count as the rule's table gives them; C is 1 exactly when there is no borrow
and V exactly when A and the operand differ in sign and the binary difference has the operand's sign, also in
decimal mode; in binary mode A is the difference modulo 256, in decimal mode BcdSbc's; N and Z are the new
accumulator's; everything else is unchanged. (R193, R194, R294.) -/
def Obligations.AddAndSubtractRun : Prop :=
  RowsRun (fun _ => .adc)
      [.fixed 0x61 .izx 2 6, .fixed 0x65 .zp 2 3, .fixed 0x69 .imm 2 2, .fixed 0x6D .abs 3 4,
       ⟨0x71, .izy, 2, 5, 6⟩, .fixed 0x75 .zpx 2 4, ⟨0x79, .aby, 3, 4, 5⟩,
       ⟨0x7D, .abx, 3, 4, 5⟩]
      (ReadEffect [.a] [.n, .v, .z, .c] AdcResult) ∧
  RowsRun (fun _ => .sbc)
      [.fixed 0xE1 .izx 2 6, .fixed 0xE5 .zp 2 3, .fixed 0xE9 .imm 2 2, .fixed 0xED .abs 3 4,
       ⟨0xF1, .izy, 2, 5, 6⟩, .fixed 0xF5 .zpx 2 4, ⟨0xF9, .aby, 3, 4, 5⟩,
       ⟨0xFD, .abx, 3, 4, 5⟩]
      (ReadEffect [.a] [.n, .v, .z, .c] SbcResult) ∧
  ImmediateRuns .sbcEB 0xEB [.a] [.n, .v, .z, .c] (fun _ => True) SbcResult

/-- In a configuration with the default correction, for operands whose nibbles are all 0 to 9 and any carry,
BcdAdc returns the two digits of the decimal sum modulo 100 with carry when it exceeds 99, and BcdSbc the two
digits of the decimal difference modulo 100. (42_logic_arithmetic.md R199.) -/
def Obligations.DecimalArithmetic : Prop :=
  ∀ (cfg : Config) (a1 a0 m1 m0 : Nat) (c : Bool),
    a1 ≤ 9 → a0 ≤ 9 → m1 ≤ 9 → m0 ≤ 9 →
    ∀ (a m : Byte), a = BitVec.ofNat 8 (16 * a1 + a0) → m = BitVec.ofNat 8 (16 * m1 + m0) →
    (cfg.bcdAdc = .standard → ∀ n : Nat, n = 10 * a1 + a0 + (10 * m1 + m0) + (if c then 1 else 0) →
      bcdAdc cfg a m c = (BitVec.ofNat 8 (16 * (n % 100 / 10) + n % 10), decide (n > 99))) ∧
    (cfg.bcdSbc = .standard → ∀ n : Nat, n + (10 * m1 + m0) + (if c then 0 else 1) = 10 * a1 + a0 + 100 →
      bcdSbc cfg a m c = BitVec.ofNat 8 (16 * (n % 100 / 10) + n % 10))

/-- Every form of the three compares, from every state: words, length and count as the rule's table gives them;
C says the register is at least the operand, Z that they are equal, N is bit 7 of the difference; V, D and
everything else are unchanged. Both forms of BIT, from every state: words, length and count as the rule's table
gives them; Z says the accumulator and the operand have no common bit, N and V are bits 7 and 6 of the operand,
everything else is unchanged. (R189, R195, R196, R197, R198.) -/
def Obligations.ComparesAndBitRun : Prop :=
  RowsRun (fun _ => .cmp)
      [.fixed 0xC1 .izx 2 6, .fixed 0xC5 .zp 2 3, .fixed 0xC9 .imm 2 2, .fixed 0xCD .abs 3 4,
       ⟨0xD1, .izy, 2, 5, 6⟩, .fixed 0xD5 .zpx 2 4, ⟨0xD9, .aby, 3, 4, 5⟩,
       ⟨0xDD, .abx, 3, 4, 5⟩]
      (ReadEffect [] [.n, .z, .c] (fun m s t => CompareIs s.a m t)) ∧
  RowsRun (fun _ => .cpx)
      [.fixed 0xE0 .imm 2 2, .fixed 0xE4 .zp 2 3, .fixed 0xEC .abs 3 4]
      (ReadEffect [] [.n, .z, .c] (fun m s t => CompareIs s.x m t)) ∧
  RowsRun (fun _ => .cpy)
      [.fixed 0xC0 .imm 2 2, .fixed 0xC4 .zp 2 3, .fixed 0xCC .abs 3 4]
      (ReadEffect [] [.n, .z, .c] (fun m s t => CompareIs s.y m t)) ∧
  RowsRun (fun _ => .bit)
      [.fixed 0x24 .zp 2 3, .fixed 0x2C .abs 3 4]
      (ReadEffect [] [.n, .v, .z] (fun m s t =>
        flag t.p .z = (s.a &&& m == 0) ∧ flag t.p .n = m.getLsbD 7 ∧ flag t.p .v = m.getLsbD 6))

/-- The accumulator form and every memory form of the four shifts and rotates, from every state: words, length
and count as the rule's table gives them; one read and one write of the same address for the memory forms, none
for the accumulator form; the byte moves by one bit with the carry as the rule says, C is the bit shifted out, N
and Z are the result's; everything else is unchanged. (R210, R211, R212, R213.) -/
def Obligations.ShiftsRun : Prop :=
  ImpliedRuns (.asl .acc) 0x0A 2 [.a] [.n, .z, .c] (fun s t =>
      t.a = s.a <<< 1 ∧ flag t.p .c = s.a.getLsbD 7 ∧ NZIs (s.a <<< 1) t) ∧
  RowsRun (fun _ o => .asl (.mem o))
      [.fixed 0x06 .zp 2 5, .fixed 0x0E .abs 3 6, .fixed 0x16 .zpx 2 6, .fixed 0x1E .abx 3 7]
      (RmwEffect [] [.n, .z, .c] (fun v _ => v <<< 1)
        (fun v _ t => flag t.p .c = v.getLsbD 7 ∧ NZIs (v <<< 1) t)) ∧
  ImpliedRuns (.lsr .acc) 0x4A 2 [.a] [.n, .z, .c] (fun s t =>
      t.a = s.a >>> 1 ∧ flag t.p .c = s.a.getLsbD 0 ∧ flag t.p .n = false ∧ flag t.p .z = (s.a >>> 1 == 0)) ∧
  RowsRun (fun _ o => .lsr (.mem o))
      [.fixed 0x46 .zp 2 5, .fixed 0x4E .abs 3 6, .fixed 0x56 .zpx 2 6, .fixed 0x5E .abx 3 7]
      (RmwEffect [] [.n, .z, .c] (fun v _ => v >>> 1)
        (fun v _ t => flag t.p .c = v.getLsbD 0 ∧ flag t.p .n = false ∧ flag t.p .z = (v >>> 1 == 0))) ∧
  ImpliedRuns (.rol .acc) 0x2A 2 [.a] [.n, .z, .c] (fun s t =>
      t.a = s.a <<< 1 ||| (if flag s.p .c then 0x01 else 0x00) ∧ flag t.p .c = s.a.getLsbD 7 ∧ NZIs (s.a <<< 1 ||| (if flag s.p .c then 0x01 else 0x00)) t) ∧
  RowsRun (fun _ o => .rol (.mem o))
      [.fixed 0x26 .zp 2 5, .fixed 0x2E .abs 3 6, .fixed 0x36 .zpx 2 6, .fixed 0x3E .abx 3 7]
      (RmwEffect [] [.n, .z, .c] (fun v s => v <<< 1 ||| (if flag s.p .c then 0x01 else 0x00))
        (fun v s t => flag t.p .c = v.getLsbD 7 ∧ NZIs (v <<< 1 ||| (if flag s.p .c then 0x01 else 0x00)) t)) ∧
  ImpliedRuns (.ror .acc) 0x6A 2 [.a] [.n, .z, .c] (fun s t =>
      t.a = s.a >>> 1 ||| (if flag s.p .c then 0x80 else 0x00) ∧ flag t.p .c = s.a.getLsbD 0 ∧ NZIs (s.a >>> 1 ||| (if flag s.p .c then 0x80 else 0x00)) t) ∧
  RowsRun (fun _ o => .ror (.mem o))
      [.fixed 0x66 .zp 2 5, .fixed 0x6E .abs 3 6, .fixed 0x76 .zpx 2 6, .fixed 0x7E .abx 3 7]
      (RmwEffect [] [.n, .z, .c] (fun v s => v >>> 1 ||| (if flag s.p .c then 0x80 else 0x00))
        (fun v s t => flag t.p .c = v.getLsbD 0 ∧ NZIs (v >>> 1 ||| (if flag s.p .c then 0x80 else 0x00)) t))

/-- Every form of INC and DEC, from every state: words, length and count as the rule's table gives them; one
read and one write of the same address; the byte is one more or one less modulo 256, N and Z are the result's, C
and everything else unchanged. (R214, R215.) -/
def Obligations.MemoryIncDecRuns : Prop :=
  RowsRun (fun _ => .inc)
      [.fixed 0xE6 .zp 2 5, .fixed 0xEE .abs 3 6, .fixed 0xF6 .zpx 2 6, .fixed 0xFE .abx 3 7]
      (RmwEffect [] [.n, .z] (fun m _ => m + 1) (fun m _ t => NZIs (m + 1) t)) ∧
  RowsRun (fun _ => .dec)
      [.fixed 0xC6 .zp 2 5, .fixed 0xCE .abs 3 6, .fixed 0xD6 .zpx 2 6, .fixed 0xDE .abx 3 7]
      (RmwEffect [] [.n, .z] (fun m _ => m - 1) (fun m _ t => NZIs (m - 1) t))

/-- Each branch, with every displacement and from every state: its words; taken exactly when its flag has its
value, to pc + 2 plus the signed displacement in 3 cycles, else to pc + 2 in 2; no flag, register, byte or
device changes. (R230, R231, R232, R233, R234, R235, R236, R237, R238.) -/
def Obligations.BranchesRun : Prop :=
  BranchRuns .bpl 0x10 .n false ∧ BranchRuns .bmi 0x30 .n true ∧
  BranchRuns .bvc 0x50 .v false ∧ BranchRuns .bvs 0x70 .v true ∧
  BranchRuns .bcc 0x90 .c false ∧ BranchRuns .bcs 0xB0 .c true ∧
  BranchRuns .bne 0xD0 .z false ∧ BranchRuns .beq 0xF0 .z true

/-- JMP goes to the 16-bit operand in 3 cycles without another access; JMP through a pointer reads the pointer's
two bytes, low first, the high byte in the same page when JMP_IND_PAGE_WRAP, and goes there in 5; nothing else
changes. (R239, R240.) -/
def Obligations.JumpsRun : Prop :=
  ∀ (b1 b2 : Byte) (s : State),
    (Encoded (.jmp (joinBytes b2 b1)) [0x4C, b1, b2] ∧
      ∃ t, exec (.jmp (joinBytes b2 b1)) s = .next t ∧ t.pc = joinBytes b2 b1 ∧ t.outcome = some (.cycles 3) ∧
        RestKept s t ∧ NoAccess s t ∧ NothingStored s t ∧ RegsKept [] s t ∧ t.p = s.p) ∧
    (Encoded (.jmpInd (joinBytes b2 b1)) [0x6C, b1, b2] ∧
      ∀ lo hi : Byte × State, lo = busRead (joinBytes b2 b1) s →
        hi = busRead (if s.cfg.jmpIndPageWrap then joinBytes b2 (b1 + 1) else joinBytes b2 b1 + 1) lo.2 →
        ∃ t, exec (.jmpInd (joinBytes b2 b1)) s = .next t ∧ t.pc = joinBytes hi.1 lo.1 ∧
          t.outcome = some (.cycles 5) ∧ t.bus = hi.2.bus ∧ OutsideIs hi.2 t ∧ RestKept s t ∧
          NothingStored s t ∧ RegsKept [] s t ∧ t.p = s.p)

/-- JSR pushes the address of its own last byte, high byte first, and goes to its operand in 6 cycles; RTS with
SP not at SP_RESET pulls an address, low byte first, and goes to the one after it in 6 cycles; with SP at
SP_RESET RTS changes nothing and reports SubroutineDone. No register but SP, no flag and no other byte changes.
(R241, R242, R265.) -/
def Obligations.SubroutinesRun : Prop :=
  ∀ (b1 b2 : Byte) (s : State),
    (Encoded (.jsr (joinBytes b2 b1)) [0x20, b1, b2] ∧
      ∀ u : State, u = busWrite (stackSlot s 1) (loByte (s.pc + 2)) (busWrite (stackSlot s 0) (hiByte (s.pc + 2)) s) →
        ∃ t, exec (.jsr (joinBytes b2 b1)) s = .next t ∧ t.pc = joinBytes b2 b1 ∧ t.outcome = some (.cycles 6) ∧
          t.sp = s.sp - 2 ∧ t.bus = u.bus ∧ OutsideIs u t ∧ t.mem = u.mem ∧ t.sid = u.sid ∧
          t.raster = u.raster ∧ RestKept s t ∧ RegsKept [.sp] s t ∧ t.p = s.p ∧
          (∀ b, b ≠ stackSlot s 0 → b ≠ stackSlot s 1 → t.stored b = s.stored b ∧ t.mem.read b = s.mem.read b)) ∧
    Encoded .rts [0x60] ∧
    (s.sp ≠ s.cfg.spReset →
      ∀ lo hi : Byte × State, lo = busRead (s.cfg.stackBase + zeroPage (s.sp + 1)) s →
        hi = busRead (s.cfg.stackBase + zeroPage (s.sp + 2)) lo.2 →
        ∃ t, exec .rts s = .next t ∧ t.pc = joinBytes hi.1 lo.1 + 1 ∧ t.outcome = some (.cycles 6) ∧
          t.sp = s.sp + 2 ∧ t.bus = hi.2.bus ∧ OutsideIs hi.2 t ∧ RestKept s t ∧ NothingStored s t ∧
          RegsKept [.sp] s t ∧ t.p = s.p) ∧
    (s.sp = s.cfg.spReset → exec .rts s = .next { s with outcome := some .subroutineDone })

/-- With memory in canonical form answering at the two stack bytes and a stack that the call does not leave at
SP_RESET, RTS executed in the state JSR leaves goes to the address after the JSR with SP, the other registers
and the flags as before the call. (44_branch_jump.md R241, R242.) -/
def Obligations.CallThenReturn : Prop :=
  ∀ (target : Addr) (s t : State), s.mem.wf = true → s.target (stackSlot s 0) = .ram →
    s.target (stackSlot s 1) = .ram → s.sp - 2 ≠ s.cfg.spReset → exec (.jsr target) s = .next t →
    ∃ u, exec .rts t = .next u ∧ u.pc = s.pc + 3 ∧ RegsKept [] s u ∧ u.p = s.p ∧ RestKept s u

/-- PHA and PHP push A and all eight bits of P in 3 cycles and change only SP and the byte; PLA pulls A and sets
N and Z from it, PLP pulls all eight bits of P, in 4 cycles, changing nothing else but SP. (R250, R251, R252,
R253.) -/
def Obligations.PushesAndPullsRun : Prop :=
  Encoded .pha [0x48] ∧ Encoded .php [0x08] ∧ Encoded .pla [0x68] ∧ Encoded .plp [0x28] ∧
  ∀ s : State,
    (∃ t, exec .pha s = .next t ∧ Advanced 1 3 s t ∧ RestKept s t ∧ Pushed s.a s t) ∧
    (∃ t, exec .php s = .next t ∧ Advanced 1 3 s t ∧ RestKept s t ∧ Pushed s.p s t) ∧
    (∃ t, exec .pla s = .next t ∧ Advanced 1 4 s t ∧ RestKept s t ∧ t.sp = s.sp + 1 ∧ t.a = pulledByte s ∧
      NZIs (pulledByte s) t ∧ RegsKept [.a, .sp] s t ∧ FlagsKept [.n, .z] s t ∧ NothingStored s t ∧
      t.bus = s.bus ++ [.read (s.cfg.stackBase + zeroPage (s.sp + 1)) (pulledByte s)] ∧
      OutsideIs (busRead (s.cfg.stackBase + zeroPage (s.sp + 1)) s).2 t) ∧
    (∃ t, exec .plp s = .next t ∧ Advanced 1 4 s t ∧ RestKept s t ∧ t.sp = s.sp + 1 ∧ t.p = pulledByte s ∧
      RegsKept [.sp] s t ∧ NothingStored s t ∧
      t.bus = s.bus ++ [.read (s.cfg.stackBase + zeroPage (s.sp + 1)) (pulledByte s)] ∧
      OutsideIs (busRead (s.cfg.stackBase + zeroPage (s.sp + 1)) s).2 t)

/-- CLC, SEC, CLI, SEI, CLV, CLD and SED write their one flag in two cycles and change nothing else. (R254,
R255, R256, R257, R258, R259, R260.) -/
def Obligations.FlagInstructionsRun : Prop :=
  FlagRuns .clc 0x18 .c false ∧ FlagRuns .sec 0x38 .c true ∧ FlagRuns .cli 0x58 .i false ∧
  FlagRuns .sei 0x78 .i true ∧ FlagRuns .clv 0xB8 .v false ∧ FlagRuns .cld 0xD8 .d false ∧
  FlagRuns .sed 0xF8 .d true

/-- NOP and the six undocumented implied NOPs only move pc in two cycles; the five immediate NOPs discard the
operand byte; the sixteen NOPs with a memory operand read it once and discard it, with the count of their mode;
nothing else changes. (R261, R296, R297, R298.) -/
def Obligations.NopsRun : Prop :=
  ImpliedRuns .nop 0xEA 2 [] [] (fun _ _ => True) ∧
  (∀ code ∈ [0x1A, 0x3A, 0x5A, 0x7A, 0xDA, 0xFA],
    ImpliedRuns (.nopImplied code) code 2 [] [] (fun _ _ => True)) ∧
  (∀ code ∈ [0x80, 0x82, 0x89, 0xC2, 0xE2],
    ImmediateRuns (.nopImm code) code [] [] (fun _ => True) (fun _ s t => t.draws = s.draws)) ∧
  RowsRun .nopMem
      [.fixed 0x04 .zp 2 3, .fixed 0x44 .zp 2 3, .fixed 0x64 .zp 2 3, .fixed 0x14 .zpx 2 4,
       .fixed 0x34 .zpx 2 4, .fixed 0x54 .zpx 2 4, .fixed 0x74 .zpx 2 4, .fixed 0xD4 .zpx 2 4,
       .fixed 0xF4 .zpx 2 4, .fixed 0x0C .abs 3 4, ⟨0x1C, .abx, 3, 4, 5⟩, ⟨0x3C, .abx, 3, 4, 5⟩,
       ⟨0x5C, .abx, 3, 4, 5⟩, ⟨0x7C, .abx, 3, 4, 5⟩, ⟨0xDC, .abx, 3, 4, 5⟩, ⟨0xFC, .abx, 3, 4, 5⟩]
      (ReadEffect [] [] (fun _ _ _ => True))

/-- BRK pushes pc + 2, high byte first, and P with B set, sets I, goes to the IRQ vector's address in 7 cycles,
leaves the live B and D and every other register, flag and byte, the NMI latch and the lines as they are,
whatever I and the lines are. With SP not at SP_RESET, RTI pulls all eight bits of P, then pc low and high, in 6
cycles, and changes nothing else but SP; with SP at SP_RESET it changes nothing and reports Idle. (R262, R263,
R266.) -/
def Obligations.BreakAndReturnRun : Prop :=
  Encoded .brk [0x00] ∧
  (∀ s : State, ∃ t, exec .brk s = .next t ∧ t.outcome = some (.cycles 7) ∧ RestKept s t ∧
    Entered (s.pc + 2) (s.p ||| 0x10) s.cfg.irqVector s t) ∧
  Encoded .rti [0x40] ∧
  ∀ s : State,
    (s.sp ≠ s.cfg.spReset →
      ∀ st lo hi : Byte × State, st = busRead (s.cfg.stackBase + zeroPage (s.sp + 1)) s →
        lo = busRead (s.cfg.stackBase + zeroPage (s.sp + 2)) st.2 →
        hi = busRead (s.cfg.stackBase + zeroPage (s.sp + 3)) lo.2 →
        ∃ t, exec .rti s = .next t ∧ t.pc = joinBytes hi.1 lo.1 ∧ t.p = st.1 ∧ t.sp = s.sp + 3 ∧
          t.outcome = some (.cycles 6) ∧ t.bus = hi.2.bus ∧ OutsideIs hi.2 t ∧ RestKept s t ∧
          NothingStored s t ∧ RegsKept [.sp] s t) ∧
    (s.sp = s.cfg.spReset → exec .rti s = .next { s with outcome := some .idle })

/-- Every form, from every state: words, length and count as the rule's table gives them; one read and one write
of the same address; memory is shifted or rotated, A is ORed, ANDed or exclusive-ORed with the result, C is the
bit shifted out, N and Z are the new A's; everything else is unchanged. Every form, from every state: words,
length and count as the rule's table gives them; one read and one write of the same address; RRA rotates memory
right and adds the result with the carry shifted out, as ADC does; DCP decrements memory and compares A with the
result; ISC increments memory and subtracts the result, as SBC does; everything else is unchanged. (R282, R283,
R284, R285, R286, R287.) -/
def Obligations.CombinedInstructionsRun : Prop :=
  RowsRun (fun _ => .slo)
      [.fixed 0x03 .izx 2 8, .fixed 0x07 .zp 2 5, .fixed 0x0F .abs 3 6, .fixed 0x13 .izy 2 8,
       .fixed 0x17 .zpx 2 6, .fixed 0x1B .aby 3 7, .fixed 0x1F .abx 3 7]
      (RmwEffect [.a] [.n, .z, .c] (fun m _ => m <<< 1)
        (fun m s t => t.a = s.a ||| m <<< 1 ∧ flag t.p .c = m.getLsbD 7 ∧ NZIs t.a t)) ∧
  RowsRun (fun _ => .rla)
      [.fixed 0x23 .izx 2 8, .fixed 0x27 .zp 2 5, .fixed 0x2F .abs 3 6, .fixed 0x33 .izy 2 8,
       .fixed 0x37 .zpx 2 6, .fixed 0x3B .aby 3 7, .fixed 0x3F .abx 3 7]
      (RmwEffect [.a] [.n, .z, .c] (fun m s => m <<< 1 ||| (if flag s.p .c then 0x01 else 0x00))
        (fun m s t => t.a = s.a &&& (m <<< 1 ||| (if flag s.p .c then 0x01 else 0x00)) ∧
          flag t.p .c = m.getLsbD 7 ∧ NZIs t.a t)) ∧
  RowsRun (fun _ => .sre)
      [.fixed 0x43 .izx 2 8, .fixed 0x47 .zp 2 5, .fixed 0x4F .abs 3 6, .fixed 0x53 .izy 2 8,
       .fixed 0x57 .zpx 2 6, .fixed 0x5B .aby 3 7, .fixed 0x5F .abx 3 7]
      (RmwEffect [.a] [.n, .z, .c] (fun m _ => m >>> 1)
        (fun m s t => t.a = s.a ^^^ m >>> 1 ∧ flag t.p .c = m.getLsbD 0 ∧ NZIs t.a t)) ∧
  RowsRun (fun _ => .rra)
      [.fixed 0x63 .izx 2 8, .fixed 0x67 .zp 2 5, .fixed 0x6F .abs 3 6, .fixed 0x73 .izy 2 8,
       .fixed 0x77 .zpx 2 6, .fixed 0x7B .aby 3 7, .fixed 0x7F .abx 3 7]
      (RmwEffect [.a] [.n, .v, .z, .c] (fun m s => m >>> 1 ||| (if flag s.p .c then 0x80 else 0x00))
        (fun m s t =>
          ∀ r : Byte, r = m >>> 1 ||| (if flag s.p .c then 0x80 else 0x00) →
          AdcResult r { s with p := setFlag s.p .c (m.getLsbD 0) } t)) ∧
  RowsRun (fun _ => .dcp)
      [.fixed 0xC3 .izx 2 8, .fixed 0xC7 .zp 2 5, .fixed 0xCF .abs 3 6, .fixed 0xD3 .izy 2 8,
       .fixed 0xD7 .zpx 2 6, .fixed 0xDB .aby 3 7, .fixed 0xDF .abx 3 7]
      (RmwEffect [] [.n, .z, .c] (fun m _ => m - 1) (fun m s t => CompareIs s.a (m - 1) t)) ∧
  RowsRun (fun _ => .isc)
      [.fixed 0xE3 .izx 2 8, .fixed 0xE7 .zp 2 5, .fixed 0xEF .abs 3 6, .fixed 0xF3 .izy 2 8,
       .fixed 0xF7 .zpx 2 6, .fixed 0xFB .aby 3 7, .fixed 0xFF .abx 3 7]
      (RmwEffect [.a] [.n, .v, .z, .c] (fun m _ => m + 1) (fun m s t => SbcResult (m + 1) s t))

/-- Each of the twelve JAM opcodes sets jammed, leaves pc at its own address and everything else as it is, and
reports Jammed. In a jammed state, with no host event in the round and a configuration of the domain, a step
answers a next state with the outcome Jammed, no bus access, no interrupt taken, and every register, flag,
latch, byte and device as before. (46_undocumented.md R280, 60_exceptions.md R434, R452.) -/
def Obligations.JammedIsStuck : Prop :=
  (∀ code ∈ [0x02, 0x12, 0x22, 0x32, 0x42, 0x52, 0x62, 0x72, 0x92, 0xB2, 0xD2, 0xF2],
    Encoded (.jam code) [code] ∧
    ∀ s : State, exec (.jam code) s = .next { s with jammed := true, outcome := some .jammed }) ∧
  (∀ s : State, s.jammed = true → s.pending.headI = [] → inDomain s.cfg = true →
    ∃ t, step s = .next t ∧ t.outcome = some .jammed ∧ t.bus = [] ∧ t.taken = false ∧ t.jammed = true ∧
      t.pc = s.pc ∧ t.p = s.p ∧ RegsKept [] s t ∧ t.prevNmi = s.prevNmi ∧ NothingStored s t ∧
      OutsideIs s t ∧ t.cfg = s.cfg ∧ t.nmiLevel = s.nmiLevel ∧ t.extIrq = s.extIrq ∧ t.requests = s.requests ∧
      t.sums = s.sums ∧ t.pairs = [] ∧ t.samples = [])

/-- From every state, ARR from every state with P.D = 0: ANC ANDs and copies bit 7 to C; ALR ANDs and shifts
right; ARR ANDs and rotates right with C from bit 6 and V from bits 6 and 5 of the result; SBX leaves A and X
less the operand in X with the carry of a compare; LAS leaves the operand and SP in A, X and SP, with one cycle
more on a page crossing; N and Z are the result's; everything else is unchanged. (46_undocumented.md R290 to
R293, R295.) -/
def Obligations.ImmediateCombinationsRun : Prop :=
  (∀ code ∈ [0x0B, 0x2B], ImmediateRuns (.anc code) code [.a] [.n, .z, .c] (fun _ => True) (fun m s t =>
      t.draws = s.draws ∧ t.a = s.a &&& m ∧ NZIs t.a t ∧ flag t.p .c = t.a.msb)) ∧
  ImmediateRuns .alr 0x4B [.a] [.n, .z, .c] (fun _ => True) (fun m s t =>
      t.draws = s.draws ∧ t.a = (s.a &&& m) >>> 1 ∧ flag t.p .c = (s.a &&& m).getLsbD 0 ∧
      flag t.p .n = false ∧ flag t.p .z = (t.a == 0)) ∧
  ImmediateRuns .arr 0x6B [.a] [.n, .v, .z, .c] (fun s => flag s.p .d = false) (fun m s t =>
      t.draws = s.draws ∧ t.a = (s.a &&& m) >>> 1 ||| (if flag s.p .c then 0x80 else 0x00) ∧ NZIs t.a t ∧
      flag t.p .c = t.a.getLsbD 6 ∧ flag t.p .v = (t.a.getLsbD 6 ^^ t.a.getLsbD 5)) ∧
  ImmediateRuns .sbx 0xCB [.x] [.n, .z, .c] (fun _ => True) (fun m s t =>
      t.draws = s.draws ∧ t.x = (s.a &&& s.x) - m ∧ NZIs t.x t ∧
      flag t.p .c = decide (m.toNat ≤ (s.a &&& s.x).toNat)) ∧
  (∀ (b1 b2 : Byte) (s : State), Encoded (.las (joinBytes b2 b1)) [0xBB, b1, b2] ∧
    ∃ t, exec (.las (joinBytes b2 b1)) s = .next t ∧
      Advanced 3 (if (locate (.aby (joinBytes b2 b1)) s).1.crossed then 5 else 4) s t ∧ RestKept s t ∧
      ReadEffect [.a, .x, .sp] [.n, .z] (fun m s t => t.a = m &&& s.sp ∧ t.x = m &&& s.sp ∧ t.sp = m &&& s.sp ∧
        NZIs (m &&& s.sp) t) (.aby (joinBytes b2 b1)) s t)

/-- With UNSTABLE_ADMITTED, ANE leaves (A or MAGIC) and X and the operand in A, and LXA leaves (A or MAGIC) and
the operand in A and X, for the free value MAGIC drawn at this execution (log 5), whatever it is; N and Z are
the result's; everything else is unchanged. With UNSTABLE_ADMITTED, each stores its register value ANDed with
one more than the high byte of the unindexed address, at the effective address, whose high byte that value
replaces when a page was crossed; TAS first sets SP to A AND X; lengths and counts of a write; no flag, no other
register and no other byte changes. (46_undocumented.md R299 to R301, log 5, 46_undocumented.md R299, R302 to
R305.) -/
def Obligations.UnstableInstructionsRun : Prop :=
  ImmediateRuns .ane 0x8B [.a] [.n, .z] (fun s => s.cfg.unstableAdmitted = true) (fun m s t =>
      t.draws = s.draws + 1 ∧ t.a = (s.a ||| Config.draw s.draws) &&& s.x &&& m ∧ NZIs t.a t ∧
      (m = 0 → t.a = 0)) ∧
  ImmediateRuns .lxa 0xAB [.a, .x] [.n, .z] (fun s => s.cfg.unstableAdmitted = true) (fun m s t =>
      t.draws = s.draws + 1 ∧ t.a = (s.a ||| Config.draw s.draws) &&& m ∧ t.x = t.a ∧ NZIs t.a t) ∧
  (∀ (b1 b2 : Byte) (s : State), s.cfg.unstableAdmitted = true →
    (Encoded (.sha (.izy b1)) [0x93, b1] ∧ ∃ t, exec (.sha (.izy b1)) s = .next t ∧ Advanced 2 6 s t ∧
      RestKept s t ∧
      MaskedStoreEffect [] (s.a &&& s.x &&& ((locate (.izy b1) s).1.baseHi + 1)) (.izy b1) s t) ∧
    (Encoded (.sha (.aby (joinBytes b2 b1))) [0x9F, b1, b2] ∧
      ∃ t, exec (.sha (.aby (joinBytes b2 b1))) s = .next t ∧ Advanced 3 5 s t ∧ RestKept s t ∧
      MaskedStoreEffect [] (s.a &&& s.x &&& (b2 + 1)) (.aby (joinBytes b2 b1)) s t) ∧
    (Encoded (.shx (joinBytes b2 b1)) [0x9E, b1, b2] ∧
      ∃ t, exec (.shx (joinBytes b2 b1)) s = .next t ∧ Advanced 3 5 s t ∧ RestKept s t ∧
      MaskedStoreEffect [] (s.x &&& (b2 + 1)) (.aby (joinBytes b2 b1)) s t) ∧
    (Encoded (.shy (joinBytes b2 b1)) [0x9C, b1, b2] ∧
      ∃ t, exec (.shy (joinBytes b2 b1)) s = .next t ∧ Advanced 3 5 s t ∧ RestKept s t ∧
      MaskedStoreEffect [] (s.y &&& (b2 + 1)) (.abx (joinBytes b2 b1)) s t) ∧
    (Encoded (.tas (joinBytes b2 b1)) [0x9B, b1, b2] ∧
      ∃ t, exec (.tas (joinBytes b2 b1)) s = .next t ∧ Advanced 3 5 s t ∧ RestKept s t ∧ t.sp = s.a &&& s.x ∧
      MaskedStoreEffect [.sp] (s.a &&& s.x &&& (b2 + 1)) (.aby (joinBytes b2 b1)) s t))

/-- For every instruction and state: V changes only by ADC, SBC in both encodings, RRA, ISC, ARR, BIT, CLV, PLP
and RTI; U and B only by PLP and RTI; D only by SED, CLD, PLP and RTI; I only by SEI, CLI, BRK, PLP and RTI.
(10_state.md R27 to R31.) -/
def Obligations.FlagWriters : Prop :=
  ∀ (i : Instr) (s t : State), exec i s = .next t →
    (flag t.p .v ≠ flag s.p .v → (∃ o, i = .adc o ∨ i = .sbc o ∨ i = .rra o ∨ i = .isc o ∨ i = .bit o) ∨
      (∃ m, i = .sbcEB m ∨ i = .arr m) ∨ i = .clv ∨ i = .plp ∨ i = .rti) ∧
    (flag t.p .u ≠ flag s.p .u ∨ flag t.p .b ≠ flag s.p .b → i = .plp ∨ i = .rti) ∧
    (flag t.p .d ≠ flag s.p .d → i = .sed ∨ i = .cld ∨ i = .plp ∨ i = .rti) ∧
    (flag t.p .i ≠ flag s.p .i → i = .sei ∨ i = .cli ∨ i = .brk ∨ i = .plp ∨ i = .rti)

/-- Not jammed: when the NMI level is above the latch, the NMI vector is entered; else when the line is asserted
and I is 0, the IRQ vector is entered; else nothing is entered. The pushed address is pc, the pushed status is P
as it stands (with I forced in when so configured), and the latch takes the level in every case; jammed: nothing
changes. That the timer's request stays on the line while REAL_HW_MODE is false is the model's choice (log 24).
(60_exceptions.md R424 to R426, R429, R434, R444, log 24.) -/
def Obligations.InterruptsAreServiced : Prop :=
  ∀ s t : State, t = serviceInterrupts s →
    t.jammed = s.jammed ∧ t.cfg = s.cfg ∧ t.outcome = s.outcome ∧ t.nmiLevel = s.nmiLevel ∧ t.extIrq = s.extIrq ∧
    t.pending = s.pending ∧ t.requests = s.requests ∧ t.sums = s.sums ∧ t.pairs = s.pairs ∧ t.samples = s.samples ∧
    (s.jammed = true → t = { s with taken := false }) ∧
    (s.jammed = false → t.prevNmi = s.nmiLevel ∧
      ∀ status : Byte, status = (if s.cfg.irqPushIForced then s.p ||| 0x04 else s.p) →
      (s.prevNmi < s.nmiLevel → t.taken = true ∧ Entered s.pc status s.cfg.nmiVector s t) ∧
      (s.nmiLevel ≤ s.prevNmi → s.raster.irq = true ∨ s.extIrq = true → flag s.p .i = false →
        t.taken = true ∧ Entered s.pc status s.cfg.irqVector s t) ∧
      (s.nmiLevel ≤ s.prevNmi → (s.raster.irq = false ∧ s.extIrq = false) ∨ flag s.p .i = true →
        t = { s with taken := false, prevNmi := s.nmiLevel }))

/-- With memory in canonical form answering at the three stack bytes, the default status push, and a stack that
the entry does not leave at SP_RESET, RTI executed in the state an interrupt entry leaves restores pc, P with
its I, SP and the other registers. (60_exceptions.md R429, R430.) -/
def Obligations.InterruptThenReturn : Prop :=
  ∀ (vector : Addr) (s : State), s.mem.wf = true → s.target (stackSlot s 0) = .ram →
    s.target (stackSlot s 1) = .ram → s.target (stackSlot s 2) = .ram → s.cfg.irqPushIForced = false →
    s.sp - 3 ≠ s.cfg.spReset →
    ∃ u, exec .rti (enterInterrupt vector s) = .next u ∧ u.pc = s.pc ∧ u.p = s.p ∧ RegsKept [] s u ∧ RestKept s u

/-- With a positive row length: an advance that does not reach the row length only adds to the accumulator; one
that does is one passage to the next row followed by the advance of the rest; advancing by a and then by b is
advancing by a + b when the accumulator is in range. (60_exceptions.md R441, 93_implementation_defined.md U23.) -/
def Obligations.RasterLoop : Prop :=
  ∀ (cfg : Config) (r : Raster) (a b n : Nat), 1 ≤ cfg.cyclesPerRow →
    (r.acc + n < cfg.cyclesPerRow → r.advance cfg n = { r with acc := r.acc + n }) ∧
    (cfg.cyclesPerRow ≤ r.acc + n →
      r.advance cfg n =
        ({ r.rowTick cfg.rowsTotal with acc := r.acc + n - cfg.cyclesPerRow } : Raster).advance cfg 0) ∧
    (r.advance cfg a).advance cfg b = r.advance cfg (a + b)

/-- In a configuration of the domain, from reset, after any list of advances the row is the total number of
cycles divided by CYCLES_PER_ROW, modulo ROWS_TOTAL, and the accumulator is the remainder. (60_exceptions.md
R447.) -/
def Obligations.RasterRowAfterTime : Prop :=
  ∀ (cfg : Config) (ns : List Nat) (r : Raster), inDomain cfg = true →
    r = ns.foldl (fun r n => r.advance cfg n) Raster.reset →
    r.row.toNat = ns.sum / cfg.cyclesPerRow % cfg.rowsTotal ∧ r.acc = ns.sum % cfg.cyclesPerRow

/-- In a configuration of the domain and with the row in range, after an advance the request bit is set exactly
when it was set before, or the match is enabled and the row passed onto the compare row; so with the match
enabled and a compare row in range it is set within ROWS_TOTAL times CYCLES_PER_ROW cycles; and no bus write
sets it, nor the match bit. (60_exceptions.md R442, R443, R447.) -/
def Obligations.RasterRequest : Prop :=
  (∀ (cfg : Config) (r : Raster) (n : Nat), inDomain cfg = true → r.row.toNat < cfg.rowsTotal →
      ((r.advance cfg n).irq = true ↔ r.irq = true ∨ (r.enable.getLsbD 0 = true ∧
        ∃ k, 1 ≤ k ∧ k ≤ (r.acc + n) / cfg.cyclesPerRow ∧ (r.row.toNat + k) % cfg.rowsTotal = r.cmp.toNat))) ∧
  (∀ (cfg : Config) (r : Raster) (n : Nat), inDomain cfg = true → r.row.toNat < cfg.rowsTotal →
      r.enable.getLsbD 0 = true → r.cmp.toNat < cfg.rowsTotal → cfg.rowsTotal * cfg.cyclesPerRow ≤ n →
      (r.advance cfg n).irq = true ∧ (r.advance cfg n).matched = true) ∧
  (∀ (a : Addr) (v : Byte) (s : State),
      ((busWrite a v s).raster.irq = true → s.raster.irq = true) ∧
      ((busWrite a v s).raster.matched = true → s.raster.matched = true))

/-- An advance steps the envelope and then the oscillator of channels 0, 1 and 2 in this order, channel 0 with
the two bits channel 2 left in the last advance, 1 with those channel 0 has just left, 2 with channel 1's; it
leaves channel 2's bits (an advance of 0 cycles leaves the rise of the last one, log 29), returns the three
channels' routed sums, and touches no register and no filter or volume state. A channel's sample is its waveform
less 2048 times its level, between -522240 and 521985; it goes to the filter sum when its routing bit is set,
else to the direct sum unless it is channel 2 with the mute bit set; nothing else is added anywhere.
(47_sid_oscillator.md R331, R342, R345, 49_sid_filter_mixer.md R391, R392, log 29.) -/
def Obligations.SoundAdvanceAndRouting : Prop :=
  (∀ (cfg : Config) (n : Nat) (t : Sid) (c0 c1 c2 : Channel × Carried),
    c0 = oscStep cfg t 0 n ⟨t.syncRise, t.ringMsb⟩ (envStep cfg t 0 n t.ch[0]) →
    c1 = oscStep cfg t 1 n c0.2 (envStep cfg t 1 n t.ch[1]) →
    c2 = oscStep cfg t 2 n c1.2 (envStep cfg t 2 n t.ch[2]) →
    (sidAdvance cfg n t).1.ch[0] = c0.1 ∧ (sidAdvance cfg n t).1.ch[1] = c1.1 ∧
    (sidAdvance cfg n t).1.ch[2] = c2.1 ∧ (sidAdvance cfg n t).1.syncRise = c2.2.syncRise ∧
    (sidAdvance cfg n t).1.ringMsb = c2.2.ringMsb ∧
    (1 ≤ n → c2.2.syncRise = (!c2.1.prevPhase.getLsbD 23 && c2.1.phase.getLsbD 23)) ∧
    (n = 0 → c2.2.syncRise = t.syncRise) ∧
    c2.2.ringMsb = c2.1.phase.getLsbD 23 ∧
    (sidAdvance cfg n t).2 = route t 2 c2.1 (route t 1 c1.1 (route t 0 c0.1 (0, 0))) ∧
    (sidAdvance cfg n t).1.regs = t.regs ∧ (sidAdvance cfg n t).1.lp = t.lp ∧ (sidAdvance cfg n t).1.bp = t.bp ∧
    (sidAdvance cfg n t).1.volSmooth = t.volSmooth) ∧
  (∀ (t : Sid) (c : Fin 3) (ch : Channel) (sums : Int × Int),
    channelSample ch = (ch.waveOut.toNat - 2048) * ch.envLevel.toNat ∧
    -522240 ≤ channelSample ch ∧ channelSample ch ≤ 521985 ∧
    (ch.envLevel = 0 → channelSample ch = 0) ∧ (ch.waveOut = 2048 → channelSample ch = 0) ∧
    (t.regs[0x17].getLsbD c.val = true → route t c ch sums = (sums.1 + channelSample ch, sums.2)) ∧
    (t.regs[0x17].getLsbD c.val = false → ¬ (c = 2 ∧ t.regs[0x18].getLsbD 7 = true) →
      route t c ch sums = (sums.1, sums.2 + channelSample ch)) ∧
    (t.regs[0x17].getLsbD 2 = false → t.regs[0x18].getLsbD 7 = true → route t 2 ch sums = sums))

/-- One oscillator step of at least one cycle: the old phase is kept as the previous one; the new phase is 0 on
a sync reset or under the test bit, else the old one plus FREQ times n modulo 2^24; the noise register is all
ones under the test bit, is clocked once when the clock bit toggled, with bits 22 and 17 XORed into bit 0, and
else stands; the carried rise is the MSB's. A step of 0 cycles leaves the two phases, the noise register and the
carried rise as they are (log 29). Always the other carried bit is the MSB, and the envelope fields are
untouched. (47_sid_oscillator.md R332 to R334, R342, R345, log 29.) -/
def Obligations.OscillatorSteps : Prop :=
  ∀ (cfg : Config) (t : Sid) (c : Fin 3) (n : Nat) (k : Carried) (ch : Channel) (r : Channel × Carried),
    r = oscStep cfg t c n k ch →
    (1 ≤ n →
      r.1.prevPhase = ch.phase ∧
      r.1.phase.toNat = (if (t.syncBit c = true ∧ k.syncRise = true) ∨ t.testBit c = true then 0
        else (ch.phase.toNat + (t.freq c).toNat * n) % 2 ^ 24) ∧
      r.2.syncRise = (!ch.phase.getLsbD 23 && r.1.phase.getLsbD 23) ∧
      (t.testBit c = true → r.1.lfsr = 0x7FFFFF) ∧
      (t.testBit c = false → r.1.phase.getLsbD cfg.noiseClkBit.val ≠ ch.phase.getLsbD cfg.noiseClkBit.val →
        r.1.lfsr.toNat =
          (2 * ch.lfsr.toNat + (if ch.lfsr.getLsbD 22 = ch.lfsr.getLsbD 17 then 0 else 1)) % 2 ^ 23) ∧
      (t.testBit c = false → r.1.phase.getLsbD cfg.noiseClkBit.val = ch.phase.getLsbD cfg.noiseClkBit.val →
        r.1.lfsr = ch.lfsr)) ∧
    (n = 0 → r.1.prevPhase = ch.prevPhase ∧ r.1.phase = ch.phase ∧ r.1.lfsr = ch.lfsr ∧ r.2.syncRise = k.syncRise) ∧
    r.2.ringMsb = r.1.phase.getLsbD 23 ∧
    r.1.gate = ch.gate ∧ r.1.attack = ch.attack ∧ r.1.decaySustain = ch.decaySustain ∧
    r.1.holdZero = ch.holdZero ∧ r.1.rateCounter = ch.rateCounter ∧ r.1.expCounter = ch.expCounter ∧
    r.1.envLevel = ch.envLevel ∧ r.1.combPrev = ch.combPrev

/-- After an oscillator step the sample is held when nothing is selected; it is the triangle folded by the MSB,
ring-modulated when RING is set, the upper twelve phase bits, the pulse comparison or the eight noise bits when
exactly that one is selected; with two or more selected it is the uninterpreted combination of the four. That
the pulse comparison holds under the test bit too, where 93 G19 remarks that the pulse is all ones, is the
model's reading (log 23). (47_sid_oscillator.md R335 to R341, 93_implementation_defined.md G19, log 6, log 23.) -/
def Obligations.WaveformsAreGenerated : Prop :=
  ∀ (cfg : Config) (t : Sid) (c : Fin 3) (n : Nat) (k : Carried) (ch : Channel) (r : Channel × Carried)
    (tri saw pul noi : Wave), r = oscStep cfg t c n k ch →
    tri.toNat = (if (r.1.phase.getLsbD 23 ^^ (t.ringBit c && k.ringMsb)) = true then 2 ^ 24 - 1 - r.1.phase.toNat
      else r.1.phase.toNat) / 2 ^ 11 % 2 ^ 12 →
    saw.toNat = r.1.phase.toNat / 2 ^ 12 →
    pul = (if (t.pulseWidth c).toNat ≤ saw.toNat then 0xFFF else 0x000) →
    (∀ i, i < 4 → noi.getLsbD i = false) →
    noi.getLsbD 11 = r.1.lfsr.getLsbD 20 → noi.getLsbD 10 = r.1.lfsr.getLsbD 18 →
    noi.getLsbD 9 = r.1.lfsr.getLsbD 14 → noi.getLsbD 8 = r.1.lfsr.getLsbD 11 →
    noi.getLsbD 7 = r.1.lfsr.getLsbD 9 → noi.getLsbD 6 = r.1.lfsr.getLsbD 5 →
    noi.getLsbD 5 = r.1.lfsr.getLsbD 2 → noi.getLsbD 4 = r.1.lfsr.getLsbD 0 →
    (t.selector c = 0b0000 → r.1.waveOut = ch.waveOut) ∧
    (t.selector c = 0b0001 → r.1.waveOut = tri) ∧ (t.selector c = 0b0010 → r.1.waveOut = saw) ∧
    (t.selector c = 0b0100 → r.1.waveOut = pul) ∧ (t.selector c = 0b1000 → r.1.waveOut = noi) ∧
    (t.selector c ∉ [0b0000, 0b0001, 0b0010, 0b0100, 0b1000] →
      r.1.waveOut = Config.combined cfg.chipModel (t.selector c) tri saw pul noi)

/-- An oscillator step of at least one cycle under the test bit (one of 0 cycles moves nothing, log 29) leaves
the noise register all ones, the phase 0 and a noise sample 0xFF0; the register all ones is clocked to 0x7FFFFE
and that to 0x7FFFFC; a nonzero register stays nonzero at every step; with no waveform selected the sample
stands. (47_sid_oscillator.md R345, R346, log 29.) -/
def Obligations.NoiseProperties : Prop :=
  ∀ (cfg : Config) (t : Sid) (c : Fin 3) (n : Nat) (k : Carried) (ch : Channel) (r : Channel × Carried),
    r = oscStep cfg t c n k ch →
    (1 ≤ n → t.testBit c = true → r.1.lfsr = 0x7FFFFF ∧ r.1.phase = 0 ∧ noiseWave r.1.lfsr = 0xFF0) ∧
    clockNoise 0x7FFFFF = 0x7FFFFE ∧ clockNoise 0x7FFFFE = 0x7FFFFC ∧
    (ch.lfsr ≠ 0 → r.1.lfsr ≠ 0) ∧
    (t.selector c = 0 → r.1.waveOut = ch.waveOut)

/-- A rising edge sets gate, attack and decay/sustain and clears the freeze, keeping the level unless
ENV_ZERO_ON_GATE; a falling edge clears gate, attack and decay/sustain; neither touches the counters, and
without an edge nothing changes. In attack a tick clears the exponential counter and, not frozen, raises the
level by one modulo 256, ending the attack at 255. Otherwise it counts the exponential counter up to the table's
period for the level; at the period it clears it and, unless frozen or in decay/sustain at the sustain level,
lowers the level by one modulo 256, freezing at 0. Nothing else changes. That a period table too short for the
level reads as 1 there is the model's choice (log 28). (48_sid_envelope.md R372, R373, R377 to R380, R384, log
28.) -/
def Obligations.EnvelopeEdgesAndTicks : Prop :=
  (∀ (cfg : Config) (g : Bool) (ch e : Channel), e = gateEdge cfg g ch →
    (g = true → ch.gate = false → e = { ch with
      gate := true, attack := true, decaySustain := true, holdZero := false,
      envLevel := if cfg.envZeroOnGate then 0 else ch.envLevel }) ∧
    (g = false → ch.gate = true → e = { ch with gate := false, attack := false, decaySustain := false }) ∧
    (g = ch.gate → e = ch)) ∧
  (∀ (cfg : Config) (sustain : BitVec 8) (ch : Channel),
    (ch.attack = true → ch.holdZero = false → tick cfg sustain ch = { ch with
      expCounter := 0, envLevel := ch.envLevel + 1, attack := decide (ch.envLevel + 1 ≠ 255) }) ∧
    (ch.attack = true → ch.holdZero = true → tick cfg sustain ch = { ch with expCounter := 0 }) ∧
    (ch.attack = false → (ch.expCounter + 1).toNat < cfg.expPeriod.getD ch.envLevel.toNat 1 →
      tick cfg sustain ch = { ch with expCounter := ch.expCounter + 1 }) ∧
    (ch.attack = false → cfg.expPeriod.getD ch.envLevel.toNat 1 ≤ (ch.expCounter + 1).toNat →
      (ch.holdZero = true ∨ (ch.decaySustain = true ∧ ch.envLevel = sustain) →
        tick cfg sustain ch = { ch with expCounter := 0 }) ∧
      (ch.holdZero = false → ¬ (ch.decaySustain = true ∧ ch.envLevel = sustain) →
        tick cfg sustain ch = { ch with
          expCounter := 0, envLevel := ch.envLevel - 1, holdZero := decide (ch.envLevel - 1 = 0) })))

/-- For n from 1 to 32768 (a step of 0 cycles moves nothing, log 29): with the period the state after the gate
edge selects, the counter plus n, less 32768 if that is reached, crosses when it is at or above the period and
below the period plus n; then the step is one tick with the counter at the overshoot, else only the counter
moves; a step changes the level by at most one, the edge apart. That a period table too short for the selected
rate reads as 1 there is the model's choice (log 28). (48_sid_envelope.md R371, R374 to R376, R383, log 28, log
29.) -/
def Obligations.RateCounterCrosses : Prop :=
  ∀ (cfg : Config) (t : Sid) (c : Fin 3) (n rc period : Nat) (ch e : Channel), 1 ≤ n → n ≤ 32768 →
    e = gateEdge cfg (t.gateBit c) ch →
    rc = (ch.rateCounter.toNat + n) % 32768 →
    period = cfg.ratePeriod.getD (if e.attack then (t.attackDecay c).toNat / 16
      else if e.decaySustain then (t.attackDecay c).toNat % 16 else (t.sustainRelease c).toNat % 16) 1 →
    (period ≤ rc ∧ rc < period + n →
      envStep cfg t c n ch =
        tick cfg (t.sustainLevel c) { e with rateCounter := BitVec.ofNat 15 (rc - period) }) ∧
    (¬ (period ≤ rc ∧ rc < period + n) → envStep cfg t c n ch = { e with rateCounter := BitVec.ofNat 15 rc }) ∧
    ((envStep cfg t c n ch).envLevel = e.envLevel ∨ (envStep cfg t c n ch).envLevel = e.envLevel + 1 ∨
      (envStep cfg t c n ch).envLevel = e.envLevel - 1)

/-- From an unfrozen attack state at level l below 255, after k ticks with l + k at most 255 the level is l + k,
and the attack flag is set exactly while the level is below 255; decay/sustain, gate and freeze stand.
(48_sid_envelope.md R378.) -/
def Obligations.AttackRunsToTheTop : Prop :=
  ∀ (cfg : Config) (sustain : BitVec 8) (ch : Channel) (k : Nat), ch.attack = true → ch.holdZero = false →
    ch.envLevel ≠ 255 → ch.envLevel.toNat + k ≤ 255 →
    ((tick cfg sustain)^[k] ch).envLevel.toNat = ch.envLevel.toNat + k ∧
    ((tick cfg sustain)^[k] ch).attack = decide (ch.envLevel.toNat + k < 255) ∧
    ((tick cfg sustain)^[k] ch).decaySustain = ch.decaySustain ∧
    ((tick cfg sustain)^[k] ch).gate = ch.gate ∧ ((tick cfg sustain)^[k] ch).holdZero = false

/-- Whatever the registers are, with test bits, sync bits or gate edges pending, SidAdvance(0) leaves every
channel's two phases, noise register, envelope flags, counters and level as they are, and the carried rise; it
recomputes every channel's sample from the registers as they stand, the ring modulation with the source's MSB,
channel 0's with the carried one. That the previous phase and the carried rise stay too is the model's reading
(log 29). (47_sid_oscillator.md R345, 93_implementation_defined.md U23, log 29.) -/
def Obligations.AdvanceByZero : Prop :=
  ∀ (cfg : Config) (t : Sid) (c : Fin 3) (ch : Channel), ch = (sidAdvance cfg 0 t).1.ch[c] →
    ch = { t.ch[c] with waveOut := ch.waveOut } ∧
    ch.waveOut = oscWave cfg t c (if c = 0 then t.ringMsb else t.ch[c - 1].phase.getLsbD 23) t.ch[c] ∧
    (sidAdvance cfg 0 t).1.syncRise = t.syncRise ∧
    (sidAdvance cfg 0 t).1.ringMsb = t.ch[2].phase.getLsbD 23

/-- If the three tap bits are 0, the output sample is the same for any two sound chips with the same volume
register, taps and volume state and any two filter inputs with the same direct sum: integrators, cutoff and
resonance do not matter. (49_sid_filter_mixer.md R397, R399, R400.) -/
def Obligations.FilterBypass : Prop :=
  ∀ (cfg : Config) (f f' direct : Int) (t t' : Sid), t'.regs[0x18] = t.regs[0x18] → t'.volSmooth = t.volSmooth →
    (∀ i, 4 ≤ i → i ≤ 6 → t.regs[0x18].getLsbD i = false) →
    (sidOutput cfg (f, direct) t).2 = (sidOutput cfg (f', direct) t').2

/-- The smoothed volume after an output lies between the old one and the raw volume inclusive and stays put when
they are equal; an output changes no channel and no register. The step towards the raw volume is the model's
choice of form (log 9). (49_sid_filter_mixer.md R400, R401, log 9.) -/
def Obligations.VolumeStage : Prop :=
  ∀ (cfg : Config) (sums : Int × Int) (t : Sid) (raw : Rat), raw = ((t.volume).toNat : Rat) →
    (t.volSmooth = raw → (sidOutput cfg sums t).1.volSmooth = raw) ∧
    (t.volSmooth ≤ raw → t.volSmooth ≤ (sidOutput cfg sums t).1.volSmooth ∧
      (sidOutput cfg sums t).1.volSmooth ≤ raw) ∧
    (raw ≤ t.volSmooth → raw ≤ (sidOutput cfg sums t).1.volSmooth ∧
      (sidOutput cfg sums t).1.volSmooth ≤ t.volSmooth) ∧
    (sidOutput cfg sums t).1.ch = t.ch ∧ (sidOutput cfg sums t).1.regs = t.regs ∧
    (sidOutput cfg sums t).1.syncRise = t.syncRise ∧ (sidOutput cfg sums t).1.ringMsb = t.ringMsb

/-- If after an advance every level is 0 both sums are 0; with the default filter step and quantisation,
integrators at 0 and the smoothed volume equal to the register's, the output sample is 0 and the integrators
stay 0. (49_sid_filter_mixer.md R403.) -/
def Obligations.Silence : Prop :=
  (∀ (cfg : Config) (n : Nat) (t : Sid), (∀ c : Fin 3, (sidAdvance cfg n t).1.ch[c].envLevel = 0) →
      (sidAdvance cfg n t).2 = (0, 0)) ∧
  (∀ (cfg : Config) (t : Sid), cfg.filter = .standard → cfg.quantise = .standard → t.lp = 0 → t.bp = 0 →
      t.volSmooth = ((t.volume).toNat : Rat) →
      (sidOutput cfg (0, 0) t).2 = 0 ∧ (sidOutput cfg (0, 0) t).1.lp = 0 ∧ (sidOutput cfg (0, 0) t).1.bp = 0)

/-- With the default filter step and quantisation, an output computes the high-pass, band-pass and low-pass
values by the state-variable recurrence from the coefficients the model's tables give, adds the selected
low-pass and band-pass taps, subtracts the high-pass tap, adds the direct sum, scales by the smoothed volume,
adds the AC part times DIGI_GAIN, divides by the attenuation and truncates toward zero. The coefficients are
free (log 7), DIGI_GAIN and the smoothed volume too (log 9); that all of it is exact, in rationals, is the
model's choice of the type Q (log 10). (49_sid_filter_mixer.md R390, R394 to R402, log 7, log 9, log 10.) -/
def Obligations.FilterAndMix : Prop :=
  ∀ (cfg : Config) (f direct : Int) (t : Sid) (cut res hp bp lp vs out : Rat),
    cfg.filter = .standard → cfg.quantise = .standard →
    cut = (match cfg.chipModel with
      | .modelA => Config.cutoffCoefA t.cutoff t.lp t.bp
      | .modelB => Config.cutoffCoefB t.cutoff) →
    res = Config.resonanceCoef cfg.chipModel t.resonance →
    hp = f - t.lp - res * t.bp → bp = t.bp + cut * hp → lp = t.lp + cut * bp →
    vs = (sidOutput cfg (f, direct) t).1.volSmooth →
    out = ((direct + ((if t.regs[0x18].getLsbD 4 then lp else 0) + (if t.regs[0x18].getLsbD 5 then bp else 0)
      - (if t.regs[0x18].getLsbD 6 then hp else 0))) * vs
      + ((t.volume).toNat - vs) * Config.digiGain) / cfg.attenuation →
    (sidOutput cfg (f, direct) t).1.lp = lp ∧ (sidOutput cfg (f, direct) t).1.bp = bp ∧
    (sidOutput cfg (f, direct) t).2 = out.num.tdiv out.den

/-- HostSetRegs sets pc, A, X and Y and nothing else; a load puts a byte into memory alone; a line event sets
that line alone; a change outside sets the external state alone; a reset is Reset; an advance by n cycles does
to the machine what the devices' advance after an outcome Cycles(n) does, and leaves the outcome; a sample
request joins the others; an output runs SidOutput at once on the pair the host formed or on the last one and
reports the sample, leaving the channels and registers. That host inputs come as such events, in order, at the
start of a round is the model's choice (logs 11, 12). (70_reset_and_hazards.md R470, R474, R475,
93_implementation_defined.md U23, 49_sid_filter_mixer.md R400, R405, 10_state.md R36, log 11, log 12.) -/
def Obligations.HostEventsActBetweenRounds : Prop :=
  ∀ (s t : State) (pc addr : Addr) (a x y v : Byte) (n : Nat) (b : Bool) (e : Ext) (cfg : Config)
    (pair : Option (Int × Int)),
    hostEvent (.setRegs pc a x y) s = { s with pc := pc, a := a, x := x, y := y } ∧
    (t = hostEvent (.load addr v) s → t = { s with mem := t.mem } ∧
      (s.mem.wf = true → ∀ k, t.mem.read k = if k = addr then v else s.mem.read k)) ∧
    hostEvent (.nmiLevel n) s = { s with nmiLevel := n } ∧ hostEvent (.extIrq b) s = { s with extIrq := b } ∧
    hostEvent (.external e) s = { s with ext := e } ∧
    hostEvent (.reset cfg addr) s = s.hostReset cfg addr ∧
    hostEvent (.advance n) s =
      { advanceDevices { s with outcome := some (.cycles n) } with outcome := s.outcome } ∧
    hostEvent (.sample pair) s = { s with requests := s.requests ++ [pair] } ∧
    (t = hostEvent (.output pair) s → t = { s with sid := t.sid, samples := t.samples } ∧
      t.sid.ch = s.sid.ch ∧ t.sid.regs = s.sid.regs ∧
      ∀ sums : Int × Int, sums = (match pair with | some q => q | none => s.sums) →
        t.sid = (sidOutput s.cfg sums s.sid).1 ∧ t.samples = s.samples ++ [(sidOutput s.cfg sums s.sid).2])
end

