-- ==== Sys2Proof/Laws/Bits.lean ====
section
/-! SUPPORT. The bit-field helpers as numbers. -/

namespace Sys2Proof

/-- A concatenation as a number. -/
theorem toNat_append_eq {m n : Nat} (x : BitVec m) (y : BitVec n) :
    (x ++ y).toNat = 2 ^ n * x.toNat + y.toNat := by
  rw [BitVec.toNat_append, ← Nat.shiftLeft_add_eq_or_of_lt y.isLt, Nat.shiftLeft_eq, Nat.mul_comm]

theorem toNat_joinBytes (hi lo : Byte) : (joinBytes hi lo).toNat = 256 * hi.toNat + lo.toNat :=
  toNat_append_eq hi lo

theorem toNat_zeroPage (z : Byte) : (zeroPage z).toNat = z.toNat := by
  simp only [zeroPage, BitVec.toNat_setWidth]
  omega

theorem toNat_hiNibble (v : Byte) : (hiNibble v).toNat = v.toNat / 16 := by
  simp only [hiNibble, BitVec.extractLsb'_toNat, Nat.shiftRight_eq_div_pow]
  omega

theorem toNat_loNibble (v : Byte) : (loNibble v).toNat = v.toNat % 16 := by
  simp [loNibble, BitVec.extractLsb'_toNat]

end Sys2Proof
end

