-- ==== Sys2Proof/Laws/Memory.lean ====
section
/-! SUPPORT. Memory: reading what was written, reading elsewhere, the canonical form kept, and equal contents in
canonical form are equal data. -/

namespace Sys2Proof.Machine

open Sys2Proof

theorem cellsFrom_cons (lo k : Nat) (v : Byte) (rest : List Host.Cell) :
    cellsFrom lo ((k, v) :: rest) = true ↔
      lo ≤ k ∧ k < 65536 ∧ v ≠ Memory.unlisted ∧ cellsFrom (k + 1) rest = true := by
  simp [cellsFrom, and_assoc]

theorem cellsFrom_mono {lo lo' : Nat} (h : lo' ≤ lo) {l : List Host.Cell} (hl : cellsFrom lo l = true) :
    cellsFrom lo' l = true := by
  cases l with
  | nil => rfl
  | cons c rest =>
    obtain ⟨k, v⟩ := c
    rw [cellsFrom_cons] at hl ⊢
    exact ⟨h.trans hl.1, hl.2⟩

/-- An address below every listed one reads as unlisted. -/
theorem readCells_of_lt {n lo : Nat} (h : n < lo) {l : List Host.Cell} (hl : cellsFrom lo l = true) :
    readCells n l = Memory.unlisted := by
  induction l generalizing lo with
  | nil => rfl
  | cons c rest ih =>
    obtain ⟨k, v⟩ := c
    rw [cellsFrom_cons] at hl
    have : k ≠ n := by omega
    simp only [readCells, this, if_false]
    exact ih (by omega) hl.2.2.2

/-- A write leaves every other address alone. -/
theorem readCells_writeCells_ne {m n : Nat} (h : m ≠ n) (v : Byte) (l : List Host.Cell) :
    readCells m (writeCells n v l) = readCells m l := by
  induction l with
  | nil =>
    simp only [writeCells]
    split
    · rfl
    · simp [readCells, h.symm]
  | cons c rest ih =>
    obtain ⟨k, w⟩ := c
    simp only [writeCells]
    split
    · split
      · rfl
      · simp [readCells, h.symm]
    · split
      · rename_i hk
        subst hk
        split <;> simp [readCells, h.symm]
      · simp only [readCells]
        split
        · rfl
        · exact ih

/-- A read of the written address gives the written byte. -/
theorem readCells_writeCells_same (n : Nat) (v : Byte) {lo : Nat} {l : List Host.Cell}
    (hl : cellsFrom lo l = true) : readCells n (writeCells n v l) = v := by
  induction l generalizing lo with
  | nil =>
    simp only [writeCells]
    split
    · rename_i h
      simp [readCells, h]
    · simp [readCells]
  | cons c rest ih =>
    obtain ⟨k, w⟩ := c
    rw [cellsFrom_cons] at hl
    simp only [writeCells]
    split
    · rename_i hk
      split
      · rename_i hv
        have : k ≠ n := by omega
        simp only [readCells, this, if_false, hv]
        exact readCells_of_lt (lo := k + 1) (by omega) hl.2.2.2
      · simp [readCells]
    · split
      · rename_i hk
        subst hk
        split
        · rename_i hv
          rw [hv]
          exact readCells_of_lt (lo := n + 1) (by omega) hl.2.2.2
        · simp [readCells]
      · have : k ≠ n := by omega
        simp only [readCells, this, if_false]
        exact ih hl.2.2.2

/-- A write keeps the canonical form. -/
theorem cellsFrom_writeCells {n lo : Nat} (hlo : lo ≤ n) (hn : n < 65536) (v : Byte) {l : List Host.Cell}
    (hl : cellsFrom lo l = true) : cellsFrom lo (writeCells n v l) = true := by
  induction l generalizing lo with
  | nil =>
    simp only [writeCells]
    split
    · rfl
    · rename_i hv
      rw [cellsFrom_cons]
      exact ⟨hlo, hn, hv, rfl⟩
  | cons c rest ih =>
    obtain ⟨k, w⟩ := c
    have hl' := hl
    rw [cellsFrom_cons] at hl
    simp only [writeCells]
    split
    · split
      · exact hl'
      · rename_i hk hv
        rw [cellsFrom_cons, cellsFrom_cons]
        exact ⟨hlo, hn, hv, hk, hl.2⟩
    · split
      · rename_i hk
        subst hk
        split
        · exact cellsFrom_mono (by omega) hl.2.2.2
        · rename_i hv
          rw [cellsFrom_cons]
          exact ⟨hlo, hn, hv, hl.2.2.2⟩
      · rw [cellsFrom_cons]
        exact ⟨hl.1, hl.2.1, hl.2.2.1, ih (by omega) hl.2.2.2⟩

/-- Two canonical cell lists that read alike at every address are equal. -/
theorem cells_ext {lo : Nat} {l l' : List Host.Cell} (hl : cellsFrom lo l = true) (hl' : cellsFrom lo l' = true)
    (h : ∀ n, n < 65536 → readCells n l = readCells n l') : l = l' := by
  induction l generalizing lo l' with
  | nil =>
    cases l' with
    | nil => rfl
    | cons c rest =>
      obtain ⟨k, v⟩ := c
      rw [cellsFrom_cons] at hl'
      have := h k hl'.2.1
      simp only [readCells, if_true] at this
      exact absurd this.symm hl'.2.2.1
  | cons c rest ih =>
    obtain ⟨k, v⟩ := c
    rw [cellsFrom_cons] at hl
    cases l' with
    | nil =>
      have := h k hl.2.1
      simp only [readCells, if_true] at this
      exact absurd this hl.2.2.1
    | cons c' rest' =>
      obtain ⟨k', v'⟩ := c'
      rw [cellsFrom_cons] at hl'
      have hk : k = k' := by
        rcases Nat.lt_trichotomy k k' with hlt | heq | hgt
        · have := h k hl.2.1
          have hne : k' ≠ k := by omega
          simp only [readCells, if_true, hne, if_false] at this
          rw [readCells_of_lt (lo := k' + 1) (by omega) hl'.2.2.2] at this
          exact absurd this hl.2.2.1
        · exact heq
        · have := h k' hl'.2.1
          have hne : k ≠ k' := by omega
          simp only [readCells, if_true, hne, if_false] at this
          rw [readCells_of_lt (lo := k + 1) (by omega) hl.2.2.2] at this
          exact absurd this.symm hl'.2.2.1
      subst hk
      have hv : v = v' := by simpa [readCells] using h k hl.2.1
      subst hv
      congr 1
      refine ih hl.2.2.2 hl'.2.2.2 fun n hn => ?_
      by_cases hkn : k = n
      · subst hkn
        rw [readCells_of_lt (lo := k + 1) (by omega) hl.2.2.2,
          readCells_of_lt (lo := k + 1) (by omega) hl'.2.2.2]
      · simpa [readCells, hkn] using h n hn

theorem Memory.read_write_ne {a b : Addr} (h : b ≠ a) (v : Byte) (m : Memory) :
    (m.write a v).read b = m.read b :=
  readCells_writeCells_ne (fun e => h (BitVec.eq_of_toNat_eq e)) v m.cells

theorem Memory.read_write_same (a : Addr) (v : Byte) {m : Memory} (h : m.wf = true) :
    (m.write a v).read a = v :=
  readCells_writeCells_same a.toNat v h

theorem Memory.wf_write (a : Addr) (v : Byte) {m : Memory} (h : m.wf = true) : (m.write a v).wf = true :=
  cellsFrom_writeCells (Nat.zero_le _) a.isLt v h

theorem Memory.ext_of_read {m m' : Memory} (h : m.wf = true) (h' : m'.wf = true)
    (hr : ∀ a, m.read a = m'.read a) : m = m' := by
  have : m.cells = m'.cells := cells_ext h h' fun n hn => by
    simpa [Memory.read, Nat.mod_eq_of_lt hn] using hr (BitVec.ofNat 16 n)
  cases m
  cases m'
  simp_all

theorem Memory.wf_reset : State.reset.mem.wf = true := rfl

end Sys2Proof.Machine
end

