-- ==== Sys2Proof/Laws/State.lean ====
section
/-! SUPPORT. One lemma per field of `State` and per shared update: what the update leaves in the field. No later
proof unfolds an update. -/

namespace Sys2Proof.Machine

open Sys2Proof

/-! `State.finish` writes `pc` and the outcome. -/

@[simp] theorem State.finish_pc (len n : Nat) (s : State) :
    (s.finish len n).pc = s.pc + BitVec.ofNat 16 len := rfl
@[simp] theorem State.finish_a (len n : Nat) (s : State) :
    (s.finish len n).a = s.a := rfl
@[simp] theorem State.finish_x (len n : Nat) (s : State) :
    (s.finish len n).x = s.x := rfl
@[simp] theorem State.finish_y (len n : Nat) (s : State) :
    (s.finish len n).y = s.y := rfl
@[simp] theorem State.finish_sp (len n : Nat) (s : State) :
    (s.finish len n).sp = s.sp := rfl
@[simp] theorem State.finish_p (len n : Nat) (s : State) :
    (s.finish len n).p = s.p := rfl
@[simp] theorem State.finish_prevNmi (len n : Nat) (s : State) :
    (s.finish len n).prevNmi = s.prevNmi := rfl
@[simp] theorem State.finish_jammed (len n : Nat) (s : State) :
    (s.finish len n).jammed = s.jammed := rfl
@[simp] theorem State.finish_sid (len n : Nat) (s : State) :
    (s.finish len n).sid = s.sid := rfl
@[simp] theorem State.finish_raster (len n : Nat) (s : State) :
    (s.finish len n).raster = s.raster := rfl
@[simp] theorem State.finish_mem (len n : Nat) (s : State) :
    (s.finish len n).mem = s.mem := rfl
@[simp] theorem State.finish_ext (len n : Nat) (s : State) :
    (s.finish len n).ext = s.ext := rfl
@[simp] theorem State.finish_cfg (len n : Nat) (s : State) :
    (s.finish len n).cfg = s.cfg := rfl
@[simp] theorem State.finish_nmiLevel (len n : Nat) (s : State) :
    (s.finish len n).nmiLevel = s.nmiLevel := rfl
@[simp] theorem State.finish_extIrq (len n : Nat) (s : State) :
    (s.finish len n).extIrq = s.extIrq := rfl
@[simp] theorem State.finish_pending (len n : Nat) (s : State) :
    (s.finish len n).pending = s.pending := rfl
@[simp] theorem State.finish_requests (len n : Nat) (s : State) :
    (s.finish len n).requests = s.requests := rfl
@[simp] theorem State.finish_outcome (len n : Nat) (s : State) :
    (s.finish len n).outcome = some (.cycles n) := rfl
@[simp] theorem State.finish_taken (len n : Nat) (s : State) :
    (s.finish len n).taken = s.taken := rfl
@[simp] theorem State.finish_bus (len n : Nat) (s : State) :
    (s.finish len n).bus = s.bus := rfl
@[simp] theorem State.finish_sums (len n : Nat) (s : State) :
    (s.finish len n).sums = s.sums := rfl
@[simp] theorem State.finish_pairs (len n : Nat) (s : State) :
    (s.finish len n).pairs = s.pairs := rfl
@[simp] theorem State.finish_samples (len n : Nat) (s : State) :
    (s.finish len n).samples = s.samples := rfl
@[simp] theorem State.finish_draws (len n : Nat) (s : State) :
    (s.finish len n).draws = s.draws := rfl

/-! `State.spend` writes the outcome. -/

@[simp] theorem State.spend_pc (n : Nat) (s : State) :
    (s.spend n).pc = s.pc := rfl
@[simp] theorem State.spend_a (n : Nat) (s : State) :
    (s.spend n).a = s.a := rfl
@[simp] theorem State.spend_x (n : Nat) (s : State) :
    (s.spend n).x = s.x := rfl
@[simp] theorem State.spend_y (n : Nat) (s : State) :
    (s.spend n).y = s.y := rfl
@[simp] theorem State.spend_sp (n : Nat) (s : State) :
    (s.spend n).sp = s.sp := rfl
@[simp] theorem State.spend_p (n : Nat) (s : State) :
    (s.spend n).p = s.p := rfl
@[simp] theorem State.spend_prevNmi (n : Nat) (s : State) :
    (s.spend n).prevNmi = s.prevNmi := rfl
@[simp] theorem State.spend_jammed (n : Nat) (s : State) :
    (s.spend n).jammed = s.jammed := rfl
@[simp] theorem State.spend_sid (n : Nat) (s : State) :
    (s.spend n).sid = s.sid := rfl
@[simp] theorem State.spend_raster (n : Nat) (s : State) :
    (s.spend n).raster = s.raster := rfl
@[simp] theorem State.spend_mem (n : Nat) (s : State) :
    (s.spend n).mem = s.mem := rfl
@[simp] theorem State.spend_ext (n : Nat) (s : State) :
    (s.spend n).ext = s.ext := rfl
@[simp] theorem State.spend_cfg (n : Nat) (s : State) :
    (s.spend n).cfg = s.cfg := rfl
@[simp] theorem State.spend_nmiLevel (n : Nat) (s : State) :
    (s.spend n).nmiLevel = s.nmiLevel := rfl
@[simp] theorem State.spend_extIrq (n : Nat) (s : State) :
    (s.spend n).extIrq = s.extIrq := rfl
@[simp] theorem State.spend_pending (n : Nat) (s : State) :
    (s.spend n).pending = s.pending := rfl
@[simp] theorem State.spend_requests (n : Nat) (s : State) :
    (s.spend n).requests = s.requests := rfl
@[simp] theorem State.spend_outcome (n : Nat) (s : State) :
    (s.spend n).outcome = some (.cycles n) := rfl
@[simp] theorem State.spend_taken (n : Nat) (s : State) :
    (s.spend n).taken = s.taken := rfl
@[simp] theorem State.spend_bus (n : Nat) (s : State) :
    (s.spend n).bus = s.bus := rfl
@[simp] theorem State.spend_sums (n : Nat) (s : State) :
    (s.spend n).sums = s.sums := rfl
@[simp] theorem State.spend_pairs (n : Nat) (s : State) :
    (s.spend n).pairs = s.pairs := rfl
@[simp] theorem State.spend_samples (n : Nat) (s : State) :
    (s.spend n).samples = s.samples := rfl
@[simp] theorem State.spend_draws (n : Nat) (s : State) :
    (s.spend n).draws = s.draws := rfl

/-! `State.loadA` writes `a` and `p`. -/

@[simp] theorem State.loadA_pc (v : Byte) (s : State) :
    (s.loadA v).pc = s.pc := rfl
@[simp] theorem State.loadA_a (v : Byte) (s : State) :
    (s.loadA v).a = v := rfl
@[simp] theorem State.loadA_x (v : Byte) (s : State) :
    (s.loadA v).x = s.x := rfl
@[simp] theorem State.loadA_y (v : Byte) (s : State) :
    (s.loadA v).y = s.y := rfl
@[simp] theorem State.loadA_sp (v : Byte) (s : State) :
    (s.loadA v).sp = s.sp := rfl
@[simp] theorem State.loadA_p (v : Byte) (s : State) :
    (s.loadA v).p = setNZ v s.p := rfl
@[simp] theorem State.loadA_prevNmi (v : Byte) (s : State) :
    (s.loadA v).prevNmi = s.prevNmi := rfl
@[simp] theorem State.loadA_jammed (v : Byte) (s : State) :
    (s.loadA v).jammed = s.jammed := rfl
@[simp] theorem State.loadA_sid (v : Byte) (s : State) :
    (s.loadA v).sid = s.sid := rfl
@[simp] theorem State.loadA_raster (v : Byte) (s : State) :
    (s.loadA v).raster = s.raster := rfl
@[simp] theorem State.loadA_mem (v : Byte) (s : State) :
    (s.loadA v).mem = s.mem := rfl
@[simp] theorem State.loadA_ext (v : Byte) (s : State) :
    (s.loadA v).ext = s.ext := rfl
@[simp] theorem State.loadA_cfg (v : Byte) (s : State) :
    (s.loadA v).cfg = s.cfg := rfl
@[simp] theorem State.loadA_nmiLevel (v : Byte) (s : State) :
    (s.loadA v).nmiLevel = s.nmiLevel := rfl
@[simp] theorem State.loadA_extIrq (v : Byte) (s : State) :
    (s.loadA v).extIrq = s.extIrq := rfl
@[simp] theorem State.loadA_pending (v : Byte) (s : State) :
    (s.loadA v).pending = s.pending := rfl
@[simp] theorem State.loadA_requests (v : Byte) (s : State) :
    (s.loadA v).requests = s.requests := rfl
@[simp] theorem State.loadA_outcome (v : Byte) (s : State) :
    (s.loadA v).outcome = s.outcome := rfl
@[simp] theorem State.loadA_taken (v : Byte) (s : State) :
    (s.loadA v).taken = s.taken := rfl
@[simp] theorem State.loadA_bus (v : Byte) (s : State) :
    (s.loadA v).bus = s.bus := rfl
@[simp] theorem State.loadA_sums (v : Byte) (s : State) :
    (s.loadA v).sums = s.sums := rfl
@[simp] theorem State.loadA_pairs (v : Byte) (s : State) :
    (s.loadA v).pairs = s.pairs := rfl
@[simp] theorem State.loadA_samples (v : Byte) (s : State) :
    (s.loadA v).samples = s.samples := rfl
@[simp] theorem State.loadA_draws (v : Byte) (s : State) :
    (s.loadA v).draws = s.draws := rfl

/-! `State.loadX` writes `x` and `p`. -/

@[simp] theorem State.loadX_pc (v : Byte) (s : State) :
    (s.loadX v).pc = s.pc := rfl
@[simp] theorem State.loadX_a (v : Byte) (s : State) :
    (s.loadX v).a = s.a := rfl
@[simp] theorem State.loadX_x (v : Byte) (s : State) :
    (s.loadX v).x = v := rfl
@[simp] theorem State.loadX_y (v : Byte) (s : State) :
    (s.loadX v).y = s.y := rfl
@[simp] theorem State.loadX_sp (v : Byte) (s : State) :
    (s.loadX v).sp = s.sp := rfl
@[simp] theorem State.loadX_p (v : Byte) (s : State) :
    (s.loadX v).p = setNZ v s.p := rfl
@[simp] theorem State.loadX_prevNmi (v : Byte) (s : State) :
    (s.loadX v).prevNmi = s.prevNmi := rfl
@[simp] theorem State.loadX_jammed (v : Byte) (s : State) :
    (s.loadX v).jammed = s.jammed := rfl
@[simp] theorem State.loadX_sid (v : Byte) (s : State) :
    (s.loadX v).sid = s.sid := rfl
@[simp] theorem State.loadX_raster (v : Byte) (s : State) :
    (s.loadX v).raster = s.raster := rfl
@[simp] theorem State.loadX_mem (v : Byte) (s : State) :
    (s.loadX v).mem = s.mem := rfl
@[simp] theorem State.loadX_ext (v : Byte) (s : State) :
    (s.loadX v).ext = s.ext := rfl
@[simp] theorem State.loadX_cfg (v : Byte) (s : State) :
    (s.loadX v).cfg = s.cfg := rfl
@[simp] theorem State.loadX_nmiLevel (v : Byte) (s : State) :
    (s.loadX v).nmiLevel = s.nmiLevel := rfl
@[simp] theorem State.loadX_extIrq (v : Byte) (s : State) :
    (s.loadX v).extIrq = s.extIrq := rfl
@[simp] theorem State.loadX_pending (v : Byte) (s : State) :
    (s.loadX v).pending = s.pending := rfl
@[simp] theorem State.loadX_requests (v : Byte) (s : State) :
    (s.loadX v).requests = s.requests := rfl
@[simp] theorem State.loadX_outcome (v : Byte) (s : State) :
    (s.loadX v).outcome = s.outcome := rfl
@[simp] theorem State.loadX_taken (v : Byte) (s : State) :
    (s.loadX v).taken = s.taken := rfl
@[simp] theorem State.loadX_bus (v : Byte) (s : State) :
    (s.loadX v).bus = s.bus := rfl
@[simp] theorem State.loadX_sums (v : Byte) (s : State) :
    (s.loadX v).sums = s.sums := rfl
@[simp] theorem State.loadX_pairs (v : Byte) (s : State) :
    (s.loadX v).pairs = s.pairs := rfl
@[simp] theorem State.loadX_samples (v : Byte) (s : State) :
    (s.loadX v).samples = s.samples := rfl
@[simp] theorem State.loadX_draws (v : Byte) (s : State) :
    (s.loadX v).draws = s.draws := rfl

/-! `State.loadY` writes `y` and `p`. -/

@[simp] theorem State.loadY_pc (v : Byte) (s : State) :
    (s.loadY v).pc = s.pc := rfl
@[simp] theorem State.loadY_a (v : Byte) (s : State) :
    (s.loadY v).a = s.a := rfl
@[simp] theorem State.loadY_x (v : Byte) (s : State) :
    (s.loadY v).x = s.x := rfl
@[simp] theorem State.loadY_y (v : Byte) (s : State) :
    (s.loadY v).y = v := rfl
@[simp] theorem State.loadY_sp (v : Byte) (s : State) :
    (s.loadY v).sp = s.sp := rfl
@[simp] theorem State.loadY_p (v : Byte) (s : State) :
    (s.loadY v).p = setNZ v s.p := rfl
@[simp] theorem State.loadY_prevNmi (v : Byte) (s : State) :
    (s.loadY v).prevNmi = s.prevNmi := rfl
@[simp] theorem State.loadY_jammed (v : Byte) (s : State) :
    (s.loadY v).jammed = s.jammed := rfl
@[simp] theorem State.loadY_sid (v : Byte) (s : State) :
    (s.loadY v).sid = s.sid := rfl
@[simp] theorem State.loadY_raster (v : Byte) (s : State) :
    (s.loadY v).raster = s.raster := rfl
@[simp] theorem State.loadY_mem (v : Byte) (s : State) :
    (s.loadY v).mem = s.mem := rfl
@[simp] theorem State.loadY_ext (v : Byte) (s : State) :
    (s.loadY v).ext = s.ext := rfl
@[simp] theorem State.loadY_cfg (v : Byte) (s : State) :
    (s.loadY v).cfg = s.cfg := rfl
@[simp] theorem State.loadY_nmiLevel (v : Byte) (s : State) :
    (s.loadY v).nmiLevel = s.nmiLevel := rfl
@[simp] theorem State.loadY_extIrq (v : Byte) (s : State) :
    (s.loadY v).extIrq = s.extIrq := rfl
@[simp] theorem State.loadY_pending (v : Byte) (s : State) :
    (s.loadY v).pending = s.pending := rfl
@[simp] theorem State.loadY_requests (v : Byte) (s : State) :
    (s.loadY v).requests = s.requests := rfl
@[simp] theorem State.loadY_outcome (v : Byte) (s : State) :
    (s.loadY v).outcome = s.outcome := rfl
@[simp] theorem State.loadY_taken (v : Byte) (s : State) :
    (s.loadY v).taken = s.taken := rfl
@[simp] theorem State.loadY_bus (v : Byte) (s : State) :
    (s.loadY v).bus = s.bus := rfl
@[simp] theorem State.loadY_sums (v : Byte) (s : State) :
    (s.loadY v).sums = s.sums := rfl
@[simp] theorem State.loadY_pairs (v : Byte) (s : State) :
    (s.loadY v).pairs = s.pairs := rfl
@[simp] theorem State.loadY_samples (v : Byte) (s : State) :
    (s.loadY v).samples = s.samples := rfl
@[simp] theorem State.loadY_draws (v : Byte) (s : State) :
    (s.loadY v).draws = s.draws := rfl

/-! `State.addA` writes `a` and `p`. -/

@[simp] theorem State.addA_pc (m : Byte) (s : State) :
    (s.addA m).pc = s.pc := rfl
@[simp] theorem State.addA_a (m : Byte) (s : State) :
    (s.addA m).a = (adc s.cfg s.a m s.p).1 := rfl
@[simp] theorem State.addA_x (m : Byte) (s : State) :
    (s.addA m).x = s.x := rfl
@[simp] theorem State.addA_y (m : Byte) (s : State) :
    (s.addA m).y = s.y := rfl
@[simp] theorem State.addA_sp (m : Byte) (s : State) :
    (s.addA m).sp = s.sp := rfl
@[simp] theorem State.addA_p (m : Byte) (s : State) :
    (s.addA m).p = (adc s.cfg s.a m s.p).2 := rfl
@[simp] theorem State.addA_prevNmi (m : Byte) (s : State) :
    (s.addA m).prevNmi = s.prevNmi := rfl
@[simp] theorem State.addA_jammed (m : Byte) (s : State) :
    (s.addA m).jammed = s.jammed := rfl
@[simp] theorem State.addA_sid (m : Byte) (s : State) :
    (s.addA m).sid = s.sid := rfl
@[simp] theorem State.addA_raster (m : Byte) (s : State) :
    (s.addA m).raster = s.raster := rfl
@[simp] theorem State.addA_mem (m : Byte) (s : State) :
    (s.addA m).mem = s.mem := rfl
@[simp] theorem State.addA_ext (m : Byte) (s : State) :
    (s.addA m).ext = s.ext := rfl
@[simp] theorem State.addA_cfg (m : Byte) (s : State) :
    (s.addA m).cfg = s.cfg := rfl
@[simp] theorem State.addA_nmiLevel (m : Byte) (s : State) :
    (s.addA m).nmiLevel = s.nmiLevel := rfl
@[simp] theorem State.addA_extIrq (m : Byte) (s : State) :
    (s.addA m).extIrq = s.extIrq := rfl
@[simp] theorem State.addA_pending (m : Byte) (s : State) :
    (s.addA m).pending = s.pending := rfl
@[simp] theorem State.addA_requests (m : Byte) (s : State) :
    (s.addA m).requests = s.requests := rfl
@[simp] theorem State.addA_outcome (m : Byte) (s : State) :
    (s.addA m).outcome = s.outcome := rfl
@[simp] theorem State.addA_taken (m : Byte) (s : State) :
    (s.addA m).taken = s.taken := rfl
@[simp] theorem State.addA_bus (m : Byte) (s : State) :
    (s.addA m).bus = s.bus := rfl
@[simp] theorem State.addA_sums (m : Byte) (s : State) :
    (s.addA m).sums = s.sums := rfl
@[simp] theorem State.addA_pairs (m : Byte) (s : State) :
    (s.addA m).pairs = s.pairs := rfl
@[simp] theorem State.addA_samples (m : Byte) (s : State) :
    (s.addA m).samples = s.samples := rfl
@[simp] theorem State.addA_draws (m : Byte) (s : State) :
    (s.addA m).draws = s.draws := rfl

/-! `State.subA` writes `a` and `p`. -/

@[simp] theorem State.subA_pc (m : Byte) (s : State) :
    (s.subA m).pc = s.pc := rfl
@[simp] theorem State.subA_a (m : Byte) (s : State) :
    (s.subA m).a = (sbc s.cfg s.a m s.p).1 := rfl
@[simp] theorem State.subA_x (m : Byte) (s : State) :
    (s.subA m).x = s.x := rfl
@[simp] theorem State.subA_y (m : Byte) (s : State) :
    (s.subA m).y = s.y := rfl
@[simp] theorem State.subA_sp (m : Byte) (s : State) :
    (s.subA m).sp = s.sp := rfl
@[simp] theorem State.subA_p (m : Byte) (s : State) :
    (s.subA m).p = (sbc s.cfg s.a m s.p).2 := rfl
@[simp] theorem State.subA_prevNmi (m : Byte) (s : State) :
    (s.subA m).prevNmi = s.prevNmi := rfl
@[simp] theorem State.subA_jammed (m : Byte) (s : State) :
    (s.subA m).jammed = s.jammed := rfl
@[simp] theorem State.subA_sid (m : Byte) (s : State) :
    (s.subA m).sid = s.sid := rfl
@[simp] theorem State.subA_raster (m : Byte) (s : State) :
    (s.subA m).raster = s.raster := rfl
@[simp] theorem State.subA_mem (m : Byte) (s : State) :
    (s.subA m).mem = s.mem := rfl
@[simp] theorem State.subA_ext (m : Byte) (s : State) :
    (s.subA m).ext = s.ext := rfl
@[simp] theorem State.subA_cfg (m : Byte) (s : State) :
    (s.subA m).cfg = s.cfg := rfl
@[simp] theorem State.subA_nmiLevel (m : Byte) (s : State) :
    (s.subA m).nmiLevel = s.nmiLevel := rfl
@[simp] theorem State.subA_extIrq (m : Byte) (s : State) :
    (s.subA m).extIrq = s.extIrq := rfl
@[simp] theorem State.subA_pending (m : Byte) (s : State) :
    (s.subA m).pending = s.pending := rfl
@[simp] theorem State.subA_requests (m : Byte) (s : State) :
    (s.subA m).requests = s.requests := rfl
@[simp] theorem State.subA_outcome (m : Byte) (s : State) :
    (s.subA m).outcome = s.outcome := rfl
@[simp] theorem State.subA_taken (m : Byte) (s : State) :
    (s.subA m).taken = s.taken := rfl
@[simp] theorem State.subA_bus (m : Byte) (s : State) :
    (s.subA m).bus = s.bus := rfl
@[simp] theorem State.subA_sums (m : Byte) (s : State) :
    (s.subA m).sums = s.sums := rfl
@[simp] theorem State.subA_pairs (m : Byte) (s : State) :
    (s.subA m).pairs = s.pairs := rfl
@[simp] theorem State.subA_samples (m : Byte) (s : State) :
    (s.subA m).samples = s.samples := rfl
@[simp] theorem State.subA_draws (m : Byte) (s : State) :
    (s.subA m).draws = s.draws := rfl

/-! A bus read records itself, uses up a draw where it returned one, and moves the oracle where that answered. -/

@[simp] theorem busRead_pc (addr : Addr) (s : State) :
    (busRead addr s).2.pc = s.pc := rfl
@[simp] theorem busRead_a (addr : Addr) (s : State) :
    (busRead addr s).2.a = s.a := rfl
@[simp] theorem busRead_x (addr : Addr) (s : State) :
    (busRead addr s).2.x = s.x := rfl
@[simp] theorem busRead_y (addr : Addr) (s : State) :
    (busRead addr s).2.y = s.y := rfl
@[simp] theorem busRead_sp (addr : Addr) (s : State) :
    (busRead addr s).2.sp = s.sp := rfl
@[simp] theorem busRead_p (addr : Addr) (s : State) :
    (busRead addr s).2.p = s.p := rfl
@[simp] theorem busRead_prevNmi (addr : Addr) (s : State) :
    (busRead addr s).2.prevNmi = s.prevNmi := rfl
@[simp] theorem busRead_jammed (addr : Addr) (s : State) :
    (busRead addr s).2.jammed = s.jammed := rfl
@[simp] theorem busRead_sid (addr : Addr) (s : State) :
    (busRead addr s).2.sid = s.sid := rfl
@[simp] theorem busRead_raster (addr : Addr) (s : State) :
    (busRead addr s).2.raster = s.raster := rfl
@[simp] theorem busRead_mem (addr : Addr) (s : State) :
    (busRead addr s).2.mem = s.mem := rfl
@[simp] theorem busRead_ext (addr : Addr) (s : State) :
    (busRead addr s).2.ext = if s.target addr = .external then (Config.extRead s.ext addr).2 else s.ext := rfl
@[simp] theorem busRead_cfg (addr : Addr) (s : State) :
    (busRead addr s).2.cfg = s.cfg := rfl
@[simp] theorem busRead_nmiLevel (addr : Addr) (s : State) :
    (busRead addr s).2.nmiLevel = s.nmiLevel := rfl
@[simp] theorem busRead_extIrq (addr : Addr) (s : State) :
    (busRead addr s).2.extIrq = s.extIrq := rfl
@[simp] theorem busRead_pending (addr : Addr) (s : State) :
    (busRead addr s).2.pending = s.pending := rfl
@[simp] theorem busRead_requests (addr : Addr) (s : State) :
    (busRead addr s).2.requests = s.requests := rfl
@[simp] theorem busRead_outcome (addr : Addr) (s : State) :
    (busRead addr s).2.outcome = s.outcome := rfl
@[simp] theorem busRead_taken (addr : Addr) (s : State) :
    (busRead addr s).2.taken = s.taken := rfl
@[simp] theorem busRead_bus (addr : Addr) (s : State) :
    (busRead addr s).2.bus = s.bus ++ [.read addr (s.peek addr)] := rfl
@[simp] theorem busRead_sums (addr : Addr) (s : State) :
    (busRead addr s).2.sums = s.sums := rfl
@[simp] theorem busRead_pairs (addr : Addr) (s : State) :
    (busRead addr s).2.pairs = s.pairs := rfl
@[simp] theorem busRead_samples (addr : Addr) (s : State) :
    (busRead addr s).2.samples = s.samples := rfl
@[simp] theorem busRead_draws (addr : Addr) (s : State) :
    (busRead addr s).2.draws = if (s.stored addr).isNone && s.target addr != .external then s.draws + 1 else s.draws := rfl

/-! A bus write reaches memory, a device or the oracle and records itself. -/

@[simp] theorem busWrite_pc (addr : Addr) (v : Byte) (s : State) :
    (busWrite addr v s).pc = s.pc := rfl
@[simp] theorem busWrite_a (addr : Addr) (v : Byte) (s : State) :
    (busWrite addr v s).a = s.a := rfl
@[simp] theorem busWrite_x (addr : Addr) (v : Byte) (s : State) :
    (busWrite addr v s).x = s.x := rfl
@[simp] theorem busWrite_y (addr : Addr) (v : Byte) (s : State) :
    (busWrite addr v s).y = s.y := rfl
@[simp] theorem busWrite_sp (addr : Addr) (v : Byte) (s : State) :
    (busWrite addr v s).sp = s.sp := rfl
@[simp] theorem busWrite_p (addr : Addr) (v : Byte) (s : State) :
    (busWrite addr v s).p = s.p := rfl
@[simp] theorem busWrite_prevNmi (addr : Addr) (v : Byte) (s : State) :
    (busWrite addr v s).prevNmi = s.prevNmi := rfl
@[simp] theorem busWrite_jammed (addr : Addr) (v : Byte) (s : State) :
    (busWrite addr v s).jammed = s.jammed := rfl
@[simp] theorem busWrite_sid (addr : Addr) (v : Byte) (s : State) :
    (busWrite addr v s).sid = s.sid.busWrite (s.target addr) v := rfl
@[simp] theorem busWrite_raster (addr : Addr) (v : Byte) (s : State) :
    (busWrite addr v s).raster = s.raster.write s.cfg (s.target addr) v := rfl
@[simp] theorem busWrite_mem (addr : Addr) (v : Byte) (s : State) :
    (busWrite addr v s).mem = if s.target addr = .ram then s.mem.write addr v else s.mem := rfl
@[simp] theorem busWrite_ext (addr : Addr) (v : Byte) (s : State) :
    (busWrite addr v s).ext = if s.target addr = .external then Config.extWrite s.ext addr v else s.ext := rfl
@[simp] theorem busWrite_cfg (addr : Addr) (v : Byte) (s : State) :
    (busWrite addr v s).cfg = s.cfg := rfl
@[simp] theorem busWrite_nmiLevel (addr : Addr) (v : Byte) (s : State) :
    (busWrite addr v s).nmiLevel = s.nmiLevel := rfl
@[simp] theorem busWrite_extIrq (addr : Addr) (v : Byte) (s : State) :
    (busWrite addr v s).extIrq = s.extIrq := rfl
@[simp] theorem busWrite_pending (addr : Addr) (v : Byte) (s : State) :
    (busWrite addr v s).pending = s.pending := rfl
@[simp] theorem busWrite_requests (addr : Addr) (v : Byte) (s : State) :
    (busWrite addr v s).requests = s.requests := rfl
@[simp] theorem busWrite_outcome (addr : Addr) (v : Byte) (s : State) :
    (busWrite addr v s).outcome = s.outcome := rfl
@[simp] theorem busWrite_taken (addr : Addr) (v : Byte) (s : State) :
    (busWrite addr v s).taken = s.taken := rfl
@[simp] theorem busWrite_bus (addr : Addr) (v : Byte) (s : State) :
    (busWrite addr v s).bus = s.bus ++ [.write addr v] := rfl
@[simp] theorem busWrite_sums (addr : Addr) (v : Byte) (s : State) :
    (busWrite addr v s).sums = s.sums := rfl
@[simp] theorem busWrite_pairs (addr : Addr) (v : Byte) (s : State) :
    (busWrite addr v s).pairs = s.pairs := rfl
@[simp] theorem busWrite_samples (addr : Addr) (v : Byte) (s : State) :
    (busWrite addr v s).samples = s.samples := rfl
@[simp] theorem busWrite_draws (addr : Addr) (v : Byte) (s : State) :
    (busWrite addr v s).draws = s.draws := rfl

/-! A push is a bus write at the stack address and moves `sp` down. -/

@[simp] theorem push_pc (v : Byte) (s : State) :
    (push v s).pc = s.pc := rfl
@[simp] theorem push_a (v : Byte) (s : State) :
    (push v s).a = s.a := rfl
@[simp] theorem push_x (v : Byte) (s : State) :
    (push v s).x = s.x := rfl
@[simp] theorem push_y (v : Byte) (s : State) :
    (push v s).y = s.y := rfl
@[simp] theorem push_sp (v : Byte) (s : State) :
    (push v s).sp = s.sp - 1 := rfl
@[simp] theorem push_p (v : Byte) (s : State) :
    (push v s).p = s.p := rfl
@[simp] theorem push_prevNmi (v : Byte) (s : State) :
    (push v s).prevNmi = s.prevNmi := rfl
@[simp] theorem push_jammed (v : Byte) (s : State) :
    (push v s).jammed = s.jammed := rfl
@[simp] theorem push_sid (v : Byte) (s : State) :
    (push v s).sid = s.sid.busWrite (s.target s.stackAddr) v := rfl
@[simp] theorem push_raster (v : Byte) (s : State) :
    (push v s).raster = s.raster.write s.cfg (s.target s.stackAddr) v := rfl
@[simp] theorem push_mem (v : Byte) (s : State) :
    (push v s).mem = if s.target s.stackAddr = .ram then s.mem.write s.stackAddr v else s.mem := rfl
@[simp] theorem push_ext (v : Byte) (s : State) :
    (push v s).ext = if s.target s.stackAddr = .external then Config.extWrite s.ext s.stackAddr v else s.ext := rfl
@[simp] theorem push_cfg (v : Byte) (s : State) :
    (push v s).cfg = s.cfg := rfl
@[simp] theorem push_nmiLevel (v : Byte) (s : State) :
    (push v s).nmiLevel = s.nmiLevel := rfl
@[simp] theorem push_extIrq (v : Byte) (s : State) :
    (push v s).extIrq = s.extIrq := rfl
@[simp] theorem push_pending (v : Byte) (s : State) :
    (push v s).pending = s.pending := rfl
@[simp] theorem push_requests (v : Byte) (s : State) :
    (push v s).requests = s.requests := rfl
@[simp] theorem push_outcome (v : Byte) (s : State) :
    (push v s).outcome = s.outcome := rfl
@[simp] theorem push_taken (v : Byte) (s : State) :
    (push v s).taken = s.taken := rfl
@[simp] theorem push_bus (v : Byte) (s : State) :
    (push v s).bus = s.bus ++ [.write s.stackAddr v] := rfl
@[simp] theorem push_sums (v : Byte) (s : State) :
    (push v s).sums = s.sums := rfl
@[simp] theorem push_pairs (v : Byte) (s : State) :
    (push v s).pairs = s.pairs := rfl
@[simp] theorem push_samples (v : Byte) (s : State) :
    (push v s).samples = s.samples := rfl
@[simp] theorem push_draws (v : Byte) (s : State) :
    (push v s).draws = s.draws := rfl

/-! A pull moves `sp` up and is a bus read at the stack address. -/

@[simp] theorem pull_pc (s : State) :
    (pull s).2.pc = s.pc := rfl
@[simp] theorem pull_a (s : State) :
    (pull s).2.a = s.a := rfl
@[simp] theorem pull_x (s : State) :
    (pull s).2.x = s.x := rfl
@[simp] theorem pull_y (s : State) :
    (pull s).2.y = s.y := rfl
@[simp] theorem pull_sp (s : State) :
    (pull s).2.sp = s.sp + 1 := rfl
@[simp] theorem pull_p (s : State) :
    (pull s).2.p = s.p := rfl
@[simp] theorem pull_prevNmi (s : State) :
    (pull s).2.prevNmi = s.prevNmi := rfl
@[simp] theorem pull_jammed (s : State) :
    (pull s).2.jammed = s.jammed := rfl
@[simp] theorem pull_sid (s : State) :
    (pull s).2.sid = s.sid := rfl
@[simp] theorem pull_raster (s : State) :
    (pull s).2.raster = s.raster := rfl
@[simp] theorem pull_mem (s : State) :
    (pull s).2.mem = s.mem := rfl
@[simp] theorem pull_cfg (s : State) :
    (pull s).2.cfg = s.cfg := rfl
@[simp] theorem pull_nmiLevel (s : State) :
    (pull s).2.nmiLevel = s.nmiLevel := rfl
@[simp] theorem pull_extIrq (s : State) :
    (pull s).2.extIrq = s.extIrq := rfl
@[simp] theorem pull_pending (s : State) :
    (pull s).2.pending = s.pending := rfl
@[simp] theorem pull_requests (s : State) :
    (pull s).2.requests = s.requests := rfl
@[simp] theorem pull_outcome (s : State) :
    (pull s).2.outcome = s.outcome := rfl
@[simp] theorem pull_taken (s : State) :
    (pull s).2.taken = s.taken := rfl
@[simp] theorem pull_sums (s : State) :
    (pull s).2.sums = s.sums := rfl
@[simp] theorem pull_pairs (s : State) :
    (pull s).2.pairs = s.pairs := rfl
@[simp] theorem pull_samples (s : State) :
    (pull s).2.samples = s.samples := rfl

/-! A draw moves the counter of free values. -/

@[simp] theorem drawByte_pc (s : State) :
    (drawByte s).2.pc = s.pc := rfl
@[simp] theorem drawByte_a (s : State) :
    (drawByte s).2.a = s.a := rfl
@[simp] theorem drawByte_x (s : State) :
    (drawByte s).2.x = s.x := rfl
@[simp] theorem drawByte_y (s : State) :
    (drawByte s).2.y = s.y := rfl
@[simp] theorem drawByte_sp (s : State) :
    (drawByte s).2.sp = s.sp := rfl
@[simp] theorem drawByte_p (s : State) :
    (drawByte s).2.p = s.p := rfl
@[simp] theorem drawByte_prevNmi (s : State) :
    (drawByte s).2.prevNmi = s.prevNmi := rfl
@[simp] theorem drawByte_jammed (s : State) :
    (drawByte s).2.jammed = s.jammed := rfl
@[simp] theorem drawByte_sid (s : State) :
    (drawByte s).2.sid = s.sid := rfl
@[simp] theorem drawByte_raster (s : State) :
    (drawByte s).2.raster = s.raster := rfl
@[simp] theorem drawByte_mem (s : State) :
    (drawByte s).2.mem = s.mem := rfl
@[simp] theorem drawByte_ext (s : State) :
    (drawByte s).2.ext = s.ext := rfl
@[simp] theorem drawByte_cfg (s : State) :
    (drawByte s).2.cfg = s.cfg := rfl
@[simp] theorem drawByte_nmiLevel (s : State) :
    (drawByte s).2.nmiLevel = s.nmiLevel := rfl
@[simp] theorem drawByte_extIrq (s : State) :
    (drawByte s).2.extIrq = s.extIrq := rfl
@[simp] theorem drawByte_pending (s : State) :
    (drawByte s).2.pending = s.pending := rfl
@[simp] theorem drawByte_requests (s : State) :
    (drawByte s).2.requests = s.requests := rfl
@[simp] theorem drawByte_outcome (s : State) :
    (drawByte s).2.outcome = s.outcome := rfl
@[simp] theorem drawByte_taken (s : State) :
    (drawByte s).2.taken = s.taken := rfl
@[simp] theorem drawByte_bus (s : State) :
    (drawByte s).2.bus = s.bus := rfl
@[simp] theorem drawByte_sums (s : State) :
    (drawByte s).2.sums = s.sums := rfl
@[simp] theorem drawByte_pairs (s : State) :
    (drawByte s).2.pairs = s.pairs := rfl
@[simp] theorem drawByte_samples (s : State) :
    (drawByte s).2.samples = s.samples := rfl
@[simp] theorem drawByte_draws (s : State) :
    (drawByte s).2.draws = s.draws + 1 := rfl

end Sys2Proof.Machine
end

