-- ==== Sys2Proof/Laws/Bus.lean ====
section
/-! SUPPORT. The bus: one address a device register, and what a bus write leaves alone. -/

namespace Sys2Proof.Machine

open Sys2Proof

/-- No two addresses select the same sound-chip offset. -/
theorem sidOffset_inj {m : BusMap} {a b : Addr} {o : BitVec 5} (ha : BusMap.sidOffset m a = some o)
    (hb : BusMap.sidOffset m b = some o) : a = b := by
  unfold BusMap.sidOffset at ha hb
  cases hbase : m.sidBase with
  | none => simp [hbase] at ha
  | some base =>
    simp only [hbase] at ha hb
    split at ha <;> simp at ha
    split at hb <;> simp at hb
    rename_i h1 h2
    have h3 : (a - base).setWidth 5 = (b - base).setWidth 5 := ha.trans hb.symm
    have h4 : ((a - base).setWidth 5).toNat = ((b - base).setWidth 5).toNat := by rw [h3]
    simp only [BitVec.toNat_setWidth] at h4
    have h5 : a - base = b - base := BitVec.eq_of_toNat_eq (by omega)
    calc a = (a - base) + base := by simp
      _ = (b - base) + base := by rw [h5]
      _ = b := by simp

/-- The six kinds of answer, told apart. -/
theorem BusMap.target_cases (m : BusMap) (a : Addr) :
    (∃ o, BusMap.target m a = .sid o ∧ BusMap.sidOffset m a = some o) ∨
    (BusMap.target m a = .rasterControl ∧ m.rasterControl = some a) ∨
    (BusMap.target m a = .rasterRow ∧ m.rasterRow = some a) ∨
    (BusMap.target m a = .rasterFlag ∧ m.rasterFlag = some a) ∨
    (BusMap.target m a = .rasterEnable ∧ m.rasterEnable = some a) ∨
    BusMap.target m a = .external ∨ BusMap.target m a = .ram := by
  unfold BusMap.target
  split
  · exact .inl ⟨_, rfl, by assumption⟩
  · split
    · exact .inr (.inl ⟨rfl, by assumption⟩)
    · split
      · exact .inr (.inr (.inl ⟨rfl, by assumption⟩))
      · split
        · exact .inr (.inr (.inr (.inl ⟨rfl, by assumption⟩)))
        · split
          · exact .inr (.inr (.inr (.inr (.inl ⟨rfl, by assumption⟩))))
          · split <;> simp

/-- A device register answers at one address alone. -/
theorem BusMap.target_inj {m : BusMap} {a b : Addr} (h : BusMap.target m a = BusMap.target m b) (hr : BusMap.target m a ≠ .ram)
    (he : BusMap.target m a ≠ .external) : a = b := by
  rcases BusMap.target_cases m a with ⟨o, h1, h2⟩ | ⟨h1, h2⟩ | ⟨h1, h2⟩ | ⟨h1, h2⟩ | ⟨h1, h2⟩ | h1 | h1 <;>
    rcases BusMap.target_cases m b with ⟨o', h3, h4⟩ | ⟨h3, h4⟩ | ⟨h3, h4⟩ | ⟨h3, h4⟩ | ⟨h3, h4⟩ | h3 | h3 <;>
    simp_all
  subst h
  exact sidOffset_inj h2 h4

/-- A write of one register offset leaves every other offset's answer alone. -/
theorem Sid.read_write_ne {o o' : BitVec 5} (h : o' ≠ o) (v : Byte) (t : Sid) :
    (t.write o v).read o' = t.read o' := by
  unfold Sid.write
  split
  · rename_i ho
    have hne : o.toNat ≠ o'.toNat := fun e => h (BitVec.eq_of_toNat_eq e.symm)
    unfold Sid.read Sid.osc3 Sid.env3
    split
    · simp [hne]
    · rfl
  · rfl

/-- A store at one address changes the answer at no other. -/
theorem busWrite_stored_ne {a b : Addr} (h : b ≠ a) (v : Byte) (s : State) :
    (busWrite a v s).stored b = s.stored b := by
  have ht : (busWrite a v s).target b = s.target b := rfl
  unfold State.stored
  rw [ht]
  simp only [busWrite_sid, busWrite_raster, busWrite_mem]
  have hinj : s.target a = s.target b → s.target a ≠ .ram → s.target a ≠ .external → False :=
    fun e h1 h2 => h (BusMap.target_inj e h1 h2).symm
  cases hb : s.target b <;> cases ha : s.target a <;>
    simp_all [Sid.busWrite, Raster.write, Raster.readControl, Raster.readRow, Raster.readFlag,
      Raster.writeControl, Raster.writeRow, Raster.writeEnable, Memory.read_write_ne h] <;>
    (try (simp only [Raster.acknowledge]; split <;> rfl))
  rename_i o' o
  by_cases e : o' = o
  · subst e
    exact (hinj rfl).elim
  · exact Sid.read_write_ne e v s.sid

/-- `t` has the devices, the memory and the configuration of `s`. -/
structure SameStore (s t : State) : Prop where
  mem : t.mem = s.mem
  sid : t.sid = s.sid
  raster : t.raster = s.raster
  cfg : t.cfg = s.cfg

theorem SameStore.refl (s : State) : SameStore s s := ⟨rfl, rfl, rfl, rfl⟩

theorem SameStore.trans {s t u : State} (h : SameStore s t) (k : SameStore t u) : SameStore s u :=
  ⟨k.mem.trans h.mem, k.sid.trans h.sid, k.raster.trans h.raster, k.cfg.trans h.cfg⟩

theorem SameStore.stored {s t : State} (h : SameStore s t) (b : Addr) : t.stored b = s.stored b := by
  unfold State.stored State.target
  rw [h.mem, h.sid, h.raster, h.cfg]

theorem SameStore.target {s t : State} (h : SameStore s t) (b : Addr) : t.target b = s.target b := by
  unfold State.target
  rw [h.cfg]

theorem SameStore.nothingStored {s t : State} (h : SameStore s t) : NothingStored s t :=
  ⟨fun b => by rw [h.mem], h.stored, h.sid, h.raster⟩

theorem busRead_sameStore (a : Addr) (s : State) : SameStore s (busRead a s).2 := ⟨rfl, rfl, rfl, rfl⟩

/-- A bus write stores one byte. -/
theorem busWrite_storedAt (a : Addr) (v : Byte) (s : State) : StoredAt a v s (busWrite a v s) where
  elsewhere b h := ⟨busWrite_stored_ne h v s, by
    simp only [busWrite_mem]
    split
    · exact Memory.read_write_ne h v s.mem
    · rfl⟩
  memory h := by
    simp only [busWrite_mem]
    split
    · exact Memory.read_write_same a v h
    · rfl
  sid := rfl
  raster := rfl

/-- `StoredAt` looks at devices, memory and configuration alone. -/
theorem StoredAt.congr {a : Addr} {v : Byte} {s s' t t' : State} (h : StoredAt a v s' t')
    (hs : SameStore s s') (ht : SameStore t' t) : StoredAt a v s t where
  elsewhere b hb := by
    obtain ⟨h1, h2⟩ := h.elsewhere b hb
    rw [ht.stored, h1, hs.stored, ht.mem, h2, hs.mem]
    exact ⟨rfl, rfl⟩
  memory hw := by
    have := h.memory (by rw [hs.mem]; exact hw)
    rw [ht.mem, this, hs.mem, hs.target]
  sid := by rw [ht.sid, h.sid, hs.sid, hs.target]
  raster := by rw [ht.raster, h.raster, hs.raster, hs.target, hs.cfg]

end Sys2Proof.Machine
end

