-- ==== Sys2Proof/Laws/Decode.lean ====
section
/-! SUPPORT. Decoding: one lemma per kind of cell of the opcode matrix, and the matrix's shape. -/

namespace Sys2Proof.Laws

open Sys2Proof

@[simp] theorem joinBytes_hi_lo (a : Addr) : joinBytes (hiByte a) (loByte a) = a := by
  apply BitVec.eq_of_getLsbD_eq
  intro i hi
  simp only [joinBytes, hiByte, loByte, BitVec.getLsbD_append, BitVec.getLsbD_extractLsb', Nat.zero_add]
  by_cases h : i < 8
  · simp [h]
  · simp [h, show 8 + (i - 8) = i by omega]
    omega

@[simp] theorem hiByte_joinBytes (hi lo : Byte) : hiByte (joinBytes hi lo) = hi := by
  apply BitVec.eq_of_getLsbD_eq
  intro i hi
  simp only [joinBytes, hiByte, BitVec.getLsbD_append, BitVec.getLsbD_extractLsb']
  simp [hi]

@[simp] theorem loByte_joinBytes (hi lo : Byte) : loByte (joinBytes hi lo) = lo := by
  apply BitVec.eq_of_getLsbD_eq
  intro i hi
  simp only [joinBytes, loByte, BitVec.getLsbD_append, BitVec.getLsbD_extractLsb']
  simp [hi]

/-- The matrix is 16 by 16. -/
theorem matrix_complete :
    Template.matrix.length = 16 ∧ Template.matrix.map List.length = List.replicate 16 16 := by
  constructor <;> rfl

theorem decode_bare {op : Byte} {i : Instr} (h : template op = .bare i) (rest : List Byte) :
    decode (op :: rest) = .ok (i, rest) := by
  simp [decode, h, Template.operandBytes, Template.fill]

theorem decode_byte {op : Byte} {f : Byte → Instr} (h : template op = .byte f) (b : Byte) (rest : List Byte) :
    decode (op :: b :: rest) = .ok (f b, rest) := by
  simp [decode, h, Template.operandBytes, Template.fill]

theorem decode_word {op : Byte} {f : Addr → Instr} (h : template op = .word f) (a : Addr) (rest : List Byte) :
    decode (op :: loByte a :: hiByte a :: rest) = .ok (f a, rest) := by
  simp [decode, h, Template.operandBytes, Template.fill]

/-- A memory operand decodes from its own bytes. -/
theorem decode_mem {op : Byte} {o : Operand} {f : Operand → Instr} (h : template op = .mem o.mode f)
    (rest : List Byte) : decode (op :: (o.bytes ++ rest)) = .ok (f o, rest) := by
  cases o <;>
    simp [decode, h, Template.operandBytes, Template.fill, Operand.bytes, Operand.mode, Mode.operandBytes,
      Mode.operand]

theorem decode_shift {op : Byte} {o : Operand} {f : ShiftOperand → Instr} (h : template op = .shift o.mode f)
    (rest : List Byte) : decode (op :: (o.bytes ++ rest)) = .ok (f (.mem o), rest) := by
  cases o <;>
    simp [decode, h, Template.operandBytes, Template.fill, Operand.bytes, Operand.mode, Mode.operandBytes,
      Mode.operand]

/-- Every list that decodes holds the cell's operand bytes after the opcode. -/
theorem decode_ok {op : Byte} {bs rest : List Byte} {i : Instr} (h : decode (op :: bs) = .ok (i, rest)) :
    ∃ b1 b2 : Byte, i = (template op).fill b1 b2 ∧
      ((template op).operandBytes = 0 ∧ bs = rest ∨
       (template op).operandBytes = 1 ∧ bs = b1 :: rest ∨
       (template op).operandBytes = 2 ∧ bs = b1 :: b2 :: rest) := by
  simp only [decode] at h
  split at h
  · rename_i h0
    simp at h
    exact ⟨0, 0, h.1.symm, .inl ⟨h0, h.2⟩⟩
  · rename_i b1 rest' h0
    simp at h
    exact ⟨b1, 0, h.1.symm, .inr (.inl ⟨h0, by rw [h.2]⟩)⟩
  · rename_i b1 b2 rest' h0
    simp at h
    exact ⟨b1, b2, h.1.symm, .inr (.inr ⟨h0, by rw [h.2]⟩)⟩
  · simp at h

/-- A cell of the matrix at opcode `op`: whatever operand bytes fill it, the instruction is well formed and
encodes to the opcode and those bytes. -/
def CellEncodes (op : Byte) : Template → Prop
  | .bare i => i.wellFormed = true ∧ encode i = [op]
  | .byte f => ∀ b, (f b).wellFormed = true ∧ encode (f b) = [op, b]
  | .word f => ∀ a, (f a).wellFormed = true ∧ encode (f a) = [op, loByte a, hiByte a]
  | .mem m f => ∀ b1 b2, (f (m.operand b1 b2)).wellFormed = true ∧
      encode (f (m.operand b1 b2)) = op :: (m.operand b1 b2).bytes
  | .shift m f => ∀ b1 b2, (f (.mem (m.operand b1 b2))).wellFormed = true ∧
      encode (f (.mem (m.operand b1 b2))) = op :: (m.operand b1 b2).bytes

/-- The cells of one row of the matrix, from opcode `16 * r` upward. -/
def RowEncodes (r : Nat) (row : List Template) : Prop :=
  ∀ c : Fin 16, CellEncodes (BitVec.ofNat 8 (16 * r + c.val)) (row.getD c.val (.bare .nop))

theorem row0_encodes : RowEncodes 0 Template.row0 := by
  intro c
  fin_cases c <;> first
    | exact ⟨rfl, rfl⟩
    | (intro b; exact ⟨rfl, rfl⟩)
    | (intro b1 b2
       refine ⟨rfl, ?_⟩
       dsimp only [encode, encodeAccumulator, encodeRmw, encodeControl, encodeCombined, encodeTransfer, encodeShift,
         Mode.operand, Operand.mode]
       rfl)

theorem row1_encodes : RowEncodes 1 Template.row1 := by
  intro c
  fin_cases c <;> first
    | exact ⟨rfl, rfl⟩
    | (intro b; exact ⟨rfl, rfl⟩)
    | (intro b1 b2
       refine ⟨rfl, ?_⟩
       dsimp only [encode, encodeAccumulator, encodeRmw, encodeControl, encodeCombined, encodeTransfer, encodeShift,
         Mode.operand, Operand.mode]
       rfl)

theorem row2_encodes : RowEncodes 2 Template.row2 := by
  intro c
  fin_cases c <;> first
    | exact ⟨rfl, rfl⟩
    | (intro b; exact ⟨rfl, rfl⟩)
    | (intro b1 b2
       refine ⟨rfl, ?_⟩
       dsimp only [encode, encodeAccumulator, encodeRmw, encodeControl, encodeCombined, encodeTransfer, encodeShift,
         Mode.operand, Operand.mode]
       rfl)

theorem row3_encodes : RowEncodes 3 Template.row3 := by
  intro c
  fin_cases c <;> first
    | exact ⟨rfl, rfl⟩
    | (intro b; exact ⟨rfl, rfl⟩)
    | (intro b1 b2
       refine ⟨rfl, ?_⟩
       dsimp only [encode, encodeAccumulator, encodeRmw, encodeControl, encodeCombined, encodeTransfer, encodeShift,
         Mode.operand, Operand.mode]
       rfl)

theorem row4_encodes : RowEncodes 4 Template.row4 := by
  intro c
  fin_cases c <;> first
    | exact ⟨rfl, rfl⟩
    | (intro b; exact ⟨rfl, rfl⟩)
    | (intro b1 b2
       refine ⟨rfl, ?_⟩
       dsimp only [encode, encodeAccumulator, encodeRmw, encodeControl, encodeCombined, encodeTransfer, encodeShift,
         Mode.operand, Operand.mode]
       rfl)

theorem row5_encodes : RowEncodes 5 Template.row5 := by
  intro c
  fin_cases c <;> first
    | exact ⟨rfl, rfl⟩
    | (intro b; exact ⟨rfl, rfl⟩)
    | (intro b1 b2
       refine ⟨rfl, ?_⟩
       dsimp only [encode, encodeAccumulator, encodeRmw, encodeControl, encodeCombined, encodeTransfer, encodeShift,
         Mode.operand, Operand.mode]
       rfl)

theorem row6_encodes : RowEncodes 6 Template.row6 := by
  intro c
  fin_cases c <;> first
    | exact ⟨rfl, rfl⟩
    | (intro b; exact ⟨rfl, rfl⟩)
    | (intro b1 b2
       refine ⟨rfl, ?_⟩
       dsimp only [encode, encodeAccumulator, encodeRmw, encodeControl, encodeCombined, encodeTransfer, encodeShift,
         Mode.operand, Operand.mode]
       rfl)

theorem row7_encodes : RowEncodes 7 Template.row7 := by
  intro c
  fin_cases c <;> first
    | exact ⟨rfl, rfl⟩
    | (intro b; exact ⟨rfl, rfl⟩)
    | (intro b1 b2
       refine ⟨rfl, ?_⟩
       dsimp only [encode, encodeAccumulator, encodeRmw, encodeControl, encodeCombined, encodeTransfer, encodeShift,
         Mode.operand, Operand.mode]
       rfl)

theorem row8_encodes : RowEncodes 8 Template.row8 := by
  intro c
  fin_cases c <;> first
    | exact ⟨rfl, rfl⟩
    | (intro b; exact ⟨rfl, rfl⟩)
    | (intro b1 b2
       refine ⟨rfl, ?_⟩
       dsimp only [encode, encodeAccumulator, encodeRmw, encodeControl, encodeCombined, encodeTransfer, encodeShift,
         Mode.operand, Operand.mode]
       rfl)

theorem row9_encodes : RowEncodes 9 Template.row9 := by
  intro c
  fin_cases c <;> first
    | exact ⟨rfl, rfl⟩
    | (intro b; exact ⟨rfl, rfl⟩)
    | (intro b1 b2
       refine ⟨rfl, ?_⟩
       dsimp only [encode, encodeAccumulator, encodeRmw, encodeControl, encodeCombined, encodeTransfer, encodeShift,
         Mode.operand, Operand.mode]
       rfl)

theorem rowA_encodes : RowEncodes 10 Template.rowA := by
  intro c
  fin_cases c <;> first
    | exact ⟨rfl, rfl⟩
    | (intro b; exact ⟨rfl, rfl⟩)
    | (intro b1 b2
       refine ⟨rfl, ?_⟩
       dsimp only [encode, encodeAccumulator, encodeRmw, encodeControl, encodeCombined, encodeTransfer, encodeShift,
         Mode.operand, Operand.mode]
       rfl)

theorem rowB_encodes : RowEncodes 11 Template.rowB := by
  intro c
  fin_cases c <;> first
    | exact ⟨rfl, rfl⟩
    | (intro b; exact ⟨rfl, rfl⟩)
    | (intro b1 b2
       refine ⟨rfl, ?_⟩
       dsimp only [encode, encodeAccumulator, encodeRmw, encodeControl, encodeCombined, encodeTransfer, encodeShift,
         Mode.operand, Operand.mode]
       rfl)

theorem rowC_encodes : RowEncodes 12 Template.rowC := by
  intro c
  fin_cases c <;> first
    | exact ⟨rfl, rfl⟩
    | (intro b; exact ⟨rfl, rfl⟩)
    | (intro b1 b2
       refine ⟨rfl, ?_⟩
       dsimp only [encode, encodeAccumulator, encodeRmw, encodeControl, encodeCombined, encodeTransfer, encodeShift,
         Mode.operand, Operand.mode]
       rfl)

theorem rowD_encodes : RowEncodes 13 Template.rowD := by
  intro c
  fin_cases c <;> first
    | exact ⟨rfl, rfl⟩
    | (intro b; exact ⟨rfl, rfl⟩)
    | (intro b1 b2
       refine ⟨rfl, ?_⟩
       dsimp only [encode, encodeAccumulator, encodeRmw, encodeControl, encodeCombined, encodeTransfer, encodeShift,
         Mode.operand, Operand.mode]
       rfl)

theorem rowE_encodes : RowEncodes 14 Template.rowE := by
  intro c
  fin_cases c <;> first
    | exact ⟨rfl, rfl⟩
    | (intro b; exact ⟨rfl, rfl⟩)
    | (intro b1 b2
       refine ⟨rfl, ?_⟩
       dsimp only [encode, encodeAccumulator, encodeRmw, encodeControl, encodeCombined, encodeTransfer, encodeShift,
         Mode.operand, Operand.mode]
       rfl)

theorem rowF_encodes : RowEncodes 15 Template.rowF := by
  intro c
  fin_cases c <;> first
    | exact ⟨rfl, rfl⟩
    | (intro b; exact ⟨rfl, rfl⟩)
    | (intro b1 b2
       refine ⟨rfl, ?_⟩
       dsimp only [encode, encodeAccumulator, encodeRmw, encodeControl, encodeCombined, encodeTransfer, encodeShift,
         Mode.operand, Operand.mode]
       rfl)

/-- Every opcode's cell encodes to it. -/
theorem cell_encodes (op : Byte) : CellEncodes op (template op) := by
  have h : op = BitVec.ofNat 8 (16 * (op.toNat / 16) + op.toNat % 16) := by
    rw [Nat.div_add_mod]
    simp
  have key : ∀ r : Fin 16, RowEncodes r.val (Template.matrix.getD r.val []) := by
    intro r
    fin_cases r
    · exact row0_encodes
    · exact row1_encodes
    · exact row2_encodes
    · exact row3_encodes
    · exact row4_encodes
    · exact row5_encodes
    · exact row6_encodes
    · exact row7_encodes
    · exact row8_encodes
    · exact row9_encodes
    · exact rowA_encodes
    · exact rowB_encodes
    · exact rowC_encodes
    · exact rowD_encodes
    · exact rowE_encodes
    · exact rowF_encodes
  have := key ⟨op.toNat / 16, by omega⟩ ⟨op.toNat % 16, by omega⟩
  rw [← h] at this
  exact this

end Sys2Proof.Laws
end

