-- ==== Sys2Proof/Laws/Flags.lean ====
section
/-! SUPPORT. What each flag is after each flag computation. -/

namespace Sys2Proof.Machine

open Sys2Proof

/-- Writing one flag writes that flag and no other. -/
@[simp] theorem flag_setFlag (p : Byte) (f g : Flag) (v : Bool) :
    flag (setFlag p f v) g = if g = f then v else flag p g := by
  unfold flag setFlag Flag.mask
  cases v <;> cases f <;> cases g <;> simp [Flag.bit]

/-- `P` is its eight flags. -/
theorem p_ext {p q : Byte} (h : ∀ f, flag p f = flag q f) : p = q := by
  apply BitVec.eq_of_getLsbD_eq
  intro i hi
  have : i = 0 ∨ i = 1 ∨ i = 2 ∨ i = 3 ∨ i = 4 ∨ i = 5 ∨ i = 6 ∨ i = 7 := by omega
  rcases this with rfl | rfl | rfl | rfl | rfl | rfl | rfl | rfl
  · exact h .c
  · exact h .z
  · exact h .i
  · exact h .d
  · exact h .b
  · exact h .u
  · exact h .v
  · exact h .n

/-- `SetNZ`. -/
@[simp] theorem flag_setNZ (r p : Byte) (g : Flag) :
    flag (setNZ r p) g = if g = .n then r.msb else if g = .z then r == 0 else flag p g := by
  unfold setNZ
  cases g <;> simp

/-- The compare law. -/
@[simp] theorem flag_compare (reg m p : Byte) (g : Flag) :
    flag (compare reg m p) g =
      if g = .n then (reg - m).msb else if g = .z then reg == m
      else if g = .c then decide (reg.toNat ≥ m.toNat) else flag p g := by
  unfold compare
  cases g <;> simp

/-- `BIT`. -/
@[simp] theorem flag_bitTest (a m p : Byte) (g : Flag) :
    flag (bitTest a m p) g =
      if g = .n then m.getLsbD 7 else if g = .z then a &&& m == 0
      else if g = .v then m.getLsbD 6 else flag p g := by
  unfold bitTest
  cases g <;> simp

/-- `ASL`. -/
@[simp] theorem flag_shiftLeft (v p : Byte) (g : Flag) :
    flag (shiftLeft v p).2 g =
      if g = .n then (v <<< 1).msb else if g = .z then v <<< 1 == 0
      else if g = .c then v.getLsbD 7 else flag p g := by
  unfold shiftLeft
  cases g <;> simp

/-- `LSR`. -/
@[simp] theorem flag_shiftRight (v p : Byte) (g : Flag) :
    flag (shiftRight v p).2 g =
      if g = .n then false else if g = .z then v >>> 1 == 0
      else if g = .c then v.getLsbD 0 else flag p g := by
  unfold shiftRight
  cases g <;> simp

/-- `ROL`. -/
@[simp] theorem flag_rotateLeft (v p : Byte) (g : Flag) :
    flag (rotateLeft v p).2 g =
      if g = .n then (rotateLeft v p).1.msb else if g = .z then (rotateLeft v p).1 == 0
      else if g = .c then v.getLsbD 7 else flag p g := by
  unfold rotateLeft
  cases g <;> simp

/-- `ROR`. -/
@[simp] theorem flag_rotateRight (v p : Byte) (g : Flag) :
    flag (rotateRight v p).2 g =
      if g = .n then (rotateRight v p).1.msb else if g = .z then (rotateRight v p).1 == 0
      else if g = .c then v.getLsbD 0 else flag p g := by
  unfold rotateRight
  cases g <;> simp

/-- The addition writes `N`, `V`, `Z`, `C` alone. -/
theorem flag_adc_kept (cfg : Config) (a m p : Byte) {g : Flag} (h : g ∉ [Flag.n, .v, .z, .c]) :
    flag (adc cfg a m p).2 g = flag p g := by
  unfold adc
  cases g <;> simp at h ⊢ <;> split <;> simp

/-- `N` and `Z` are those of the new accumulator. -/
theorem flag_adc_nz (cfg : Config) (a m p : Byte) :
    flag (adc cfg a m p).2 .n = (adc cfg a m p).1.msb ∧
      flag (adc cfg a m p).2 .z = ((adc cfg a m p).1 == 0) := by
  unfold adc
  simp only
  split <;> simp

/-- The subtraction writes `N`, `V`, `Z`, `C` alone. -/
theorem flag_sbc_kept (cfg : Config) (a m p : Byte) {g : Flag} (h : g ∉ [Flag.n, .v, .z, .c]) :
    flag (sbc cfg a m p).2 g = flag p g := by
  unfold sbc
  cases g <;> simp at h ⊢ <;> split <;> simp

/-- `N` and `Z` are those of the new accumulator. -/
theorem flag_sbc_nz (cfg : Config) (a m p : Byte) :
    flag (sbc cfg a m p).2 .n = (sbc cfg a m p).1.msb ∧
      flag (sbc cfg a m p).2 .z = ((sbc cfg a m p).1 == 0) := by
  unfold sbc
  simp only
  split <;> simp

end Sys2Proof.Machine
end

