-- ==== Sys2Proof/Laws/Operands.lean ====
section
/-! SUPPORT. The addressing-mode phase and the shapes of instructions: what each can do, said once. -/

namespace Sys2Proof.Machine

open Sys2Proof

/-! The addressing-mode phase changes no register (40 R140): it leaves everything but the bus record, the external state and the count
of free values. -/

@[simp] theorem locate_pc (o : Operand) (s : State) : (locate o s).2.pc = s.pc := by
  cases o <;> rfl

@[simp] theorem locate_a (o : Operand) (s : State) : (locate o s).2.a = s.a := by
  cases o <;> rfl

@[simp] theorem locate_x (o : Operand) (s : State) : (locate o s).2.x = s.x := by
  cases o <;> rfl

@[simp] theorem locate_y (o : Operand) (s : State) : (locate o s).2.y = s.y := by
  cases o <;> rfl

@[simp] theorem locate_sp (o : Operand) (s : State) : (locate o s).2.sp = s.sp := by
  cases o <;> rfl

@[simp] theorem locate_p (o : Operand) (s : State) : (locate o s).2.p = s.p := by
  cases o <;> rfl

@[simp] theorem locate_prevNmi (o : Operand) (s : State) : (locate o s).2.prevNmi = s.prevNmi := by
  cases o <;> rfl

@[simp] theorem locate_jammed (o : Operand) (s : State) : (locate o s).2.jammed = s.jammed := by
  cases o <;> rfl

@[simp] theorem locate_sid (o : Operand) (s : State) : (locate o s).2.sid = s.sid := by
  cases o <;> rfl

@[simp] theorem locate_raster (o : Operand) (s : State) : (locate o s).2.raster = s.raster := by
  cases o <;> rfl

@[simp] theorem locate_mem (o : Operand) (s : State) : (locate o s).2.mem = s.mem := by
  cases o <;> rfl

@[simp] theorem locate_cfg (o : Operand) (s : State) : (locate o s).2.cfg = s.cfg := by
  cases o <;> rfl

@[simp] theorem locate_nmiLevel (o : Operand) (s : State) : (locate o s).2.nmiLevel = s.nmiLevel := by
  cases o <;> rfl

@[simp] theorem locate_extIrq (o : Operand) (s : State) : (locate o s).2.extIrq = s.extIrq := by
  cases o <;> rfl

@[simp] theorem locate_pending (o : Operand) (s : State) : (locate o s).2.pending = s.pending := by
  cases o <;> rfl

@[simp] theorem locate_requests (o : Operand) (s : State) : (locate o s).2.requests = s.requests := by
  cases o <;> rfl

@[simp] theorem locate_outcome (o : Operand) (s : State) : (locate o s).2.outcome = s.outcome := by
  cases o <;> rfl

@[simp] theorem locate_taken (o : Operand) (s : State) : (locate o s).2.taken = s.taken := by
  cases o <;> rfl

@[simp] theorem locate_sums (o : Operand) (s : State) : (locate o s).2.sums = s.sums := by
  cases o <;> rfl

@[simp] theorem locate_pairs (o : Operand) (s : State) : (locate o s).2.pairs = s.pairs := by
  cases o <;> rfl

@[simp] theorem locate_samples (o : Operand) (s : State) : (locate o s).2.samples = s.samples := by
  cases o <;> rfl

/-! The operand read likewise. -/

@[simp] theorem load_pc (o : Operand) (s : State) : (load o s).state.pc = s.pc := by
  cases o <;> rfl

@[simp] theorem load_a (o : Operand) (s : State) : (load o s).state.a = s.a := by
  cases o <;> rfl

@[simp] theorem load_x (o : Operand) (s : State) : (load o s).state.x = s.x := by
  cases o <;> rfl

@[simp] theorem load_y (o : Operand) (s : State) : (load o s).state.y = s.y := by
  cases o <;> rfl

@[simp] theorem load_sp (o : Operand) (s : State) : (load o s).state.sp = s.sp := by
  cases o <;> rfl

@[simp] theorem load_p (o : Operand) (s : State) : (load o s).state.p = s.p := by
  cases o <;> rfl

@[simp] theorem load_prevNmi (o : Operand) (s : State) : (load o s).state.prevNmi = s.prevNmi := by
  cases o <;> rfl

@[simp] theorem load_jammed (o : Operand) (s : State) : (load o s).state.jammed = s.jammed := by
  cases o <;> rfl

@[simp] theorem load_sid (o : Operand) (s : State) : (load o s).state.sid = s.sid := by
  cases o <;> rfl

@[simp] theorem load_raster (o : Operand) (s : State) : (load o s).state.raster = s.raster := by
  cases o <;> rfl

@[simp] theorem load_mem (o : Operand) (s : State) : (load o s).state.mem = s.mem := by
  cases o <;> rfl

@[simp] theorem load_cfg (o : Operand) (s : State) : (load o s).state.cfg = s.cfg := by
  cases o <;> rfl

@[simp] theorem load_nmiLevel (o : Operand) (s : State) : (load o s).state.nmiLevel = s.nmiLevel := by
  cases o <;> rfl

@[simp] theorem load_extIrq (o : Operand) (s : State) : (load o s).state.extIrq = s.extIrq := by
  cases o <;> rfl

@[simp] theorem load_pending (o : Operand) (s : State) : (load o s).state.pending = s.pending := by
  cases o <;> rfl

@[simp] theorem load_requests (o : Operand) (s : State) : (load o s).state.requests = s.requests := by
  cases o <;> rfl

@[simp] theorem load_outcome (o : Operand) (s : State) : (load o s).state.outcome = s.outcome := by
  cases o <;> rfl

@[simp] theorem load_taken (o : Operand) (s : State) : (load o s).state.taken = s.taken := by
  cases o <;> rfl

@[simp] theorem load_sums (o : Operand) (s : State) : (load o s).state.sums = s.sums := by
  cases o <;> rfl

@[simp] theorem load_pairs (o : Operand) (s : State) : (load o s).state.pairs = s.pairs := by
  cases o <;> rfl

@[simp] theorem load_samples (o : Operand) (s : State) : (load o s).state.samples = s.samples := by
  cases o <;> rfl

/-- An operand read and the address it reads agree on the page crossing. -/
@[simp] theorem load_crossed (o : Operand) (s : State) : (load o s).crossed = (locate o s).1.crossed := by
  cases o <;> rfl

theorem locate_sameStore (o : Operand) (s : State) : SameStore s (locate o s).2 := by
  constructor <;> simp

theorem load_sameStore (o : Operand) (s : State) : SameStore s (load o s).state := by
  constructor <;> simp

@[simp] theorem locate_target (o : Operand) (s : State) (b : Addr) : (locate o s).2.target b = s.target b :=
  (locate_sameStore o s).target b

/-- The count of a row whose two counts are the mode's, by class. -/
theorem cycleCount_write (m : Mode) (k : Bool) : cycleCount .write m k = baseCycles m := rfl

theorem cycleCount_rmw (m : Mode) (k : Bool) : cycleCount .rmw m k = baseCycles m + 2 := rfl

/-- What a read-class instruction with an effect on registers and flags alone leaves. -/
theorem readWith_next (o : Operand) (f : Byte → State → State) (s : State) :
    readWith o f s = (f (load o s).value (load o s).state).finish (opLength o)
      (cycleCount .read o.mode (locate o s).1.crossed) := by
  simp [readWith]

/-- What a write-class instruction leaves. -/
theorem storeWith_next (o : Operand) (f : State → Byte) (s : State) :
    storeWith o f s = (busWrite (locate o s).1.addr (f (locate o s).2) (locate o s).2).finish (opLength o)
      (cycleCount .write o.mode (locate o s).1.crossed) := rfl

/-- What a read-modify-write instruction leaves. -/
theorem rmwWith_next (o : Operand) (f : Byte → State → Byte × State) (s : State) :
    rmwWith o f s =
      (busWrite (locate o s).1.addr
        (f (rmwByte o s) (busRead (locate o s).1.addr (locate o s).2).2).1
        (f (rmwByte o s) (busRead (locate o s).1.addr (locate o s).2).2).2).finish (opLength o)
      (cycleCount .rmw o.mode (locate o s).1.crossed) := rfl

end Sys2Proof.Machine
end

