-- ==== Sys2Proof/Laws/Exec.lean ====
section
/-! SUPPORT. From a rule's encoding table to the words of each row, and what each shape of instruction leaves:
the statements about instructions rest on these. -/

namespace Sys2Proof.Machine

open Sys2Proof Sys2Proof.Laws

/-! ## Words -/

theorem encoded_bare {op : Byte} {i : Instr} (h : template op = .bare i) : Encoded i [op] := by
  have := cell_encodes op
  rw [h] at this
  exact ⟨this.1, this.2, fun rest => decode_bare h rest⟩

theorem encoded_byte {op : Byte} {f : Byte → Instr} (h : template op = .byte f) (b : Byte) :
    Encoded (f b) [op, b] := by
  have := cell_encodes op
  rw [h] at this
  exact ⟨(this b).1, (this b).2, fun rest => decode_byte h b rest⟩

theorem encoded_word {op : Byte} {f : Addr → Instr} (h : template op = .word f) (b1 b2 : Byte) :
    Encoded (f (joinBytes b2 b1)) [op, b1, b2] := by
  have := cell_encodes op
  rw [h] at this
  refine ⟨(this _).1, by simpa using (this (joinBytes b2 b1)).2, fun rest => ?_⟩
  simpa using decode_word h (joinBytes b2 b1) rest

theorem operand_mode (m : Mode) (b1 b2 : Byte) : (m.operand b1 b2).mode = m := by cases m <;> rfl

theorem opLength_operand (m : Mode) (b1 b2 : Byte) : opLength (m.operand b1 b2) = 1 + m.operandBytes := by
  rw [opLength, operand_mode]

theorem encoded_mem {op : Byte} {m : Mode} {f : Operand → Instr} (h : template op = .mem m f) (b1 b2 : Byte) :
    Encoded (f (m.operand b1 b2)) ([op, b1, b2].take (1 + m.operandBytes)) := by
  have hc := cell_encodes op
  rw [h] at hc
  have hd := fun rest => decode_mem (o := m.operand b1 b2) (f := f) (by rw [operand_mode]; exact h) rest
  refine ⟨(hc b1 b2).1, ?_, fun rest => ?_⟩
  · rw [(hc b1 b2).2]
    cases m <;> simp [Mode.operand, Operand.bytes, Mode.operandBytes]
  · have := hd rest
    cases m <;> simpa [Mode.operand, Operand.bytes, Mode.operandBytes] using this

theorem encoded_shift {op : Byte} {m : Mode} {f : ShiftOperand → Instr} (h : template op = .shift m f)
    (b1 b2 : Byte) : Encoded (f (.mem (m.operand b1 b2))) ([op, b1, b2].take (1 + m.operandBytes)) := by
  have hc := cell_encodes op
  rw [h] at hc
  have hd := fun rest => decode_shift (o := m.operand b1 b2) (f := f) (by rw [operand_mode]; exact h) rest
  refine ⟨(hc b1 b2).1, ?_, fun rest => ?_⟩
  · rw [(hc b1 b2).2]
    cases m <;> simp [Mode.operand, Operand.bytes, Mode.operandBytes]
  · have := hd rest
    cases m <;> simpa [Mode.operand, Operand.bytes, Mode.operandBytes] using this

/-- A row agrees with the matrix and with the count of its access class. -/
structure RowOk (f : Byte → Operand → Instr) (cls : Access) (r : Row) : Prop where
  cell : template r.opcode = .mem r.mode (f r.opcode) ∨
    ∃ g, template r.opcode = .shift r.mode g ∧ ∀ o, f r.opcode o = g (.mem o)
  bytes : r.bytes = 1 + r.mode.operandBytes
  count : ∀ k, r.count k = cycleCount cls r.mode k

/-- Rows that agree with the matrix, and the meaning for every operand and state, make a table that runs. -/
theorem rowsRun {f : Byte → Operand → Instr} {rows : List Row} {Effect : Operand → State → State → Prop}
    (cls : Access) (hr : ∀ r ∈ rows, RowOk f cls r)
    (hx : ∀ op o s, ∃ t, exec (f op o) s = .next t ∧
      Advanced (opLength o) (cycleCount cls o.mode (locate o s).1.crossed) s t ∧ RestKept s t ∧ Effect o s t) :
    RowsRun f rows Effect := by
  intro r h b1 b2 s
  obtain ⟨hc, hb, hn⟩ := hr r h
  constructor
  · unfold Row.words Row.operand
    rw [hb]
    rcases hc with hc | ⟨g, hc, hg⟩
    · exact encoded_mem hc b1 b2
    · rw [hg]
      exact encoded_shift hc b1 b2
  · obtain ⟨t, h1, h2, h3, h4⟩ := hx r.opcode (r.operand b1 b2) s
    refine ⟨t, h1, ?_, h3, h4⟩
    unfold Row.operand at h2 ⊢
    rw [opLength_operand, operand_mode, ← hn, ← hb] at h2
    exact h2

/-! ## Shapes -/

/-- `u` differs from `t` in registers and flags alone. -/
structure RegsOnly (s t : State) : Prop where
  store : SameStore s t
  rest : RestKept s t
  pc : t.pc = s.pc
  bus : t.bus = s.bus
  outside : OutsideIs s t

theorem RestKept.refl (s : State) : RestKept s s := by constructor <;> rfl

theorem RestKept.trans {s t u : State} (h : RestKept s t) (k : RestKept t u) : RestKept s u :=
  ⟨k.1.trans h.1, k.2.trans h.2, k.3.trans h.3, k.4.trans h.4, k.5.trans h.5, k.6.trans h.6, k.7.trans h.7,
    k.8.trans h.8, k.9.trans h.9, k.10.trans h.10, k.11.trans h.11⟩

theorem OutsideIs.refl (s : State) : OutsideIs s s := ⟨rfl, rfl⟩

theorem OutsideIs.trans {s t u : State} (h : OutsideIs s t) (k : OutsideIs t u) : OutsideIs s u :=
  ⟨k.1.trans h.1, k.2.trans h.2⟩

/-- Two states alike in what a bus write there looks at have the same outside after it. -/
theorem OutsideIs.busWrite {s t : State} (h : OutsideIs s t) (hc : t.cfg = s.cfg) (a : Addr) (v : Byte) :
    OutsideIs (busWrite a v s) (busWrite a v t) :=
  ⟨by rw [busWrite_ext, busWrite_ext, h.1, State.target, State.target, hc], h.2⟩

theorem finish_rest (len n : Nat) (s : State) : RestKept s (s.finish len n) := by constructor <;> rfl

theorem finish_store (len n : Nat) (s : State) : SameStore s (s.finish len n) := by constructor <;> rfl

theorem spend_rest (n : Nat) (s : State) : RestKept s (s.spend n) := by constructor <;> rfl

theorem busRead_rest (a : Addr) (s : State) : RestKept s (busRead a s).2 := by constructor <;> rfl

theorem busWrite_rest (a : Addr) (v : Byte) (s : State) : RestKept s (busWrite a v s) := by constructor <;> rfl

theorem load_rest (o : Operand) (s : State) : RestKept s (load o s).state := by constructor <;> simp

theorem locate_rest (o : Operand) (s : State) : RestKept s (locate o s).2 := by constructor <;> simp

/-- The state an operand read leaves differs from the start in the bus record and what stands outside alone. -/
theorem load_state (o : Operand) (s : State) :
    (load o s).state = { s with ext := (load o s).state.ext, bus := (load o s).state.bus, draws := (load o s).state.draws } := by
  cases o <;> rfl

/-- Likewise for the addressing-mode phase. -/
theorem locate_state (o : Operand) (s : State) :
    (locate o s).2 = { s with ext := (locate o s).2.ext, bus := (locate o s).2.bus, draws := (locate o s).2.draws } := by
  cases o <;> rfl

/-- A read-class instruction whose effect is on registers and flags alone. -/
theorem readWith_runs {f : Byte → State → State} (hf : ∀ m u, RegsOnly u (f m u)) (o : Operand) (s : State) :
    Advanced (opLength o) (cycleCount .read o.mode (locate o s).1.crossed) s (readWith o f s) ∧
    RestKept s (readWith o f s) ∧ (readWith o f s).bus = (load o s).state.bus ∧
    OutsideIs (load o s).state (readWith o f s) ∧ NothingStored s (readWith o f s) := by
  have h := hf (load o s).value (load o s).state
  rw [readWith_next]
  refine ⟨⟨?_, rfl⟩, ?_, ?_, ?_, ?_⟩
  · simp [h.pc]
  · exact (load_rest o s).trans (h.rest.trans (finish_rest _ _ _))
  · simp [h.bus]
  · exact h.outside.trans ⟨rfl, rfl⟩
  · exact ((load_sameStore o s).trans (h.store.trans (finish_store _ _ _))).nothingStored

/-- A write-class instruction. -/
theorem storeWith_runs (g : State → Byte) (o : Operand) (s : State) (hg : g (locate o s).2 = g s) :
    Advanced (opLength o) (cycleCount .write o.mode (locate o s).1.crossed) s (storeWith o g s) ∧
    RestKept s (storeWith o g s) ∧ StoreEffect g o s (storeWith o g s) := by
  rw [storeWith_next, hg]
  refine ⟨⟨by simp, rfl⟩, ?_, by simp, ⟨rfl, rfl⟩, ?_, ?_, by simp⟩
  · exact (locate_rest o s).trans ((busWrite_rest _ _ _).trans (finish_rest _ _ _))
  · exact (busWrite_storedAt _ _ _).congr (locate_sameStore o s) (finish_store _ _ _)
  · intro r _
    cases r <;> simp [State.reg]

/-- A read-modify-write instruction whose arithmetic is on registers and flags alone. -/
theorem rmwWith_runs {f : Byte → State → Byte × State} (hf : ∀ m u, RegsOnly u (f m u).2) (o : Operand)
    (s u : State) (hu : u = (busRead (locate o s).1.addr (locate o s).2).2) :
    Advanced (opLength o) (cycleCount .rmw o.mode (locate o s).1.crossed) s (rmwWith o f s) ∧
    RestKept s (rmwWith o f s) ∧
    (rmwWith o f s).bus = (locate o s).2.bus ++
      [.read (locate o s).1.addr (rmwByte o s), .write (locate o s).1.addr (f (rmwByte o s) u).1] ∧
    OutsideIs (busWrite (locate o s).1.addr (f (rmwByte o s) u).1 u) (rmwWith o f s) ∧
    StoredAt (locate o s).1.addr (f (rmwByte o s) u).1 s (rmwWith o f s) := by
  subst hu
  have h := hf (rmwByte o s) (busRead (locate o s).1.addr (locate o s).2).2
  have hs := (locate_sameStore o s).trans (busRead_sameStore (locate o s).1.addr (locate o s).2)
  have hr := (locate_rest o s).trans (busRead_rest (locate o s).1.addr (locate o s).2)
  rw [rmwWith_next]
  refine ⟨⟨?_, rfl⟩, ?_, ?_, ?_, ?_⟩
  · rw [State.finish_pc, busWrite_pc, h.pc]
    simp
  · exact hr.trans (h.rest.trans ((busWrite_rest _ _ _).trans (finish_rest _ _ _)))
  · rw [State.finish_bus, busWrite_bus, h.bus]
    simp [rmwByte]
  · exact (h.outside.busWrite h.store.cfg _ _).trans ⟨rfl, rfl⟩
  · exact (busWrite_storedAt _ _ _).congr (hs.trans h.store) (finish_store _ _ _)

/-- An unstable store. -/
theorem unstableStore_runs {reg : State → Byte} (o : Operand) (s : State) (h : reg (locate o s).2 = reg s) :
    Advanced (opLength o) (cycleCount .write o.mode (locate o s).1.crossed) s (unstableStore o reg s) ∧
    RestKept s (unstableStore o reg s) ∧
    MaskedStoreEffect [] (reg s &&& ((locate o s).1.baseHi + 1)) o s (unstableStore o reg s) := by
  have e : unstableStore o reg s =
      (busWrite (maskedAddr (reg s &&& ((locate o s).1.baseHi + 1)) o s) (reg s &&& ((locate o s).1.baseHi + 1))
        (locate o s).2).finish (opLength o) (cycleCount .write o.mode (locate o s).1.crossed) := by
    unfold unstableStore maskedAddr
    rw [← h]
  rw [e]
  refine ⟨⟨by simp, rfl⟩, (locate_rest o s).trans ((busWrite_rest _ _ _).trans (finish_rest _ _ _)), by simp,
    ⟨rfl, rfl⟩, ?_, ?_, by simp⟩
  · exact (busWrite_storedAt _ _ _).congr (locate_sameStore o s) (finish_store _ _ _)
  · intro r _
    cases r <;> simp [State.reg]

/-! ## Add and subtract -/

/-- The addition's result and flags are the rule's (42 R193). -/
theorem adcResult (m : Byte) (s t : State) (ha : t.a = (adc s.cfg s.a m s.p).1)
    (hp : t.p = (adc s.cfg s.a m s.p).2) : AdcResult m s t := by
  rintro c r hc hr
  have hc' : bitNat (flag s.p .c) = c := by rw [hc]; rfl
  have hnz := flag_adc_nz s.cfg s.a m s.p
  rw [← ha, ← hp] at hnz
  refine ⟨?_, hnz, ?_, ?_⟩
  · rw [hp]
    have : flag (adc s.cfg s.a m s.p).2 .v = ((s.a ^^^ r) &&& (m ^^^ r)).msb := by
      unfold adc
      simp only [hc', ← hr]
      split <;> simp
    rw [this]
    simp only [BitVec.msb_and, BitVec.msb_xor]
    cases s.a.msb <;> cases m.msb <;> cases r.msb <;> simp
  · intro hd
    rw [ha, hp]
    unfold adc
    simp [hc', hd, hr]
  · intro hd
    rw [ha, hp]
    unfold adc
    simp [hd]

/-- The subtraction's result and flags are the rule's (42 R194). -/
theorem sbcResult (m : Byte) (s t : State) (ha : t.a = (sbc s.cfg s.a m s.p).1)
    (hp : t.p = (sbc s.cfg s.a m s.p).2) : SbcResult m s t := by
  rintro d r hd hr
  have hc' : (s.a.toNat : Int) - m.toNat - (1 - bitNat (flag s.p .c)) = d := by
    rw [hd]
    cases flag s.p .c <;> simp [bitNat]
  have hnz := flag_sbc_nz s.cfg s.a m s.p
  rw [← ha, ← hp] at hnz
  refine ⟨?_, hnz, ?_, ?_, ?_⟩
  · rw [hp]
    have : flag (sbc s.cfg s.a m s.p).2 .v = ((s.a ^^^ m) &&& (s.a ^^^ r)).msb := by
      unfold sbc
      simp only [hc', ← hr]
      split <;> simp
    rw [this]
    simp only [BitVec.msb_and, BitVec.msb_xor]
    cases s.a.msb <;> cases m.msb <;> cases r.msb <;> simp
  · rw [hp]
    unfold sbc
    simp only [hc']
    split <;> simp
  · intro h
    rw [ha]
    unfold sbc
    simp [hc', h, hr]
  · intro h
    rw [ha]
    unfold sbc
    simp [h]

/-! ## From a meaning to its statement -/

/-- A table of read-class instructions. -/
theorem readRows {f : Byte → Operand → Instr} {rows : List Row} {regs : List Reg} {flags : List Flag}
    {Result : Byte → State → State → Prop} (g : Byte → State → State) (hr : ∀ r ∈ rows, RowOk f .read r)
    (he : ∀ op o s, exec (f op o) s = .next (readWith o g s)) (hg : ∀ m u, RegsOnly u (g m u))
    (hregs : ∀ m u, RegsKept regs u (g m u)) (hflags : ∀ m u, FlagsKept flags u (g m u))
    (hres : ∀ n k m s e b d, Result m s ((g m { s with ext := e, bus := b, draws := d }).finish n k)) :
    RowsRun f rows (ReadEffect regs flags Result) := by
  refine rowsRun .read hr fun op o s => ⟨_, he op o s, ?_⟩
  obtain ⟨a1, a2, a3, a4, a5⟩ := readWith_runs hg o s
  refine ⟨a1, a2, a3, a4, a5, ?_, ?_, ?_⟩
  · intro r hr
    have := hregs (load o s).value (load o s).state r hr
    rw [readWith_next]
    cases r <;> simpa [State.reg] using this
  · intro r hr
    have := hflags (load o s).value (load o s).state r hr
    rw [readWith_next]
    simpa using this
  · rw [readWith_next, load_state]
    exact hres _ _ _ _ _ _ _

/-- A table of write-class instructions. -/
theorem storeRows {f : Byte → Operand → Instr} {rows : List Row} {g : State → Byte}
    (hr : ∀ r ∈ rows, RowOk f .write r) (he : ∀ op o s, exec (f op o) s = .next (storeWith o g s))
    (hg : ∀ o s, g (locate o s).2 = g s) : RowsRun f rows (StoreEffect g) :=
  rowsRun .write hr fun op o s => ⟨_, he op o s, storeWith_runs g o s (hg o s)⟩

/-- A table of read-modify-write instructions. -/
theorem rmwRows {f : Byte → Operand → Instr} {rows : List Row} {regs : List Reg} {flags : List Flag}
    {result : Byte → State → Byte} {Result : Byte → State → State → Prop} (g : Byte → State → Byte × State)
    (hr : ∀ r ∈ rows, RowOk f .rmw r) (he : ∀ op o s, exec (f op o) s = .next (rmwWith o g s))
    (hg : ∀ m u, RegsOnly u (g m u).2)
    (hbyte : ∀ m s e b d, (g m { s with ext := e, bus := b, draws := d }).1 = result m s)
    (hregs : ∀ m u, RegsKept regs u (g m u).2) (hflags : ∀ m u, FlagsKept flags u (g m u).2)
    (hres : ∀ n k a v m s e b d,
      Result m s ((busWrite a v (g m { s with ext := e, bus := b, draws := d }).2).finish n k)) :
    RowsRun f rows (RmwEffect regs flags result Result) := by
  refine rowsRun .rmw hr fun op o s => ⟨_, he op o s, ?_⟩
  obtain ⟨a1, a2, a3, a4, a5⟩ := rmwWith_runs hg o s _ rfl
  have hu : (busRead (locate o s).1.addr (locate o s).2).2 =
      { s with
        ext := (busRead (locate o s).1.addr (locate o s).2).2.ext
        bus := (busRead (locate o s).1.addr (locate o s).2).2.bus
        draws := (busRead (locate o s).1.addr (locate o s).2).2.draws } := by
    cases o <;> rfl
  have hb : (g (rmwByte o s) (busRead (locate o s).1.addr (locate o s).2).2).1 = result (rmwByte o s) s := by
    rw [hu]
    exact hbyte _ _ _ _ _
  rw [hb] at a3 a4 a5
  refine ⟨a1, a2, a3, a4, a5, ?_, ?_, ?_⟩
  · intro r hr
    have := hregs (rmwByte o s) (busRead (locate o s).1.addr (locate o s).2).2 r hr
    rw [rmwWith_next]
    cases r <;> simpa [State.reg] using this
  · intro r hr
    have := hflags (rmwByte o s) (busRead (locate o s).1.addr (locate o s).2).2 r hr
    rw [rmwWith_next]
    simpa using this
  · rw [rmwWith_next, hu]
    exact hres _ _ _ _ _ _ _ _ _

/-- An implied instruction on registers and flags alone. -/
theorem implied_runs {i : Instr} {op : Byte} {regs : List Reg} {flags : List Flag} {Result : State → State → Prop}
    (g : State → State) (ht : template op = .bare i) (he : ∀ s, exec i s = .next (implied g s))
    (hg : ∀ u, RegsOnly u (g u)) (hregs : ∀ u, RegsKept regs u (g u)) (hflags : ∀ u, FlagsKept flags u (g u))
    (hres : ∀ s, Result s ((g s).finish 1 2)) : ImpliedRuns i op 2 regs flags Result := by
  refine ⟨encoded_bare ht, fun s => ⟨_, he s, ⟨?_, rfl⟩, ?_, ⟨?_, ?_⟩, ?_, ?_, ?_, hres s⟩⟩
  · simp [implied, (hg s).pc]
  · exact (hg s).rest.trans (finish_rest _ _ _)
  · exact (hg s).bus
  · exact (hg s).outside
  · exact ((hg s).store.trans (finish_store _ _ _)).nothingStored
  · intro r hr
    have := hregs s r hr
    cases r <;> simpa [State.reg, implied] using this
  · intro r hr
    have := hflags s r hr
    simpa [implied] using this

/-- An instruction with an immediate byte, on registers, flags and the count of free values alone. -/
theorem immediate_runs {i : Byte → Instr} {op : Byte} {regs : List Reg} {flags : List Flag} {Pre : State → Prop}
    {Result : Byte → State → State → Prop} (g : Byte → State → State) (ht : template op = .byte i)
    (he : ∀ m s, Pre s → exec (i m) s = .next (readWith (.imm m) g s))
    (hg : ∀ m u, SameStore u (g m u) ∧ RestKept u (g m u) ∧ (g m u).pc = u.pc ∧ (g m u).bus = u.bus ∧
      (g m u).ext = u.ext)
    (hregs : ∀ m u, RegsKept regs u (g m u)) (hflags : ∀ m u, FlagsKept flags u (g m u))
    (hres : ∀ m s, Pre s → Result m s ((g m s).finish 2 2)) : ImmediateRuns i op regs flags Pre Result := by
  refine fun m s => ⟨encoded_byte ht m, fun hp => ⟨_, he m s hp, ?_⟩⟩
  obtain ⟨h1, h2, h3, h4, h5⟩ := hg m s
  refine ⟨⟨?_, rfl⟩, h2.trans (finish_rest _ _ _), h4, h5, (h1.trans (finish_store _ _ _)).nothingStored, ?_, ?_,
    hres m s hp⟩
  · simp [readWith_next, load, h3, opLength, Operand.mode, Mode.operandBytes]
  · intro r hr
    have := hregs m s r hr
    cases r <;> simpa [State.reg, readWith_next, load] using this
  · intro r hr
    have := hflags m s r hr
    simpa [readWith_next, load] using this

end Sys2Proof.Machine
end

