-- ==== Sys2Proof/Laws/PerInstr.lean ====
section
/-! SUPPORT. The family `RoundTrip`, one lemma per instruction: decoding its words gives it back. -/

namespace Sys2Proof.Laws.RoundTrip

open Sys2Proof

/-- Decoding the words of the instruction, if it is well formed, gives it back, whatever follows. -/
def Statement (i : Instr) : Prop := i.wellFormed = true → ∀ rest, decode (encode i ++ rest) = .ok (i, rest)

theorem lda (o : Operand) : Statement (.lda o) := by
  intro h rest
  refine decode_mem (o := o) (f := .lda) ?_ rest
  cases o <;> first | (dsimp only [Operand.mode]; rfl) | cases h

theorem ldx (o : Operand) : Statement (.ldx o) := by
  intro h rest
  refine decode_mem (o := o) (f := .ldx) ?_ rest
  cases o <;> first | (dsimp only [Operand.mode]; rfl) | cases h

theorem ldy (o : Operand) : Statement (.ldy o) := by
  intro h rest
  refine decode_mem (o := o) (f := .ldy) ?_ rest
  cases o <;> first | (dsimp only [Operand.mode]; rfl) | cases h

theorem sta (o : Operand) : Statement (.sta o) := by
  intro h rest
  refine decode_mem (o := o) (f := .sta) ?_ rest
  cases o <;> first | (dsimp only [Operand.mode]; rfl) | cases h

theorem stx (o : Operand) : Statement (.stx o) := by
  intro h rest
  refine decode_mem (o := o) (f := .stx) ?_ rest
  cases o <;> first | (dsimp only [Operand.mode]; rfl) | cases h

theorem sty (o : Operand) : Statement (.sty o) := by
  intro h rest
  refine decode_mem (o := o) (f := .sty) ?_ rest
  cases o <;> first | (dsimp only [Operand.mode]; rfl) | cases h

theorem tax : Statement .tax := fun _ rest => decode_bare rfl rest

theorem tay : Statement .tay := fun _ rest => decode_bare rfl rest

theorem txa : Statement .txa := fun _ rest => decode_bare rfl rest

theorem tya : Statement .tya := fun _ rest => decode_bare rfl rest

theorem tsx : Statement .tsx := fun _ rest => decode_bare rfl rest

theorem txs : Statement .txs := fun _ rest => decode_bare rfl rest

theorem ora (o : Operand) : Statement (.ora o) := by
  intro h rest
  refine decode_mem (o := o) (f := .ora) ?_ rest
  cases o <;> first | (dsimp only [Operand.mode]; rfl) | cases h

theorem and (o : Operand) : Statement (.and o) := by
  intro h rest
  refine decode_mem (o := o) (f := .and) ?_ rest
  cases o <;> first | (dsimp only [Operand.mode]; rfl) | cases h

theorem eor (o : Operand) : Statement (.eor o) := by
  intro h rest
  refine decode_mem (o := o) (f := .eor) ?_ rest
  cases o <;> first | (dsimp only [Operand.mode]; rfl) | cases h

theorem adc (o : Operand) : Statement (.adc o) := by
  intro h rest
  refine decode_mem (o := o) (f := .adc) ?_ rest
  cases o <;> first | (dsimp only [Operand.mode]; rfl) | cases h

theorem sbc (o : Operand) : Statement (.sbc o) := by
  intro h rest
  refine decode_mem (o := o) (f := .sbc) ?_ rest
  cases o <;> first | (dsimp only [Operand.mode]; rfl) | cases h

theorem cmp (o : Operand) : Statement (.cmp o) := by
  intro h rest
  refine decode_mem (o := o) (f := .cmp) ?_ rest
  cases o <;> first | (dsimp only [Operand.mode]; rfl) | cases h

theorem cpx (o : Operand) : Statement (.cpx o) := by
  intro h rest
  refine decode_mem (o := o) (f := .cpx) ?_ rest
  cases o <;> first | (dsimp only [Operand.mode]; rfl) | cases h

theorem cpy (o : Operand) : Statement (.cpy o) := by
  intro h rest
  refine decode_mem (o := o) (f := .cpy) ?_ rest
  cases o <;> first | (dsimp only [Operand.mode]; rfl) | cases h

theorem bit (o : Operand) : Statement (.bit o) := by
  intro h rest
  refine decode_mem (o := o) (f := .bit) ?_ rest
  cases o <;> first | (dsimp only [Operand.mode]; rfl) | cases h

theorem asl (o : ShiftOperand) : Statement (.asl o) := by
  intro h rest
  cases o with
  | acc => exact decode_bare rfl rest
  | mem o =>
    refine decode_shift (o := o) (f := .asl) ?_ rest
    cases o <;> first | (dsimp only [Operand.mode]; rfl) | cases h

theorem lsr (o : ShiftOperand) : Statement (.lsr o) := by
  intro h rest
  cases o with
  | acc => exact decode_bare rfl rest
  | mem o =>
    refine decode_shift (o := o) (f := .lsr) ?_ rest
    cases o <;> first | (dsimp only [Operand.mode]; rfl) | cases h

theorem rol (o : ShiftOperand) : Statement (.rol o) := by
  intro h rest
  cases o with
  | acc => exact decode_bare rfl rest
  | mem o =>
    refine decode_shift (o := o) (f := .rol) ?_ rest
    cases o <;> first | (dsimp only [Operand.mode]; rfl) | cases h

theorem ror (o : ShiftOperand) : Statement (.ror o) := by
  intro h rest
  cases o with
  | acc => exact decode_bare rfl rest
  | mem o =>
    refine decode_shift (o := o) (f := .ror) ?_ rest
    cases o <;> first | (dsimp only [Operand.mode]; rfl) | cases h

theorem inc (o : Operand) : Statement (.inc o) := by
  intro h rest
  refine decode_mem (o := o) (f := .inc) ?_ rest
  cases o <;> first | (dsimp only [Operand.mode]; rfl) | cases h

theorem dec (o : Operand) : Statement (.dec o) := by
  intro h rest
  refine decode_mem (o := o) (f := .dec) ?_ rest
  cases o <;> first | (dsimp only [Operand.mode]; rfl) | cases h

theorem inx : Statement .inx := fun _ rest => decode_bare rfl rest

theorem iny : Statement .iny := fun _ rest => decode_bare rfl rest

theorem dex : Statement .dex := fun _ rest => decode_bare rfl rest

theorem dey : Statement .dey := fun _ rest => decode_bare rfl rest

theorem bpl (d : Byte) : Statement (.bpl d) := fun _ rest => decode_byte rfl d rest

theorem bmi (d : Byte) : Statement (.bmi d) := fun _ rest => decode_byte rfl d rest

theorem bvc (d : Byte) : Statement (.bvc d) := fun _ rest => decode_byte rfl d rest

theorem bvs (d : Byte) : Statement (.bvs d) := fun _ rest => decode_byte rfl d rest

theorem bcc (d : Byte) : Statement (.bcc d) := fun _ rest => decode_byte rfl d rest

theorem bcs (d : Byte) : Statement (.bcs d) := fun _ rest => decode_byte rfl d rest

theorem bne (d : Byte) : Statement (.bne d) := fun _ rest => decode_byte rfl d rest

theorem beq (d : Byte) : Statement (.beq d) := fun _ rest => decode_byte rfl d rest

theorem jmp (target : Addr) : Statement (.jmp target) := fun _ rest => decode_word rfl target rest

theorem jmpInd (ptr : Addr) : Statement (.jmpInd ptr) := fun _ rest => decode_word rfl ptr rest

theorem jsr (target : Addr) : Statement (.jsr target) := fun _ rest => decode_word rfl target rest

theorem rts : Statement .rts := fun _ rest => decode_bare rfl rest

theorem pha : Statement .pha := fun _ rest => decode_bare rfl rest

theorem php : Statement .php := fun _ rest => decode_bare rfl rest

theorem pla : Statement .pla := fun _ rest => decode_bare rfl rest

theorem plp : Statement .plp := fun _ rest => decode_bare rfl rest

theorem clc : Statement .clc := fun _ rest => decode_bare rfl rest

theorem sec : Statement .sec := fun _ rest => decode_bare rfl rest

theorem cli : Statement .cli := fun _ rest => decode_bare rfl rest

theorem sei : Statement .sei := fun _ rest => decode_bare rfl rest

theorem clv : Statement .clv := fun _ rest => decode_bare rfl rest

theorem cld : Statement .cld := fun _ rest => decode_bare rfl rest

theorem sed : Statement .sed := fun _ rest => decode_bare rfl rest

theorem nop : Statement .nop := fun _ rest => decode_bare rfl rest

theorem brk : Statement .brk := fun _ rest => decode_bare rfl rest

theorem rti : Statement .rti := fun _ rest => decode_bare rfl rest

theorem jam (code : Byte) : Statement (.jam code) := by
  intro h rest
  simp only [Instr.wellFormed, jamCodes, List.cons_append, List.nil_append, List.contains_eq_mem,
    decide_eq_true_eq, List.mem_cons, List.not_mem_nil, or_false] at h
  rcases h with rfl | rfl | rfl | rfl | rfl | rfl | rfl | rfl | rfl | rfl | rfl | rfl <;> exact decode_bare rfl rest

theorem slo (o : Operand) : Statement (.slo o) := by
  intro h rest
  refine decode_mem (o := o) (f := .slo) ?_ rest
  cases o <;> first | (dsimp only [Operand.mode]; rfl) | cases h

theorem rla (o : Operand) : Statement (.rla o) := by
  intro h rest
  refine decode_mem (o := o) (f := .rla) ?_ rest
  cases o <;> first | (dsimp only [Operand.mode]; rfl) | cases h

theorem sre (o : Operand) : Statement (.sre o) := by
  intro h rest
  refine decode_mem (o := o) (f := .sre) ?_ rest
  cases o <;> first | (dsimp only [Operand.mode]; rfl) | cases h

theorem rra (o : Operand) : Statement (.rra o) := by
  intro h rest
  refine decode_mem (o := o) (f := .rra) ?_ rest
  cases o <;> first | (dsimp only [Operand.mode]; rfl) | cases h

theorem dcp (o : Operand) : Statement (.dcp o) := by
  intro h rest
  refine decode_mem (o := o) (f := .dcp) ?_ rest
  cases o <;> first | (dsimp only [Operand.mode]; rfl) | cases h

theorem isc (o : Operand) : Statement (.isc o) := by
  intro h rest
  refine decode_mem (o := o) (f := .isc) ?_ rest
  cases o <;> first | (dsimp only [Operand.mode]; rfl) | cases h

theorem sax (o : Operand) : Statement (.sax o) := by
  intro h rest
  refine decode_mem (o := o) (f := .sax) ?_ rest
  cases o <;> first | (dsimp only [Operand.mode]; rfl) | cases h

theorem lax (o : Operand) : Statement (.lax o) := by
  intro h rest
  refine decode_mem (o := o) (f := .lax) ?_ rest
  cases o <;> first | (dsimp only [Operand.mode]; rfl) | cases h

theorem anc (code : Byte) (m : Byte) : Statement (.anc code m) := by
  intro h rest
  simp only [Instr.wellFormed, ancCodes, List.contains_eq_mem, decide_eq_true_eq, List.mem_cons,
    List.not_mem_nil, or_false] at h
  rcases h with rfl | rfl <;> exact decode_byte rfl m rest

theorem alr (m : Byte) : Statement (.alr m) := fun _ rest => decode_byte rfl m rest

theorem arr (m : Byte) : Statement (.arr m) := fun _ rest => decode_byte rfl m rest

theorem sbx (m : Byte) : Statement (.sbx m) := fun _ rest => decode_byte rfl m rest

theorem sbcEB (m : Byte) : Statement (.sbcEB m) := fun _ rest => decode_byte rfl m rest

theorem las (addr : Addr) : Statement (.las addr) := fun _ rest => decode_word rfl addr rest

theorem nopImplied (code : Byte) : Statement (.nopImplied code) := by
  intro h rest
  simp only [Instr.wellFormed, nopImpliedCodes, List.contains_eq_mem,
    decide_eq_true_eq, List.mem_cons, List.not_mem_nil, or_false] at h
  rcases h with rfl | rfl | rfl | rfl | rfl | rfl <;> exact decode_bare rfl rest

theorem nopImm (code : Byte) (m : Byte) : Statement (.nopImm code m) := by
  intro h rest
  simp only [Instr.wellFormed, nopImmCodes, List.contains_eq_mem, decide_eq_true_eq, List.mem_cons,
    List.not_mem_nil, or_false] at h
  rcases h with rfl | rfl | rfl | rfl | rfl <;> exact decode_byte rfl m rest

theorem nopMem (code : Byte) (o : Operand) : Statement (.nopMem code o) := by
  intro h rest
  cases o <;> simp only [Instr.wellFormed, nopMemCodes, List.contains_eq_mem, decide_eq_true_eq, List.mem_cons,
    List.not_mem_nil, or_false] at h
  case zp z => rcases h with rfl | rfl | rfl <;> exact decode_mem (o := .zp z) rfl rest
  case zpx z => rcases h with rfl | rfl | rfl | rfl | rfl | rfl <;> exact decode_mem (o := .zpx z) rfl rest
  case abs a => rcases h with rfl; exact decode_mem (o := .abs a) rfl rest
  case abx a => rcases h with rfl | rfl | rfl | rfl | rfl | rfl <;> exact decode_mem (o := .abx a) rfl rest

theorem ane (m : Byte) : Statement (.ane m) := fun _ rest => decode_byte rfl m rest

theorem lxa (m : Byte) : Statement (.lxa m) := fun _ rest => decode_byte rfl m rest

theorem sha (o : Operand) : Statement (.sha o) := by
  intro h rest
  refine decode_mem (o := o) (f := .sha) ?_ rest
  cases o <;> first | (dsimp only [Operand.mode]; rfl) | cases h

theorem shx (addr : Addr) : Statement (.shx addr) := fun _ rest => decode_word rfl addr rest

theorem shy (addr : Addr) : Statement (.shy addr) := fun _ rest => decode_word rfl addr rest

theorem tas (addr : Addr) : Statement (.tas addr) := fun _ rest => decode_word rfl addr rest

end Sys2Proof.Laws.RoundTrip
end

