-- ==== Sys2Proof/Laws/Raster.lean ====
section
/-! SUPPORT. What the raster timer's row passages do. -/

namespace Sys2Proof.Machine

open Sys2Proof

theorem rowTick_acc (R : Nat) (x : Nat) (r : Raster) :
    Raster.rowTick R { r with acc := x } = { r.rowTick R with acc := x } := by
  simp only [Raster.rowTick]
  split <;> rfl

theorem rowTicks_acc (R : Nat) (x : Nat) (k : Nat) (r : Raster) :
    Raster.rowTicks R k { r with acc := x } = { Raster.rowTicks R k r with acc := x } := by
  induction k generalizing r with
  | zero => rfl
  | succ k ih => simp only [Raster.rowTicks, rowTick_acc, ih]

theorem rowTicks_add (R j k : Nat) (r : Raster) :
    Raster.rowTicks R (j + k) r = Raster.rowTicks R k (Raster.rowTicks R j r) := by
  induction j generalizing r with
  | zero => simp [Raster.rowTicks]
  | succ j ih => simp only [Nat.succ_add, Raster.rowTicks, ih]

/-- The row is the only thing every passage changes; the two request bits are set at a match. -/
theorem rowTick_cases (R : Nat) (r : Raster) :
    Raster.rowTick R r =
      { r with
        row := nextRow R r.row
        matched := r.matched || (r.enable.getLsbD 0 && nextRow R r.row == r.cmp)
        irq := r.irq || (r.enable.getLsbD 0 && nextRow R r.row == r.cmp) } := by
  unfold Raster.rowTick
  dsimp only
  generalize (r.enable.getLsbD 0 && nextRow R r.row == r.cmp) = b
  cases b <;> simp

theorem rowTick_frame (R : Nat) (r : Raster) :
    (r.rowTick R).cmp = r.cmp ∧ (r.rowTick R).ctrlLow = r.ctrlLow ∧ (r.rowTick R).enable = r.enable ∧
      (r.rowTick R).acc = r.acc ∧ (r.rowTick R).row = nextRow R r.row := by
  rw [rowTick_cases]
  exact ⟨rfl, rfl, rfl, rfl, rfl⟩

theorem rowTicks_frame (R k : Nat) (r : Raster) :
    (Raster.rowTicks R k r).cmp = r.cmp ∧ (Raster.rowTicks R k r).ctrlLow = r.ctrlLow ∧
      (Raster.rowTicks R k r).enable = r.enable ∧ (Raster.rowTicks R k r).acc = r.acc := by
  induction k generalizing r with
  | zero => exact ⟨rfl, rfl, rfl, rfl⟩
  | succ k ih =>
    obtain ⟨h1, h2, h3, h4⟩ := ih (r.rowTick R)
    obtain ⟨g1, g2, g3, g4, -⟩ := rowTick_frame R r
    exact ⟨h1.trans g1, h2.trans g2, h3.trans g3, h4.trans g4⟩

/-- The next row, in range. -/
theorem nextRow_toNat {R : Nat} (hR : R ≤ 512) {row : BitVec 9} (h : row.toNat < R) :
    (nextRow R row).toNat = (row.toNat + 1) % R := by
  unfold nextRow
  split
  · rename_i e
    rw [e, Nat.mod_self]
    rfl
  · rename_i e
    rw [BitVec.toNat_add, Nat.mod_eq_of_lt (a := row.toNat + 1) (by omega)]
    simp
    omega

theorem nextRow_lt {R : Nat} (hR : R ≤ 512) {row : BitVec 9} (h : row.toNat < R) : (nextRow R row).toNat < R := by
  rw [nextRow_toNat hR h]
  exact Nat.mod_lt _ (by omega)

/-- The row after `k` passages, in range. -/
theorem rowTicks_row {R : Nat} (hR : R ≤ 512) (k : Nat) {r : Raster} (h : r.row.toNat < R) :
    (Raster.rowTicks R k r).row.toNat = (r.row.toNat + k) % R := by
  induction k generalizing r with
  | zero => exact (Nat.mod_eq_of_lt h).symm
  | succ k ih =>
    have hr := (rowTick_frame R r).2.2.2.2
    rw [Raster.rowTicks, ih (by rw [hr]; exact nextRow_lt hR h), hr, nextRow_toNat hR h, Nat.mod_add_mod]
    congr 1
    omega

/-- The two request bits move together. -/
theorem rowTicks_matched (R k : Nat) {r : Raster} (h : r.irq = r.matched) :
    (Raster.rowTicks R k r).irq = (Raster.rowTicks R k r).matched := by
  induction k generalizing r with
  | zero => exact h
  | succ k ih =>
    apply ih
    rw [rowTick_cases, h]

/-- The request bit after `k` passages: set before, or the match is enabled and some passage reached `cmp`. -/
theorem rowTicks_irq {R : Nat} (hR : R ≤ 512) (k : Nat) {r : Raster} (h : r.row.toNat < R) :
    (Raster.rowTicks R k r).irq = true ↔
      r.irq = true ∨ (r.enable.getLsbD 0 = true ∧ ∃ j, 1 ≤ j ∧ j ≤ k ∧ (r.row.toNat + j) % R = r.cmp.toNat) := by
  induction k generalizing r with
  | zero =>
    constructor
    · exact .inl
    · rintro (h | ⟨-, j, h1, h2, -⟩)
      · exact h
      · omega
  | succ k ih =>
    obtain ⟨hc, -, he, -, hr⟩ := rowTick_frame R r
    have hn := nextRow_toNat hR h
    rw [Raster.rowTicks, ih (by rw [hr]; exact nextRow_lt hR h), hc, he, hr, hn]
    have hirq : (r.rowTick R).irq = true ↔
        r.irq = true ∨ (r.enable.getLsbD 0 = true ∧ (r.row.toNat + 1) % R = r.cmp.toNat) := by
      rw [rowTick_cases, ← hn]
      simp only [Bool.or_eq_true, Bool.and_eq_true, beq_iff_eq]
      exact or_congr_right (and_congr_right fun _ => ⟨fun e => by rw [e], BitVec.eq_of_toNat_eq⟩)
    rw [hirq]
    constructor
    · rintro ((h | ⟨h1, h2⟩) | ⟨h1, j, h2, h3, h4⟩)
      · exact .inl h
      · exact .inr ⟨h1, 1, by omega, by omega, h2⟩
      · refine .inr ⟨h1, j + 1, by omega, by omega, ?_⟩
        rw [Nat.mod_add_mod] at h4
        rw [← h4]
        congr 1
        omega
    · rintro (h | ⟨h1, j, h2, h3, h4⟩)
      · exact .inl (.inl h)
      · by_cases hj : j = 1
        · subst hj
          exact .inl (.inr ⟨h1, h4⟩)
        · refine .inr ⟨h1, j - 1, by omega, by omega, ?_⟩
          rw [Nat.mod_add_mod, ← h4]
          congr 1
          omega

end Sys2Proof.Machine
end

