-- ==== Sys2Proof/Laws/Stack.lean ====
section
/-! SUPPORT. What pushes, pulls, taking an exception and returning from one do: cited instead of unfolding them. -/

namespace Sys2Proof.Machine

open Sys2Proof

theorem stackAddr_slot (s : State) : s.stackAddr = stackSlot s 0 := by simp [stackSlot, State.stackAddr]

theorem stackSlot_sub (s u : State) (j k : Byte) (hc : u.cfg = s.cfg) (hs : u.sp = s.sp - j) :
    stackSlot u k = stackSlot s (j + k) := by
  unfold stackSlot
  rw [hc, hs]
  congr 2
  bv_omega

/-- Two stack slots at different depths are different addresses. -/
theorem stackSlot_ne (s : State) {j k : Byte} (h : j ≠ k) : stackSlot s j ≠ stackSlot s k := by
  unfold stackSlot
  intro e
  have e' : zeroPage (s.sp - j) = zeroPage (s.sp - k) := by
    have := congrArg (· - s.cfg.stackBase) e
    simpa [BitVec.add_comm s.cfg.stackBase] using this
  have : (zeroPage (s.sp - j)).toNat = (zeroPage (s.sp - k)).toNat := by rw [e']
  simp only [zeroPage, BitVec.toNat_setWidth] at this
  apply h
  bv_omega

/-- One push. -/
theorem push_eq (v : Byte) (s : State) : push v s = { busWrite (stackSlot s 0) v s with sp := s.sp - 1 } := by
  unfold push
  rw [stackAddr_slot]
  rfl

/-- Two pushes. -/
theorem pushAddr_eq (v : Addr) (s : State) : pushAddr v s =
    { busWrite (stackSlot s 1) (loByte v) (busWrite (stackSlot s 0) (hiByte v) s) with sp := s.sp - 2 } := by
  unfold pushAddr
  rw [push_eq (loByte v), push_eq (hiByte v)]
  rw [stackSlot_sub s { busWrite (stackSlot s 0) (hiByte v) s with sp := s.sp - 1 } 1 0 rfl rfl]
  have : s.sp - 1 - 1 = s.sp - 2 := by bv_omega
  simp only [this]
  rfl

/-- The three pushes of an exception entry. -/
theorem pushStatus_eq (status : Byte) (v : Addr) (s : State) :
    push status (pushAddr v s) = { stacked3 (hiByte v) (loByte v) status s with sp := s.sp - 3 } := by
  rw [push_eq, pushAddr_eq, stackSlot_sub s
    { busWrite (stackSlot s 1) (loByte v) (busWrite (stackSlot s 0) (hiByte v) s) with sp := s.sp - 2 } 2 0 rfl rfl]
  have : s.sp - 2 - 1 = s.sp - 3 := by bv_omega
  simp only [this]
  rfl

theorem push_pushed (v : Byte) (s : State) : Pushed v s (push v s) := by
  rw [push_eq]
  refine ⟨(busWrite_storedAt _ _ _).congr (SameStore.refl s) (by constructor <;> rfl), rfl, ⟨rfl, rfl⟩, rfl, ?_, rfl⟩
  intro r hr
  cases r <;> simp [State.reg] at hr ⊢

/-- `Pushed` looks at memory, devices, the bus record and the registers alone. -/
theorem Pushed.congr {v : Byte} {s t u : State} (h : Pushed v s t) (hs : SameStore t u) (hb : u.bus = t.bus)
    (hd : OutsideIs t u) (hp : u.p = t.p) (hr : ∀ r, u.reg r = t.reg r) : Pushed v s u where
  store := h.store.congr (SameStore.refl s) hs
  bus := hb.trans h.bus
  outside := h.outside.trans hd
  sp := (hr .sp).trans h.sp
  regs r k := (hr r).trans (h.regs r k)
  flags := hp.trans h.flags

/-- One pull. -/
theorem pull_eq (s : State) : pull s =
    (pulledByte s, { (busRead (s.cfg.stackBase + zeroPage (s.sp + 1)) s).2 with sp := s.sp + 1 }) := rfl

/-- Two pulls are two bus reads, low byte first. -/
theorem pullAddr_eq (s : State) (lo hi : Byte × State)
    (hlo : lo = busRead (s.cfg.stackBase + zeroPage (s.sp + 1)) s)
    (hhi : hi = busRead (s.cfg.stackBase + zeroPage (s.sp + 2)) lo.2) :
    pullAddr s = (joinBytes hi.1 lo.1, { hi.2 with sp := s.sp + 2 }) := by
  subst hlo hhi
  have e : s.sp + 1 + 1 = s.sp + 2 := by bv_omega
  rw [← e]
  rfl

/-- Three pulls: the return from an exception. -/
theorem returnFromException_eq (s : State) (st lo hi : Byte × State)
    (hst : st = busRead (s.cfg.stackBase + zeroPage (s.sp + 1)) s)
    (hlo : lo = busRead (s.cfg.stackBase + zeroPage (s.sp + 2)) st.2)
    (hhi : hi = busRead (s.cfg.stackBase + zeroPage (s.sp + 3)) lo.2) :
    returnFromException s = { hi.2 with pc := joinBytes hi.1 lo.1, p := st.1, sp := s.sp + 3 } := by
  subst hst hlo hhi
  have e2 : s.sp + 1 + 1 = s.sp + 2 := by bv_omega
  have e3 : s.sp + 1 + 2 = s.sp + 3 := by bv_omega
  unfold returnFromException
  rw [pull_eq]
  dsimp only
  rw [pullAddr_eq _ _ _ rfl rfl]
  simp only [e2, e3]
  rfl

/-- What reads as RAM after a store of one byte. -/
theorem busWrite_read_same {a : Addr} (v : Byte) {s : State} (hw : s.mem.wf = true) (ht : s.target a = .ram) :
    (busWrite a v s).mem.read a = v := by
  rw [(busWrite_storedAt a v s).memory hw, if_pos ht]

theorem busWrite_read_ne {a b : Addr} (h : b ≠ a) (v : Byte) (s : State) :
    (busWrite a v s).mem.read b = s.mem.read b := ((busWrite_storedAt a v s).elsewhere b h).2

theorem busWrite_wf {a : Addr} {v : Byte} {s : State} (hw : s.mem.wf = true) : (busWrite a v s).mem.wf = true := by
  simp only [busWrite_mem]
  split
  · exact Memory.wf_write a v hw
  · exact hw

/-- What RAM holds at an address is what a bus read there returns. -/
theorem busRead_ram {a : Addr} {s : State} (h : s.target a = .ram) : (busRead a s).1 = s.mem.read a := by
  simp [busRead, State.peek, State.stored, h]

/-- The bytes an exception entry stored, where memory answers. -/
theorem stacked3_saved (hi lo status : Byte) {s : State} (hw : s.mem.wf = true) :
    (s.target (stackSlot s 0) = .ram → (stacked3 hi lo status s).mem.read (stackSlot s 0) = hi) ∧
    (s.target (stackSlot s 1) = .ram → (stacked3 hi lo status s).mem.read (stackSlot s 1) = lo) ∧
    (s.target (stackSlot s 2) = .ram → (stacked3 hi lo status s).mem.read (stackSlot s 2) = status) := by
  unfold stacked3
  refine ⟨fun h => ?_, fun h => ?_, fun h => ?_⟩
  · rw [busWrite_read_ne (stackSlot_ne s (by decide)), busWrite_read_ne (stackSlot_ne s (by decide))]
    exact busWrite_read_same hi hw h
  · rw [busWrite_read_ne (stackSlot_ne s (by decide))]
    exact busWrite_read_same lo (busWrite_wf hw) h
  · exact busWrite_read_same status (busWrite_wf (busWrite_wf hw)) h

/-- No other byte changes. -/
theorem stacked3_elsewhere (hi lo status : Byte) (s : State) {b : Addr} (h0 : b ≠ stackSlot s 0)
    (h1 : b ≠ stackSlot s 1) (h2 : b ≠ stackSlot s 2) :
    (stacked3 hi lo status s).stored b = s.stored b ∧ (stacked3 hi lo status s).mem.read b = s.mem.read b := by
  have e0 := (busWrite_storedAt (stackSlot s 0) hi s).elsewhere b h0
  have e1 := (busWrite_storedAt (stackSlot s 1) lo (busWrite (stackSlot s 0) hi s)).elsewhere b h1
  have e2 := (busWrite_storedAt (stackSlot s 2) status
    (busWrite (stackSlot s 1) lo (busWrite (stackSlot s 0) hi s))).elsewhere b h2
  exact ⟨e2.1.trans (e1.1.trans e0.1), e2.2.trans (e1.2.trans e0.2)⟩

/-- The one entry sequence of NMI, IRQ and BRK. -/
theorem takeException_entered (ret : Addr) (status : Byte) (vector : Addr) (s : State) :
    Entered ret status vector s (takeException ret status vector s) := by
  unfold takeException
  rw [pushStatus_eq]
  refine ⟨rfl, rfl, ⟨rfl, rfl⟩, rfl, ?_, ?_, ?_, ⟨rfl, rfl, rfl⟩, ?_, ?_⟩
  · intro r hr
    cases r <;> first | rfl | (simp at hr)
  · exact (flag_setFlag s.p .i .i true).trans (if_pos rfl)
  · intro f hf
    exact (flag_setFlag s.p .i f true).trans (if_neg (by simpa using hf))
  · intro b h0 h1 h2
    exact stacked3_elsewhere _ _ _ s h0 h1 h2
  · intro hw
    exact stacked3_saved _ _ _ hw

theorem takeException_rest (ret : Addr) (status : Byte) (vector : Addr) (s : State) :
    RestKept s (takeException ret status vector s) := by
  unfold takeException
  rw [pushStatus_eq]
  constructor <;> rfl

theorem takeException_outcome (ret : Addr) (status : Byte) (vector : Addr) (s : State) :
    (takeException ret status vector s).outcome = s.outcome := by
  unfold takeException
  rw [pushStatus_eq]
  rfl

/-- `Entered` looks at `pc`, the bus record, the registers, memory and devices alone. -/
theorem Entered.congr {ret vector : Addr} {status : Byte} {s t u : State} (h : Entered ret status vector s t)
    (hpc : u.pc = t.pc) (hp : u.p = t.p) (hb : u.bus = t.bus) (ho : OutsideIs t u) (hr : ∀ r, u.reg r = t.reg r) (hs : SameStore t u) :
    Entered ret status vector s u where
  pc := hpc.trans h.pc
  bus := hb.trans h.bus
  outside := h.outside.trans ho
  sp := (hr .sp).trans h.sp
  regs r k := (hr r).trans (h.regs r k)
  mask := hp ▸ h.mask
  flags f k := hp ▸ h.flags f k
  store := by
    rw [hs.mem, hs.sid, hs.raster]
    exact h.store
  elsewhere b h0 h1 h2 := by
    rw [hs.stored, hs.mem]
    exact h.elsewhere b h0 h1 h2
  saved hw := by
    rw [hs.mem]
    exact h.saved hw

end Sys2Proof.Machine
end

