-- ==== Sys2Proof/Laws/Round.lean ====
section
/-! SUPPORT. What one instruction can do to what the whole machine's invariants speak of, said once for all
instructions, and what the parts of a round around it do. -/

namespace Sys2Proof.Machine

open Sys2Proof

/-- What no instruction and no interrupt entry does: the configuration and the host's inputs stay; memory stays in
canonical form; of the sound chip only stored registers change, of the timer neither a counter nor, upward, a
request bit. -/
structure StoreKept (s t : State) : Prop where
  cfg : t.cfg = s.cfg
  pending : t.pending = s.pending
  jammed : s.jammed = true → t.jammed = true
  wf : s.mem.wf = true → t.mem.wf = true
  ch : t.sid.ch = s.sid.ch
  lp : t.sid.lp = s.sid.lp
  bp : t.sid.bp = s.sid.bp
  volSmooth : t.sid.volSmooth = s.sid.volSmooth
  syncRise : t.sid.syncRise = s.sid.syncRise
  ringMsb : t.sid.ringMsb = s.sid.ringMsb
  acc : t.raster.acc = s.raster.acc
  row : t.raster.row = s.raster.row
  request : s.raster.irq = s.raster.matched → t.raster.irq = t.raster.matched

theorem StoreKept.refl (s : State) : StoreKept s s :=
  ⟨rfl, rfl, id, id, rfl, rfl, rfl, rfl, rfl, rfl, rfl, rfl, id⟩

theorem StoreKept.trans {s t u : State} (h : StoreKept s t) (k : StoreKept t u) : StoreKept s u where
  cfg := k.cfg.trans h.cfg
  pending := k.pending.trans h.pending
  jammed x := k.jammed (h.jammed x)
  wf x := k.wf (h.wf x)
  ch := k.ch.trans h.ch
  lp := k.lp.trans h.lp
  bp := k.bp.trans h.bp
  volSmooth := k.volSmooth.trans h.volSmooth
  syncRise := k.syncRise.trans h.syncRise
  ringMsb := k.ringMsb.trans h.ringMsb
  acc := k.acc.trans h.acc
  row := k.row.trans h.row
  request x := k.request (h.request x)

theorem StoreKept.of_same {s t : State} (h : SameStore s t) (hp : t.pending = s.pending)
    (hj : s.jammed = true → t.jammed = true) : StoreKept s t where
  cfg := h.cfg
  pending := hp
  jammed := hj
  wf x := by rw [h.mem]; exact x
  ch := by rw [h.sid]
  lp := by rw [h.sid]
  bp := by rw [h.sid]
  volSmooth := by rw [h.sid]
  syncRise := by rw [h.sid]
  ringMsb := by rw [h.sid]
  acc := by rw [h.raster]
  row := by rw [h.raster]
  request x := by rw [h.raster]; exact x

/-- A bus write touches of the sound chip its stored registers alone. -/
theorem Sid.busWrite_kept (w : Target) (v : Byte) (d : Sid) :
    (d.busWrite w v).ch = d.ch ∧ (d.busWrite w v).lp = d.lp ∧ (d.busWrite w v).bp = d.bp ∧
      (d.busWrite w v).volSmooth = d.volSmooth ∧ (d.busWrite w v).syncRise = d.syncRise ∧
      (d.busWrite w v).ringMsb = d.ringMsb := by
  cases w <;> dsimp only [Sid.busWrite, Sid.write] <;> (try split) <;> exact ⟨rfl, rfl, rfl, rfl, rfl, rfl⟩

/-- A bus write touches no counter of the timer, and sets no request bit. -/
theorem Raster.write_kept (cfg : Config) (w : Target) (v : Byte) (r : Raster) :
    (r.write cfg w v).acc = r.acc ∧ (r.write cfg w v).row = r.row ∧
      (r.irq = r.matched → (r.write cfg w v).irq = (r.write cfg w v).matched) := by
  cases w <;> simp only [Raster.write, Raster.writeControl, Raster.writeRow, Raster.writeEnable, Raster.acknowledge] <;>
    (try split) <;> simp

theorem busWrite_kept (a : Addr) (v : Byte) (s : State) : StoreKept s (busWrite a v s) := by
  obtain ⟨h1, h2, h3, h4, h5, h6⟩ := Sid.busWrite_kept (s.target a) v s.sid
  obtain ⟨g1, g2, g3⟩ := Raster.write_kept s.cfg (s.target a) v s.raster
  exact ⟨rfl, rfl, id, busWrite_wf, h1, h2, h3, h4, h5, h6, g1, g2, g3⟩

theorem RestKept.kept {s t : State} (h : RestKept s t) (k : SameStore s t) : StoreKept s t :=
  .of_same k h.pending fun x => h.jammed.trans x

theorem finish_kept (len n : Nat) (s : State) : StoreKept s (s.finish len n) :=
  (finish_rest len n s).kept (finish_store len n s)

theorem spend_kept (n : Nat) (s : State) : StoreKept s (s.spend n) :=
  (spend_rest n s).kept (by constructor <;> rfl)

theorem locate_kept (o : Operand) (s : State) : StoreKept s (locate o s).2 :=
  (locate_rest o s).kept (locate_sameStore o s)

theorem load_kept (o : Operand) (s : State) : StoreKept s (load o s).state :=
  (load_rest o s).kept (load_sameStore o s)

theorem busRead_kept (a : Addr) (s : State) : StoreKept s (busRead a s).2 :=
  (busRead_rest a s).kept (busRead_sameStore a s)

theorem readWith_kept {f : Byte → State → State} (hf : ∀ m u, StoreKept u (f m u)) (o : Operand) (s : State) :
    StoreKept s (readWith o f s) := by
  rw [readWith_next]
  exact (load_kept o s).trans ((hf _ _).trans (finish_kept _ _ _))

theorem storeWith_kept (f : State → Byte) (o : Operand) (s : State) : StoreKept s (storeWith o f s) := by
  rw [storeWith_next]
  exact (locate_kept o s).trans ((busWrite_kept _ _ _).trans (finish_kept _ _ _))

theorem rmwWith_kept {f : Byte → State → Byte × State} (hf : ∀ m u, StoreKept u (f m u).2) (o : Operand)
    (s : State) : StoreKept s (rmwWith o f s) := by
  rw [rmwWith_next]
  exact (locate_kept o s).trans ((busRead_kept _ _).trans ((hf _ _).trans ((busWrite_kept _ _ _).trans
    (finish_kept _ _ _))))

theorem shiftWith_kept (o : ShiftOperand) (f : Byte → Byte → Byte × Byte) (s : State) :
    StoreKept s (shiftWith o f s) := by
  cases o with
  | acc => exact .of_same (by constructor <;> rfl) rfl id
  | mem o =>
    unfold shiftWith
    refine rmwWith_kept (fun m u => ?_) o s
    exact .of_same (by constructor <;> rfl) rfl id

theorem unstableStore_kept (o : Operand) (reg : State → Byte) (s : State) :
    StoreKept s (unstableStore o reg s) := by
  unfold unstableStore
  exact (locate_kept o s).trans ((busWrite_kept _ _ _).trans (finish_kept _ _ _))

theorem push_kept (v : Byte) (s : State) : StoreKept s (push v s) := by
  rw [push_eq]
  exact (busWrite_kept _ _ _).trans (.of_same (by constructor <;> rfl) rfl id)

theorem pull_kept (s : State) : StoreKept s (pull s).2 := .of_same (by constructor <;> rfl) rfl id

theorem pushAddr_kept (v : Addr) (s : State) : StoreKept s (pushAddr v s) :=
  (push_kept _ _).trans (push_kept _ _)

theorem takeException_kept (ret : Addr) (status : Byte) (vector : Addr) (s : State) :
    StoreKept s (takeException ret status vector s) := by
  refine ((pushAddr_kept ret s).trans (push_kept status _)).trans ?_
  generalize h : push status (pushAddr ret s) = u
  unfold takeException
  rw [h]
  exact .of_same (by constructor <;> rfl) rfl id

/-- What no instruction does. -/
theorem exec_kept (i : Instr) (s t : State) (h : exec i s = .next t) : StoreKept s t := by
  have same : ∀ {g : Byte → State → State},
      (∀ m u, SameStore u (g m u) ∧ (g m u).pending = u.pending ∧ (g m u).jammed = u.jammed) →
      ∀ m u, StoreKept u (g m u) :=
    fun hg m u => .of_same (hg m u).1 (hg m u).2.1 fun x => (hg m u).2.2.trans x
  have same2 : ∀ {g : Byte → State → Byte × State},
      (∀ m u, SameStore u (g m u).2 ∧ (g m u).2.pending = u.pending ∧ (g m u).2.jammed = u.jammed) →
      ∀ m u, StoreKept u (g m u).2 :=
    fun hg m u => .of_same (hg m u).1 (hg m u).2.1 fun x => (hg m u).2.2.trans x
  cases i with
  | brk =>
    injection h with h
    subst h
    exact (takeException_kept _ _ _ _).trans (spend_kept _ _)
  | jsr a =>
    injection h with h
    subst h
    refine (pushAddr_kept (s.pc + 2) s).trans ?_
    generalize pushAddr (s.pc + 2) s = u
    exact .of_same (by constructor <;> rfl) rfl id
  | pha =>
    injection h with h
    subst h
    exact (push_kept _ _).trans (finish_kept _ _ _)
  | php =>
    injection h with h
    subst h
    exact (push_kept _ _).trans (finish_kept _ _ _)
  | rts =>
    simp only [exec, execRts] at h
    split at h <;> simp only [Host.Outcome.next.injEq] at h <;> subst h
    all_goals exact .of_same (by constructor <;> rfl) rfl id
  | rti =>
    simp only [exec, execRti] at h
    split at h <;> simp only [Host.Outcome.next.injEq] at h <;> subst h
    all_goals exact .of_same (by constructor <;> rfl) rfl id
  | ane m =>
    simp only [exec, execAne] at h
    split at h <;> simp only [Host.Outcome.next.injEq, reduceCtorEq] at h
    subst h
    refine readWith_kept (same ?_) _ _
    exact fun m u => ⟨by constructor <;> rfl, rfl, rfl⟩
  | lxa m =>
    simp only [exec, execLxa] at h
    split at h <;> simp only [Host.Outcome.next.injEq, reduceCtorEq] at h
    subst h
    refine readWith_kept (same ?_) _ _
    exact fun m u => ⟨by constructor <;> rfl, rfl, rfl⟩
  | arr m =>
    simp only [exec, execArr] at h
    split at h <;> simp only [Host.Outcome.next.injEq, reduceCtorEq] at h
    subst h
    refine readWith_kept (same ?_) _ _
    exact fun m u => ⟨by constructor <;> rfl, rfl, rfl⟩
  | sha o =>
    simp only [exec, execSha] at h
    split at h <;> simp only [Host.Outcome.next.injEq, reduceCtorEq] at h
    subst h
    exact unstableStore_kept _ _ _
  | shx a =>
    simp only [exec, execShx] at h
    split at h <;> simp only [Host.Outcome.next.injEq, reduceCtorEq] at h
    subst h
    exact unstableStore_kept _ _ _
  | shy a =>
    simp only [exec, execShy] at h
    split at h <;> simp only [Host.Outcome.next.injEq, reduceCtorEq] at h
    subst h
    exact unstableStore_kept _ _ _
  | tas a =>
    simp only [exec, execTas] at h
    split at h <;> simp only [Host.Outcome.next.injEq, reduceCtorEq] at h
    subst h
    refine StoreKept.trans ?_ (unstableStore_kept _ _ _)
    exact .of_same (by constructor <;> rfl) rfl id
  | asl o | lsr o | rol o | ror o =>
    injection h with h
    subst h
    exact shiftWith_kept _ _ _
  | jam c =>
    injection h with h
    subst h
    exact .of_same (by constructor <;> rfl) rfl fun _ => rfl
  | bpl d | bmi d | bvc d | bvs d | bcc d | bcs d | bne d | beq d =>
    injection h with h
    subst h
    unfold branch
    split <;> exact .of_same (by constructor <;> rfl) rfl id
  | lda _ | ldx _ | ldy _ | lax _ | ora _ | and _ | eor _ | adc _ | sbc _ | cmp _ | cpx _ | cpy _ | bit _ | anc _ _
  | alr _ | sbx _ | sbcEB _ | las _ | nopImm _ _ | nopMem _ _ =>
    injection h with h
    subst h
    refine readWith_kept (same ?_) _ _
    exact fun m u => ⟨⟨rfl, rfl, rfl, rfl⟩, rfl, rfl⟩
  | sta _ | stx _ | sty _ | sax _ =>
    injection h with h
    subst h
    exact storeWith_kept _ _ _
  | inc _ | dec _ | slo _ | rla _ | sre _ | rra _ | dcp _ | isc _ =>
    injection h with h
    subst h
    refine rmwWith_kept (same2 ?_) _ _
    exact fun m u => ⟨⟨rfl, rfl, rfl, rfl⟩, rfl, rfl⟩
  | _ =>
    injection h with h
    subst h
    exact .of_same ⟨rfl, rfl, rfl, rfl⟩ rfl id

theorem StoreKept.reported {s t : State} (h : StoreKept s t) (b : Bool) (n : Nat) :
    StoreKept s { t with taken := b, prevNmi := n } := h.trans (.of_same (by constructor <;> rfl) rfl id)

theorem enterInterrupt_kept (vector : Addr) (s : State) : StoreKept s (enterInterrupt vector s) :=
  takeException_kept _ _ _ _

/-- What the interrupt service does not do. -/
theorem serviceInterrupts_kept (s : State) : StoreKept s (serviceInterrupts s) := by
  unfold serviceInterrupts
  split
  · exact .of_same (by constructor <;> rfl) rfl id
  · split
    · exact (enterInterrupt_kept _ _).reported _ _
    · split
      · exact (enterInterrupt_kept _ _).reported _ _
      · exact (StoreKept.refl s).reported _ _

/-- Fetching is up to three bus reads. -/
theorem fetch_kept (s : State) : StoreKept s (fetch s).2 := by
  unfold fetch
  dsimp only
  split <;> dsimp only
  · exact busRead_kept _ _
  · exact (busRead_kept _ _).trans (busRead_kept _ _)
  · exact (busRead_kept _ _).trans ((busRead_kept _ _).trans (busRead_kept _ _))

/-- What each of a round's host events keeps, all of them keep. -/
theorem hostEvents_keep {P : State → Prop} {es : List HostEvent}
    (h : ∀ e ∈ es, ∀ s, P s → P (hostEvent e s)) {s : State} (hs : P s) : P (hostEvents es s) := by
  induction es generalizing s with
  | nil => exact hs
  | cons e es ih =>
    exact ih (fun e' h' => h e' (List.mem_cons_of_mem _ h')) (h e List.mem_cons_self s hs)

/-- What holds once the host's events of a round are done, and is kept by whatever changes nothing that
`StoreKept` forbids and by the passing of time, holds after the step. -/
theorem step_keeps {P : State → Prop} (hkept : ∀ s t, StoreKept s t → P s → P t)
    (htime : ∀ n s, P s → P (passTime n s)) {s t : State} (h0 : P (beginRound s)) (h : step s = .next t) : P t := by
  unfold step Machine.round at h
  split at h
  case isFalse => simp at h
  have h1 := hkept _ _ (serviceInterrupts_kept (beginRound s)) h0
  unfold serviceAndRun at h
  dsimp only at h
  generalize serviceInterrupts (beginRound s) = u at *
  split at h
  · injection h with h
    subst h
    exact hkept u _ (.of_same (by constructor <;> rfl) rfl id) h1
  · cases hx : runInstruction u with
    | fault r => rw [hx] at h; simp at h
    | refused r => rw [hx] at h; simp at h
    | next v =>
      rw [hx] at h
      injection h with h
      subst h
      have h2 := hkept _ _ ((fetch_kept u).trans (exec_kept _ _ _ hx)) h1
      unfold advanceDevices
      split
      · exact htime _ _ h2
      · exact h2

end Sys2Proof.Machine
end

