-- ==== Sys2Proof/Laws/Sid.lean ====
section
/-! SUPPORT. What the sound chip's steps do: which channel each part of an advance writes, what stays in range. -/

namespace Sys2Proof.Machine

open Sys2Proof

/-- One channel's part of an advance writes that channel. -/
theorem advanceChannel_self (cfg : Config) (n : Nat) (c : Fin 3) (acc : Sid × (Int × Int)) :
    (advanceChannel cfg n c acc).1.ch[c] =
      (oscStep cfg acc.1 c n ⟨acc.1.syncRise, acc.1.ringMsb⟩ (envStep cfg acc.1 c n acc.1.ch[c])).1 := by
  simp [advanceChannel]

/-- It writes no other channel. -/
theorem advanceChannel_other (cfg : Config) (n : Nat) {c d : Fin 3} (h : d ≠ c) (acc : Sid × (Int × Int)) :
    (advanceChannel cfg n c acc).1.ch[d] = acc.1.ch[d] := by
  have : c.val ≠ d.val := fun e => h (Fin.ext e.symm)
  simp [advanceChannel, this]

/-- It writes no register and no filter or volume state. -/
theorem advanceChannel_frame (cfg : Config) (n : Nat) (c : Fin 3) (acc : Sid × (Int × Int)) :
    (advanceChannel cfg n c acc).1.regs = acc.1.regs ∧ (advanceChannel cfg n c acc).1.lp = acc.1.lp ∧
      (advanceChannel cfg n c acc).1.bp = acc.1.bp ∧ (advanceChannel cfg n c acc).1.volSmooth = acc.1.volSmooth :=
  ⟨rfl, rfl, rfl, rfl⟩

/-- An advance writes no register and no filter or volume state. -/
theorem sidAdvance_frame (cfg : Config) (n : Nat) (t : Sid) :
    (sidAdvance cfg n t).1.regs = t.regs ∧ (sidAdvance cfg n t).1.lp = t.lp ∧ (sidAdvance cfg n t).1.bp = t.bp ∧
      (sidAdvance cfg n t).1.volSmooth = t.volSmooth := ⟨rfl, rfl, rfl, rfl⟩

/-- What a channel's own step keeps, an advance keeps of every channel. -/
theorem sidAdvance_channels {P : Channel → Prop} (cfg : Config) (n : Nat) (t : Sid)
    (h : ∀ u c k ch, P ch → P (oscStep cfg u c n k (envStep cfg u c n ch)).1) (ht : ∀ c : Fin 3, P t.ch[c])
    (c : Fin 3) : P (sidAdvance cfg n t).1.ch[c] := by
  have one : ∀ (d : Fin 3) (acc : Sid × (Int × Int)), (∀ c : Fin 3, P acc.1.ch[c]) →
      ∀ c : Fin 3, P (advanceChannel cfg n d acc).1.ch[c] := by
    intro d acc ha c
    by_cases e : c = d
    · subst e
      rw [advanceChannel_self]
      exact h _ _ _ _ (ha c)
    · rw [advanceChannel_other cfg n e]
      exact ha c
  exact one 2 _ (one 1 _ (one 0 _ ht)) c

/-- The noise register, clocked, is not 0 unless it was (47 R334). -/
theorem clockNoise_ne_zero {l : Lfsr} (h : l ≠ 0) : clockNoise l ≠ 0 := by
  intro e
  have bit : ∀ i, (clockNoise l).getLsbD i = false := fun i => by rw [e]; simp
  have low : ∀ i, i < 22 → l.getLsbD i = false := by
    intro i hi
    have := bit (i + 1)
    simp only [clockNoise, BitVec.getLsbD_or, BitVec.getLsbD_shiftLeft, Bool.or_eq_false_iff] at this
    simpa [show i + 1 < 23 by omega] using this.1
  have top : l.getLsbD 22 = true := by
    by_contra ht
    apply h
    apply BitVec.eq_of_getLsbD_eq
    intro i hi
    by_cases hi' : i < 22
    · rw [low i hi']
      simp
    · have : i = 22 := by omega
      subst this
      rw [Bool.not_eq_true] at ht
      rw [ht]
      simp
  have := bit 0
  simp only [clockNoise, top, low 17 (by omega)] at this
  simp at this

/-- The clamped factor is in range. -/
theorem clampUnit_range (q : Rat) : 0 ≤ clampUnit q ∧ clampUnit q ≤ 1 := by
  unfold clampUnit
  split
  · exact ⟨le_refl _, zero_le_one⟩
  · split
    · exact ⟨zero_le_one, le_refl _⟩
    · exact ⟨not_lt.mp ‹_›, not_lt.mp ‹_›⟩

/-- A step of the volume state stays between any bounds that hold the old state and the register (49 R401). -/
theorem volSmoothStep_between {lo hi v : Rat} {raw : BitVec 4} (h1 : lo ≤ v) (h2 : v ≤ hi)
    (h3 : lo ≤ (raw.toNat : Rat)) (h4 : (raw.toNat : Rat) ≤ hi) :
    lo ≤ volSmoothStep v raw ∧ volSmoothStep v raw ≤ hi := by
  obtain ⟨k0, k1⟩ := clampUnit_range (Config.volSmoothFactor v raw)
  unfold volSmoothStep
  generalize clampUnit (Config.volSmoothFactor v raw) = k at *
  generalize (raw.toNat : Rat) = r at *
  constructor <;> nlinarith

/-- Outputs change the sound chip's filter and volume state and the report of samples, nothing else. -/
theorem outputs_eq (rs : List (Option (Int × Int))) (s : State) :
    outputs rs s = { s with sid := (outputs rs s).sid, samples := (outputs rs s).samples } := by
  induction rs generalizing s with
  | nil => rfl
  | cons r rs ih =>
    rw [outputs, ih]
    rfl

/-- Passing time changes the devices and the sound reports, and serves the requests; nothing else. -/
theorem passTime_eq (n : Nat) (s : State) : passTime n s =
    { s with
      raster := s.raster.advance s.cfg n, sums := (sidAdvance s.cfg n s.sid).2
      pairs := s.pairs ++ [(sidAdvance s.cfg n s.sid).2], sid := (passTime n s).sid
      samples := (passTime n s).samples, requests := [] } := by
  unfold passTime takeSamples
  rw [outputs_eq]

/-- Outputs touch of the sound chip its filter and volume state alone, and keep of the volume state what each of
its steps keeps. -/
theorem outputs_sid (rs : List (Option (Int × Int))) (s : State) :
    (outputs rs s).sid.ch = s.sid.ch ∧ (outputs rs s).sid.regs = s.sid.regs ∧
      (outputs rs s).sid.syncRise = s.sid.syncRise ∧ (outputs rs s).sid.ringMsb = s.sid.ringMsb ∧
      ∀ P : Rat → Prop, (∀ v, P v → P (volSmoothStep v s.sid.volume)) → P s.sid.volSmooth →
        P (outputs rs s).sid.volSmooth := by
  induction rs generalizing s with
  | nil => exact ⟨rfl, rfl, rfl, rfl, fun _ _ h => h⟩
  | cons r rs ih =>
    obtain ⟨h1, h2, h3, h4, h5⟩ := ih (output r s)
    exact ⟨h1, h2, h3, h4, fun P hp hs => h5 P hp (hp _ hs)⟩

/-- Every request is answered by one sample, after those already reported. -/
theorem outputs_samples (rs : List (Option (Int × Int))) (s : State) :
    ∃ vs : List Int, vs.length = rs.length ∧ (outputs rs s).samples = s.samples ++ vs := by
  induction rs generalizing s with
  | nil => exact ⟨[], rfl, by simp [outputs]⟩
  | cons r rs ih =>
    obtain ⟨vs, h1, h2⟩ := ih (output r s)
    exact ⟨_ :: vs, by simp [h1], by rw [outputs, h2, output, List.append_assoc]; rfl⟩

end Sys2Proof.Machine
end

