-- ==== Sys2Proof/Tests/Slice0.lean ====
section
/-! SUPPORT. Tests of the model: ill-formed terms the well-formedness check refuses, words decoded, one step of
each instruction against spec/95_test_vectors.md and the rules' own examples, device steps against the same file,
and for every obligation with hypotheses a state and operands that meet them. Every expected value is the spec's. -/

open Sys2Proof Sys2Proof.Machine

namespace Sys2Proof.Tests

/-! ## Ill-formed terms (spec/30_encoding.md, the modes and codes each rule's encoding table lists) -/

/-- R170, R171, R172, R289. -/
theorem test_illformed_loads :
    ∀ i ∈ ([.lda (.zpy 0), .ldx (.abx 0), .ldy (.aby 0), .lax (.imm 0)] : List Instr), i.wellFormed = false := by decide

/-- R173, R174, R175, R288. -/
theorem test_illformed_stores :
    ∀ i ∈ ([.sta (.imm 0), .stx (.zpx 0), .sty (.abx 0), .sax (.aby 0)] : List Instr), i.wellFormed = false := by decide

/-- R190 to R198. -/
theorem test_illformed_arithmetic :
    ∀ i ∈ ([.ora (.zpy 0), .and (.zpy 0), .eor (.zpy 0), .adc (.zpy 0), .sbc (.zpy 0), .cmp (.zpy 0), .cpx (.abx 0), .cpy (.zpx 0), .bit (.imm 0)] : List Instr), i.wellFormed = false := by decide

/-- R210 to R215. -/
theorem test_illformed_shifts :
    ∀ i ∈ ([.asl (.mem (.izx 0)), .lsr (.mem (.imm 0)), .rol (.mem (.aby 0)), .ror (.mem (.zpy 0)), .inc (.imm 0), .dec (.izy 0)] : List Instr), i.wellFormed = false := by decide

/-- R280, R290, R296, R297, R298. -/
theorem test_illformed_codes :
    ∀ i ∈ ([.jam 0x82, .anc 0x4B 0, .nopImplied 0xEA, .nopImm 0xA0 0, .nopMem 0x04 (.abs 0), .nopMem 0x0C (.zp 0), .nopMem 0x1A (.imm 0)] : List Instr), i.wellFormed = false := by decide

/-- R282 to R287, R302. -/
theorem test_illformed_combined :
    ∀ i ∈ ([.slo (.imm 0), .rla (.zpy 0), .sre (.imm 0), .rra (.zpy 0), .dcp (.imm 0), .isc (.zpy 0), .sha (.abs 0)] : List Instr), i.wellFormed = false := by decide

/-! ## Decoding: for every constructor a word written out from the encoding its rule gives (opcode_table.json),
operand bytes 0x34, 0x12 -/

/-- The bytes decode to the instruction and nothing is left. -/
def decodesTo (i : Instr) (bs : List Byte) : Bool :=
  match decode bs with
  | .ok (j, rest) => decide (j = i) && rest.isEmpty
  | .error _ => false

theorem test_decode_load_store_transfer :
    decodesTo (.lda (.izy 0x34)) [0b10110001, 0x34] ∧
    decodesTo (.ldx (.zpy 0x34)) [0b10110110, 0x34] ∧
    decodesTo (.ldy (.abx 0x1234)) [0b10111100, 0x34, 0x12] ∧
    decodesTo (.sta (.aby 0x1234)) [0b10011001, 0x34, 0x12] ∧
    decodesTo (.stx (.zpy 0x34)) [0b10010110, 0x34] ∧
    decodesTo (.sty (.zpx 0x34)) [0b10010100, 0x34] ∧
    decodesTo .tax [0b10101010] ∧
    decodesTo .tay [0b10101000] ∧
    decodesTo .txa [0b10001010] ∧
    decodesTo .tya [0b10011000] ∧
    decodesTo .tsx [0b10111010] ∧
    decodesTo .txs [0b10011010] := by decide

theorem test_decode_logic_arithmetic :
    decodesTo (.ora (.izx 0x34)) [0b00000001, 0x34] ∧
    decodesTo (.and (.abs 0x1234)) [0b00101101, 0x34, 0x12] ∧
    decodesTo (.eor (.zpx 0x34)) [0b01010101, 0x34] ∧
    decodesTo (.adc (.abx 0x1234)) [0b01111101, 0x34, 0x12] ∧
    decodesTo (.sbc (.aby 0x1234)) [0b11111001, 0x34, 0x12] ∧
    decodesTo (.cmp (.zp 0x34)) [0b11000101, 0x34] ∧
    decodesTo (.cpx (.imm 0x34)) [0b11100000, 0x34] ∧
    decodesTo (.cpy (.abs 0x1234)) [0b11001100, 0x34, 0x12] ∧
    decodesTo (.bit (.zp 0x34)) [0b00100100, 0x34] := by decide

theorem test_decode_shift_incdec :
    decodesTo (.asl .acc) [0b00001010] ∧
    decodesTo (.lsr (.mem (.abs 0x1234))) [0b01001110, 0x34, 0x12] ∧
    decodesTo (.rol (.mem (.zp 0x34))) [0b00100110, 0x34] ∧
    decodesTo (.ror (.mem (.abx 0x1234))) [0b01111110, 0x34, 0x12] ∧
    decodesTo (.inc (.abx 0x1234)) [0b11111110, 0x34, 0x12] ∧
    decodesTo (.dec (.zpx 0x34)) [0b11010110, 0x34] ∧
    decodesTo .inx [0b11101000] ∧
    decodesTo .iny [0b11001000] ∧
    decodesTo .dex [0b11001010] ∧
    decodesTo .dey [0b10001000] := by decide

theorem test_decode_branch_jump :
    decodesTo (.bpl 0x34) [0b00010000, 0x34] ∧
    decodesTo (.bmi 0x34) [0b00110000, 0x34] ∧
    decodesTo (.bvc 0x34) [0b01010000, 0x34] ∧
    decodesTo (.bvs 0x34) [0b01110000, 0x34] ∧
    decodesTo (.bcc 0x34) [0b10010000, 0x34] ∧
    decodesTo (.bcs 0x34) [0b10110000, 0x34] ∧
    decodesTo (.bne 0x34) [0b11010000, 0x34] ∧
    decodesTo (.beq 0x34) [0b11110000, 0x34] ∧
    decodesTo (.jmp 0x1234) [0b01001100, 0x34, 0x12] ∧
    decodesTo (.jmpInd 0x1234) [0b01101100, 0x34, 0x12] ∧
    decodesTo (.jsr 0x1234) [0b00100000, 0x34, 0x12] ∧
    decodesTo .rts [0b01100000] := by decide

theorem test_decode_stack_flag_system :
    decodesTo .pha [0b01001000] ∧
    decodesTo .php [0b00001000] ∧
    decodesTo .pla [0b01101000] ∧
    decodesTo .plp [0b00101000] ∧
    decodesTo .clc [0b00011000] ∧
    decodesTo .sec [0b00111000] ∧
    decodesTo .cli [0b01011000] ∧
    decodesTo .sei [0b01111000] ∧
    decodesTo .clv [0b10111000] ∧
    decodesTo .cld [0b11011000] ∧
    decodesTo .sed [0b11111000] ∧
    decodesTo .nop [0b11101010] ∧
    decodesTo .brk [0b00000000] ∧
    decodesTo .rti [0b01000000] := by decide

theorem test_decode_undocumented_rmw :
    decodesTo (.jam 0x92) [0b10010010] ∧
    decodesTo (.slo (.izx 0x34)) [0b00000011, 0x34] ∧
    decodesTo (.rla (.izy 0x34)) [0b00110011, 0x34] ∧
    decodesTo (.sre (.abx 0x1234)) [0b01011111, 0x34, 0x12] ∧
    decodesTo (.rra (.aby 0x1234)) [0b01111011, 0x34, 0x12] ∧
    decodesTo (.dcp (.zp 0x34)) [0b11000111, 0x34] ∧
    decodesTo (.isc (.zpx 0x34)) [0b11110111, 0x34] ∧
    decodesTo (.sax (.zpy 0x34)) [0b10010111, 0x34] ∧
    decodesTo (.lax (.izy 0x34)) [0b10110011, 0x34] := by decide

theorem test_decode_undocumented_rest :
    decodesTo (.anc 0x2B 0x34) [0b00101011, 0x34] ∧
    decodesTo (.alr 0x34) [0b01001011, 0x34] ∧
    decodesTo (.arr 0x34) [0b01101011, 0x34] ∧
    decodesTo (.sbx 0x34) [0b11001011, 0x34] ∧
    decodesTo (.sbcEB 0x34) [0b11101011, 0x34] ∧
    decodesTo (.las 0x1234) [0b10111011, 0x34, 0x12] ∧
    decodesTo (.nopImplied 0xDA) [0b11011010] ∧
    decodesTo (.nopImm 0x89 0x34) [0b10001001, 0x34] ∧
    decodesTo (.nopMem 0xFC (.abx 0x1234)) [0b11111100, 0x34, 0x12] ∧
    decodesTo (.ane 0x34) [0b10001011, 0x34] ∧
    decodesTo (.lxa 0x34) [0b10101011, 0x34] ∧
    decodesTo (.sha (.izy 0x34)) [0b10010011, 0x34] ∧
    decodesTo (.shx 0x1234) [0b10011110, 0x34, 0x12] ∧
    decodesTo (.shy 0x1234) [0b10011100, 0x34, 0x12] ∧
    decodesTo (.tas 0x1234) [0b10011011, 0x34, 0x12] := by decide

/-- A list too short for its instruction, and the empty list, decode to nothing, under their names. -/
theorem test_decode_short :
    (match decode [] with | .error e => some e | .ok _ => none) = some .noOpcode ∧
    (match decode [0xAD, 0x34] with | .error e => some e | .ok _ => none) = some .missingOperand := by decide

/-! ## One step of each instruction -/

/-- The reset machine with registers and memory bytes of a test. -/
def machine (a x y sp p : Byte) (pc : Addr) (cells : List (Addr × Byte)) : State :=
  { State.reset with
    a := a, x := x, y := y, sp := sp, p := p, pc := pc
    mem := cells.foldl (fun m c => m.write c.1 c.2) State.reset.mem }

/-- The writes of a bus record. -/
def writes (l : List BusAccess) : List (Addr × Byte) :=
  l.filterMap fun e => match e with
    | .write a v => some (a, v)
    | .read _ _ => none

/-- What a step leaves: A, X, Y, SP, P; pc; the outcome; the writes. -/
def seen (s : State) : Option (List Byte × Addr × Option StepOutcome × List (Addr × Byte)) :=
  match step s with
  | .next t => some ([t.a, t.x, t.y, t.sp, t.p], t.pc, t.outcome, writes t.bus)
  | .fault _ => none
  | .refused _ => none

/-- The refusal a step ends with. -/
def refusal (s : State) : Option Refusal :=
  match step s with
  | .next _ => none
  | .fault _ => none
  | .refused r => some r

/-- spec/95 X1.1: SBC #$00. -/
theorem test_sbc_X1_1 :
    seen (machine 0x00 0x00 0x00 0xFF 0x00 0x1000
      [(0x1000, 0xE9), (0x1001, 0x00)]) =
    some ([0xFF, 0x00, 0x00, 0xFF, 0x80], 0x1002, some (.cycles 2), []) := by decide

/-- spec/95 X2.2: LDA $20F0,X. -/
theorem test_lda_X2_2 :
    seen (machine 0x00 0x10 0x00 0xFF 0x04 0x1000
      [(0x1000, 0xBD), (0x1001, 0xF0), (0x1002, 0x20), (0x2100, 0x66)]) =
    some ([0x66, 0x10, 0x00, 0xFF, 0x04], 0x1003, some (.cycles 5), []) := by decide

/-- spec/95 X2.3: STA $20F0,X. -/
theorem test_sta_X2_3 :
    seen (machine 0x11 0x0F 0x00 0xFF 0x04 0x1000
      [(0x1000, 0x9D), (0x1001, 0xF0), (0x1002, 0x20)]) =
    some ([0x11, 0x0F, 0x00, 0xFF, 0x04], 0x1003, some (.cycles 5), [(0x20FF, 0x11)]) := by decide

/-- spec/95 X2.4: INC $20F0,X. -/
theorem test_inc_X2_4 :
    seen (machine 0x00 0x0F 0x00 0xFF 0x04 0x1000
      [(0x1000, 0xFE), (0x1001, 0xF0), (0x1002, 0x20), (0x20FF, 0x7F)]) =
    some ([0x00, 0x0F, 0x00, 0xFF, 0x84], 0x1003, some (.cycles 7), [(0x20FF, 0x80)]) := by decide

/-- spec/95 X2.7: ASL $44. -/
theorem test_asl_X2_7 :
    seen (machine 0x00 0x00 0x00 0xFF 0x04 0x1000
      [(0x1000, 0x06), (0x1001, 0x44), (0x0044, 0x81)]) =
    some ([0x00, 0x00, 0x00, 0xFF, 0x05], 0x1002, some (.cycles 5), [(0x0044, 0x02)]) := by decide

/-- spec/95 X7.1: BRK. -/
theorem test_brk_X7_1 :
    seen (machine 0x00 0x00 0x00 0xFF 0x00 0x1000
      [(0x1000, 0x00), (0x1001, 0xEA), (0xFFFE, 0x34), (0xFFFF, 0x12)]) =
    some ([0x00, 0x00, 0x00, 0xFC, 0x04], 0x1234, some (.cycles 7), [(0x01FF, 0x10), (0x01FE, 0x02), (0x01FD, 0x10)]) := by decide

/-- spec/95 L3: LDX $F0,Y. -/
theorem test_ldx_L3 :
    seen (machine 0x00 0x00 0x20 0xFF 0x04 0x1000
      [(0x1000, 0xB6), (0x1001, 0xF0), (0x0010, 0x7F)]) =
    some ([0x00, 0x7F, 0x20, 0xFF, 0x04], 0x1002, some (.cycles 4), []) := by decide

/-- spec/95 L4: LDY $FF,X. -/
theorem test_ldy_L4 :
    seen (machine 0x00 0x01 0x00 0xFF 0x04 0x1000
      [(0x1000, 0xB4), (0x1001, 0xFF), (0x0000, 0x99), (0x0100, 0x11)]) =
    some ([0x00, 0x01, 0x99, 0xFF, 0x84], 0x1002, some (.cycles 4), []) := by decide

/-- spec/95 L5: LDA ($FF,X). -/
theorem test_lda_L5 :
    seen (machine 0x00 0x00 0x00 0xFF 0x04 0x1000
      [(0x1000, 0xA1), (0x1001, 0xFF), (0x0000, 0x12), (0x00FF, 0x34), (0x1234, 0xAB)]) =
    some ([0xAB, 0x00, 0x00, 0xFF, 0x84], 0x1002, some (.cycles 6), []) := by decide

/-- spec/95 L9: STX $10,Y. -/
theorem test_stx_L9 :
    seen (machine 0x00 0xEE 0xFF 0xFF 0x04 0x1000
      [(0x1000, 0x96), (0x1001, 0x10)]) =
    some ([0x00, 0xEE, 0xFF, 0xFF, 0x04], 0x1002, some (.cycles 4), [(0x000F, 0xEE)]) := by decide

/-- spec/95 L10: STY $1234. -/
theorem test_sty_L10 :
    seen (machine 0x00 0x00 0x80 0xFF 0x04 0x1000
      [(0x1000, 0x8C), (0x1001, 0x34), (0x1002, 0x12)]) =
    some ([0x00, 0x00, 0x80, 0xFF, 0x04], 0x1003, some (.cycles 4), [(0x1234, 0x80)]) := by decide

/-- spec/95 L11: TAX. -/
theorem test_tax_L11 :
    seen (machine 0x00 0x33 0x00 0xFF 0x04 0x1000
      [(0x1000, 0xAA)]) =
    some ([0x00, 0x00, 0x00, 0xFF, 0x06], 0x1001, some (.cycles 2), []) := by decide

/-- spec/95 L12: TXS. -/
theorem test_txs_L12 :
    seen (machine 0x00 0x00 0x00 0xFF 0x04 0x1000
      [(0x1000, 0x9A)]) =
    some ([0x00, 0x00, 0x00, 0x00, 0x04], 0x1001, some (.cycles 2), []) := by decide

/-- spec/95 L13: TSX. -/
theorem test_tsx_L13 :
    seen (machine 0x00 0x00 0x00 0x80 0x04 0x1000
      [(0x1000, 0xBA)]) =
    some ([0x00, 0x80, 0x00, 0x80, 0x84], 0x1001, some (.cycles 2), []) := by decide

/-- spec/95 L14: TYA. -/
theorem test_tya_L14 :
    seen (machine 0x01 0x00 0xFF 0xFF 0x04 0x1000
      [(0x1000, 0x98)]) =
    some ([0xFF, 0x00, 0xFF, 0xFF, 0x84], 0x1001, some (.cycles 2), []) := by decide

/-- spec/95 A1: ADC #$01. -/
theorem test_adc_A1 :
    seen (machine 0x7F 0x00 0x00 0xFF 0x00 0x1000
      [(0x1000, 0x69), (0x1001, 0x01)]) =
    some ([0x80, 0x00, 0x00, 0xFF, 0xC0], 0x1002, some (.cycles 2), []) := by decide

/-- spec/95 A6: ADC #$25. -/
theorem test_adc_A6 :
    seen (machine 0x48 0x00 0x00 0xFF 0x09 0x1000
      [(0x1000, 0x69), (0x1001, 0x25)]) =
    some ([0x74, 0x00, 0x00, 0xFF, 0x08], 0x1002, some (.cycles 2), []) := by decide

/-- spec/95 A11: SBC #$01. -/
theorem test_sbc_A11 :
    seen (machine 0x00 0x00 0x00 0xFF 0x09 0x1000
      [(0x1000, 0xE9), (0x1001, 0x01)]) =
    some ([0x99, 0x00, 0x00, 0xFF, 0x88], 0x1002, some (.cycles 2), []) := by decide

/-- spec/95 A13: AND #$0F. -/
theorem test_and_A13 :
    seen (machine 0xF0 0x00 0x00 0xFF 0x04 0x1000
      [(0x1000, 0x29), (0x1001, 0x0F)]) =
    some ([0x00, 0x00, 0x00, 0xFF, 0x06], 0x1002, some (.cycles 2), []) := by decide

/-- spec/95 A14: ORA $44. -/
theorem test_ora_A14 :
    seen (machine 0x01 0x00 0x00 0xFF 0x04 0x1000
      [(0x1000, 0x05), (0x1001, 0x44), (0x0044, 0x80)]) =
    some ([0x81, 0x00, 0x00, 0xFF, 0x84], 0x1002, some (.cycles 3), []) := by decide

/-- spec/95 A15: EOR #$FF. -/
theorem test_eor_A15 :
    seen (machine 0xFF 0x00 0x00 0xFF 0x04 0x1000
      [(0x1000, 0x49), (0x1001, 0xFF)]) =
    some ([0x00, 0x00, 0x00, 0xFF, 0x06], 0x1002, some (.cycles 2), []) := by decide

/-- spec/95 A17: CMP #$41. -/
theorem test_cmp_A17 :
    seen (machine 0x40 0x00 0x00 0xFF 0x04 0x1000
      [(0x1000, 0xC9), (0x1001, 0x41)]) =
    some ([0x40, 0x00, 0x00, 0xFF, 0x84], 0x1002, some (.cycles 2), []) := by decide

/-- spec/95 A19: CPX #$10. -/
theorem test_cpx_A19 :
    seen (machine 0x00 0x20 0x00 0xFF 0x04 0x1000
      [(0x1000, 0xE0), (0x1001, 0x10)]) =
    some ([0x00, 0x20, 0x00, 0xFF, 0x05], 0x1002, some (.cycles 2), []) := by decide

/-- spec/95 A20: CPY $44. -/
theorem test_cpy_A20 :
    seen (machine 0x00 0x00 0x00 0xFF 0x04 0x1000
      [(0x1000, 0xC4), (0x1001, 0x44), (0x0044, 0x01)]) =
    some ([0x00, 0x00, 0x00, 0xFF, 0x84], 0x1002, some (.cycles 3), []) := by decide

/-- spec/95 A21: BIT $44. -/
theorem test_bit_A21 :
    seen (machine 0x01 0x00 0x00 0xFF 0x04 0x1000
      [(0x1000, 0x24), (0x1001, 0x44), (0x0044, 0xC0)]) =
    some ([0x01, 0x00, 0x00, 0xFF, 0xC6], 0x1002, some (.cycles 3), []) := by decide

/-- spec/95 H1: ASL A. -/
theorem test_asl_H1 :
    seen (machine 0x80 0x00 0x00 0xFF 0x04 0x1000
      [(0x1000, 0x0A)]) =
    some ([0x00, 0x00, 0x00, 0xFF, 0x07], 0x1001, some (.cycles 2), []) := by decide

/-- spec/95 H2: LSR A. -/
theorem test_lsr_H2 :
    seen (machine 0x01 0x00 0x00 0xFF 0x04 0x1000
      [(0x1000, 0x4A)]) =
    some ([0x00, 0x00, 0x00, 0xFF, 0x07], 0x1001, some (.cycles 2), []) := by decide

/-- spec/95 H3: ROL A. -/
theorem test_rol_H3 :
    seen (machine 0x80 0x00 0x00 0xFF 0x01 0x1000
      [(0x1000, 0x2A)]) =
    some ([0x01, 0x00, 0x00, 0xFF, 0x01], 0x1001, some (.cycles 2), []) := by decide

/-- spec/95 H4: ROR $44. -/
theorem test_ror_H4 :
    seen (machine 0x00 0x00 0x00 0xFF 0x01 0x1000
      [(0x1000, 0x66), (0x1001, 0x44), (0x0044, 0x01)]) =
    some ([0x00, 0x00, 0x00, 0xFF, 0x81], 0x1002, some (.cycles 5), [(0x0044, 0x80)]) := by decide

/-- spec/95 H6: DEC $1234,X. -/
theorem test_dec_H6 :
    seen (machine 0x00 0x01 0x00 0xFF 0x04 0x1000
      [(0x1000, 0xDE), (0x1001, 0x34), (0x1002, 0x12), (0x1235, 0x00)]) =
    some ([0x00, 0x01, 0x00, 0xFF, 0x84], 0x1003, some (.cycles 7), [(0x1235, 0xFF)]) := by decide

/-- spec/95 H7: INX. -/
theorem test_inx_H7 :
    seen (machine 0x00 0xFF 0x00 0xFF 0x04 0x1000
      [(0x1000, 0xE8)]) =
    some ([0x00, 0x00, 0x00, 0xFF, 0x06], 0x1001, some (.cycles 2), []) := by decide

/-- spec/95 H8: DEY. -/
theorem test_dey_H8 :
    seen (machine 0x00 0x00 0x00 0xFF 0x04 0x1000
      [(0x1000, 0x88)]) =
    some ([0x00, 0x00, 0xFF, 0xFF, 0x84], 0x1001, some (.cycles 2), []) := by decide

/-- spec/95 J1: BNE +$10. -/
theorem test_bne_J1 :
    seen (machine 0x00 0x00 0x00 0xFF 0x00 0x1000
      [(0x1000, 0xD0), (0x1001, 0x10)]) =
    some ([0x00, 0x00, 0x00, 0xFF, 0x00], 0x1012, some (.cycles 3), []) := by decide

/-- spec/95 J2: BNE +$10. -/
theorem test_bne_J2 :
    seen (machine 0x00 0x00 0x00 0xFF 0x02 0x1000
      [(0x1000, 0xD0), (0x1001, 0x10)]) =
    some ([0x00, 0x00, 0x00, 0xFF, 0x02], 0x1002, some (.cycles 2), []) := by decide

/-- spec/95 J3: BEQ -$80. -/
theorem test_beq_J3 :
    seen (machine 0x00 0x00 0x00 0xFF 0x02 0x1000
      [(0x1000, 0xF0), (0x1001, 0x80)]) =
    some ([0x00, 0x00, 0x00, 0xFF, 0x02], 0x0F82, some (.cycles 3), []) := by decide

/-- spec/95 J4: BCC -$02. -/
theorem test_bcc_J4 :
    seen (machine 0x00 0x00 0x00 0xFF 0x00 0x1000
      [(0x1000, 0x90), (0x1001, 0xFE)]) =
    some ([0x00, 0x00, 0x00, 0xFF, 0x00], 0x1000, some (.cycles 3), []) := by decide

/-- spec/95 J5: BMI +$7F. -/
theorem test_bmi_J5 :
    seen (machine 0x00 0x00 0x00 0xFF 0x80 0x1000
      [(0x1000, 0x30), (0x1001, 0x7F)]) =
    some ([0x00, 0x00, 0x00, 0xFF, 0x80], 0x1081, some (.cycles 3), []) := by decide

/-- spec/95 J6: JMP $1234. -/
theorem test_jmp_J6 :
    seen (machine 0x00 0x00 0x00 0xFF 0x04 0x1000
      [(0x1000, 0x4C), (0x1001, 0x34), (0x1002, 0x12)]) =
    some ([0x00, 0x00, 0x00, 0xFF, 0x04], 0x1234, some (.cycles 3), []) := by decide

/-- spec/95 J7: JMP ($20FF). -/
theorem test_jmp_J7 :
    seen (machine 0x00 0x00 0x00 0xFF 0x04 0x1000
      [(0x1000, 0x6C), (0x1001, 0xFF), (0x1002, 0x20), (0x2000, 0x12), (0x20FF, 0x34), (0x2100, 0x56)]) =
    some ([0x00, 0x00, 0x00, 0xFF, 0x04], 0x1234, some (.cycles 5), []) := by decide

/-- spec/95 J8: JSR $2000. -/
theorem test_jsr_J8 :
    seen (machine 0x00 0x00 0x00 0xFF 0x04 0x1000
      [(0x1000, 0x20), (0x1001, 0x00), (0x1002, 0x20)]) =
    some ([0x00, 0x00, 0x00, 0xFD, 0x04], 0x2000, some (.cycles 6), [(0x01FF, 0x10), (0x01FE, 0x02)]) := by decide

/-- spec/95 J9: RTS. -/
theorem test_rts_J9 :
    seen (machine 0x00 0x00 0x00 0xFD 0x04 0x1000
      [(0x1000, 0x60), (0x01FE, 0x02), (0x01FF, 0x10)]) =
    some ([0x00, 0x00, 0x00, 0xFF, 0x04], 0x1003, some (.cycles 6), []) := by decide

/-- spec/95 J10: RTS. -/
theorem test_rts_J10 :
    seen (machine 0x00 0x00 0x00 0xFF 0x04 0x1000
      [(0x1000, 0x60)]) =
    some ([0x00, 0x00, 0x00, 0xFF, 0x04], 0x1000, some .subroutineDone, []) := by decide

/-- spec/95 K1: PHP. -/
theorem test_php_K1 :
    seen (machine 0x00 0x00 0x00 0xFF 0xC3 0x1000
      [(0x1000, 0x08)]) =
    some ([0x00, 0x00, 0x00, 0xFE, 0xC3], 0x1001, some (.cycles 3), [(0x01FF, 0xC3)]) := by decide

/-- spec/95 K2: PHA. -/
theorem test_pha_K2 :
    seen (machine 0x12 0x00 0x00 0x00 0x04 0x1000
      [(0x1000, 0x48)]) =
    some ([0x12, 0x00, 0x00, 0xFF, 0x04], 0x1001, some (.cycles 3), [(0x0100, 0x12)]) := by decide

/-- spec/95 K3: PLA. -/
theorem test_pla_K3 :
    seen (machine 0x00 0x00 0x00 0xFF 0x04 0x1000
      [(0x1000, 0x68), (0x0100, 0x00)]) =
    some ([0x00, 0x00, 0x00, 0x00, 0x06], 0x1001, some (.cycles 4), []) := by decide

/-- spec/95 K4: PLP. -/
theorem test_plp_K4 :
    seen (machine 0x00 0x00 0x00 0xFE 0x04 0x1000
      [(0x1000, 0x28), (0x01FF, 0xFF)]) =
    some ([0x00, 0x00, 0x00, 0xFF, 0xFF], 0x1001, some (.cycles 4), []) := by decide

/-- spec/95 K5: SEC. -/
theorem test_sec_K5 :
    seen (machine 0x00 0x00 0x00 0xFF 0x04 0x1000
      [(0x1000, 0x38)]) =
    some ([0x00, 0x00, 0x00, 0xFF, 0x05], 0x1001, some (.cycles 2), []) := by decide

/-- spec/95 K6: CLI. -/
theorem test_cli_K6 :
    seen (machine 0x00 0x00 0x00 0xFF 0x04 0x1000
      [(0x1000, 0x58)]) =
    some ([0x00, 0x00, 0x00, 0xFF, 0x00], 0x1001, some (.cycles 2), []) := by decide

/-- spec/95 K7: SED. -/
theorem test_sed_K7 :
    seen (machine 0x00 0x00 0x00 0xFF 0x04 0x1000
      [(0x1000, 0xF8)]) =
    some ([0x00, 0x00, 0x00, 0xFF, 0x0C], 0x1001, some (.cycles 2), []) := by decide

/-- spec/95 K8: CLV. -/
theorem test_clv_K8 :
    seen (machine 0x00 0x00 0x00 0xFF 0xFF 0x1000
      [(0x1000, 0xB8)]) =
    some ([0x00, 0x00, 0x00, 0xFF, 0xBF], 0x1001, some (.cycles 2), []) := by decide

/-- spec/95 K9: NOP. -/
theorem test_nop_K9 :
    seen (machine 0x00 0x00 0x00 0xFF 0x04 0x1000
      [(0x1000, 0xEA)]) =
    some ([0x00, 0x00, 0x00, 0xFF, 0x04], 0x1001, some (.cycles 2), []) := by decide

/-- spec/95 K10: RTI. -/
theorem test_rti_K10 :
    seen (machine 0x00 0x00 0x00 0xFC 0x04 0x1000
      [(0x1000, 0x40), (0x01FD, 0xC3), (0x01FE, 0x34), (0x01FF, 0x12)]) =
    some ([0x00, 0x00, 0x00, 0xFF, 0xC3], 0x1234, some (.cycles 6), []) := by decide

/-- spec/95 K11: RTI. -/
theorem test_rti_K11 :
    seen (machine 0x00 0x00 0x00 0xFF 0x04 0x1000
      [(0x1000, 0x40)]) =
    some ([0x00, 0x00, 0x00, 0xFF, 0x04], 0x1000, some .idle, []) := by decide

/-- spec/95 U1: SLO $44. -/
theorem test_slo_U1 :
    seen (machine 0x01 0x00 0x00 0xFF 0x04 0x1000
      [(0x1000, 0x07), (0x1001, 0x44), (0x0044, 0x81)]) =
    some ([0x03, 0x00, 0x00, 0xFF, 0x05], 0x1002, some (.cycles 5), [(0x0044, 0x02)]) := by decide

/-- spec/95 U2: RLA $44. -/
theorem test_rla_U2 :
    seen (machine 0xFF 0x00 0x00 0xFF 0x01 0x1000
      [(0x1000, 0x27), (0x1001, 0x44), (0x0044, 0x40)]) =
    some ([0x81, 0x00, 0x00, 0xFF, 0x80], 0x1002, some (.cycles 5), [(0x0044, 0x81)]) := by decide

/-- spec/95 U3: SRE $44. -/
theorem test_sre_U3 :
    seen (machine 0xFF 0x00 0x00 0xFF 0x04 0x1000
      [(0x1000, 0x47), (0x1001, 0x44), (0x0044, 0x03)]) =
    some ([0xFE, 0x00, 0x00, 0xFF, 0x85], 0x1002, some (.cycles 5), [(0x0044, 0x01)]) := by decide

/-- spec/95 U4: RRA $44. -/
theorem test_rra_U4 :
    seen (machine 0x10 0x00 0x00 0xFF 0x00 0x1000
      [(0x1000, 0x67), (0x1001, 0x44), (0x0044, 0x03)]) =
    some ([0x12, 0x00, 0x00, 0xFF, 0x00], 0x1002, some (.cycles 5), [(0x0044, 0x01)]) := by decide

/-- spec/95 U5: DCP $44. -/
theorem test_dcp_U5 :
    seen (machine 0x10 0x00 0x00 0xFF 0x04 0x1000
      [(0x1000, 0xC7), (0x1001, 0x44), (0x0044, 0x11)]) =
    some ([0x10, 0x00, 0x00, 0xFF, 0x07], 0x1002, some (.cycles 5), [(0x0044, 0x10)]) := by decide

/-- spec/95 U7: ISC ($40),Y. -/
theorem test_isc_U7 :
    seen (machine 0x00 0x00 0x01 0xFF 0x01 0x1000
      [(0x1000, 0xF3), (0x1001, 0x40), (0x0040, 0xFF), (0x0041, 0x20), (0x2100, 0xFF)]) =
    some ([0x00, 0x00, 0x01, 0xFF, 0x03], 0x1002, some (.cycles 8), [(0x2100, 0x00)]) := by decide

/-- spec/95 U8: SAX $44. -/
theorem test_sax_U8 :
    seen (machine 0xF0 0x3C 0x00 0xFF 0x04 0x1000
      [(0x1000, 0x87), (0x1001, 0x44)]) =
    some ([0xF0, 0x3C, 0x00, 0xFF, 0x04], 0x1002, some (.cycles 3), [(0x0044, 0x30)]) := by decide

/-- spec/95 U10: LAX $2000,Y. -/
theorem test_lax_U10 :
    seen (machine 0x00 0x00 0x01 0xFF 0x04 0x1000
      [(0x1000, 0xBF), (0x1001, 0x00), (0x1002, 0x20), (0x2001, 0x00)]) =
    some ([0x00, 0x00, 0x01, 0xFF, 0x06], 0x1003, some (.cycles 4), []) := by decide

/-- spec/95 U11: ANC #$80. -/
theorem test_anc_U11 :
    seen (machine 0xFF 0x00 0x00 0xFF 0x04 0x1000
      [(0x1000, 0x0B), (0x1001, 0x80)]) =
    some ([0x80, 0x00, 0x00, 0xFF, 0x85], 0x1002, some (.cycles 2), []) := by decide

/-- spec/95 U12: ALR #$03. -/
theorem test_alr_U12 :
    seen (machine 0xFF 0x00 0x00 0xFF 0x04 0x1000
      [(0x1000, 0x4B), (0x1001, 0x03)]) =
    some ([0x01, 0x00, 0x00, 0xFF, 0x05], 0x1002, some (.cycles 2), []) := by decide

/-- spec/95 U14: ARR #$FF. -/
theorem test_arr_U14 :
    seen (machine 0x80 0x00 0x00 0xFF 0x00 0x1000
      [(0x1000, 0x6B), (0x1001, 0xFF)]) =
    some ([0x40, 0x00, 0x00, 0xFF, 0x41], 0x1002, some (.cycles 2), []) := by decide

/-- spec/95 U16: SBX #$01. -/
theorem test_sbx_U16 :
    seen (machine 0x0F 0xF1 0x00 0xFF 0x04 0x1000
      [(0x1000, 0xCB), (0x1001, 0x01)]) =
    some ([0x0F, 0x00, 0x00, 0xFF, 0x07], 0x1002, some (.cycles 2), []) := by decide

/-- spec/95 U18: LAS $2000,Y. -/
theorem test_las_U18 :
    seen (machine 0x00 0x00 0x00 0xF0 0x04 0x1000
      [(0x1000, 0xBB), (0x1001, 0x00), (0x1002, 0x20), (0x2000, 0x3C)]) =
    some ([0x30, 0x30, 0x00, 0x30, 0x04], 0x1003, some (.cycles 4), []) := by decide

/-- spec/95 U19: NOP (0x1A). -/
theorem test_nop_U19 :
    seen (machine 0x00 0x00 0x00 0xFF 0x04 0x1000
      [(0x1000, 0x1A)]) =
    some ([0x00, 0x00, 0x00, 0xFF, 0x04], 0x1001, some (.cycles 2), []) := by decide

/-- spec/95 U20: NOP #$55 (0x80). -/
theorem test_nop_U20 :
    seen (machine 0x00 0x00 0x00 0xFF 0x04 0x1000
      [(0x1000, 0x80), (0x1001, 0x55)]) =
    some ([0x00, 0x00, 0x00, 0xFF, 0x04], 0x1002, some (.cycles 2), []) := by decide

/-- spec/95 U21: NOP $2000,X (0x1C). -/
theorem test_nop_U21 :
    seen (machine 0x00 0xFF 0x00 0xFF 0x04 0x1000
      [(0x1000, 0x1C), (0x1001, 0x00), (0x1002, 0x20), (0x20FF, 0x99)]) =
    some ([0x00, 0xFF, 0x00, 0xFF, 0x04], 0x1003, some (.cycles 4), []) := by decide

/-- spec/95 U22: JAM (0x02). -/
theorem test_jam_U22 :
    seen (machine 0x00 0x00 0x00 0xFF 0x04 0x1000
      [(0x1000, 0x02)]) =
    some ([0x00, 0x00, 0x00, 0xFF, 0x04], 0x1000, some .jammed, []) := by decide

/-- spec/41_load_store_transfer.md, example of TAY. -/
theorem test_tay_example :
    seen (machine 0x00 0x00 0x05 0xFF 0x04 0x1000
      [(0x1000, 0xA8)]) =
    some ([0x00, 0x00, 0x00, 0xFF, 0x06], 0x1001, some (.cycles 2), []) := by decide

/-- spec/41_load_store_transfer.md, example of TXA. -/
theorem test_txa_example :
    seen (machine 0x00 0x7F 0x00 0xFF 0x04 0x1000
      [(0x1000, 0x8A)]) =
    some ([0x7F, 0x7F, 0x00, 0xFF, 0x04], 0x1001, some (.cycles 2), []) := by decide

/-- spec/43_shift_incdec.md, example of INY. -/
theorem test_iny_example :
    seen (machine 0x00 0x00 0x7F 0xFF 0x04 0x1000
      [(0x1000, 0xC8)]) =
    some ([0x00, 0x00, 0x80, 0xFF, 0x84], 0x1001, some (.cycles 2), []) := by decide

/-- spec/43_shift_incdec.md, example of DEX. -/
theorem test_dex_example :
    seen (machine 0x00 0x01 0x00 0xFF 0x04 0x1000
      [(0x1000, 0xCA)]) =
    some ([0x00, 0x00, 0x00, 0xFF, 0x06], 0x1001, some (.cycles 2), []) := by decide

/-- spec/44_branch_jump.md, example of BPL *+4. -/
theorem test_bpl_example :
    seen (machine 0x00 0x00 0x00 0xFF 0x00 0x1000
      [(0x1000, 0x10), (0x1001, 0x02)]) =
    some ([0x00, 0x00, 0x00, 0xFF, 0x00], 0x1004, some (.cycles 3), []) := by decide

/-- spec/44_branch_jump.md, example of BVC *+2. -/
theorem test_bvc_example :
    seen (machine 0x00 0x00 0x00 0xFF 0x40 0x1000
      [(0x1000, 0x50), (0x1001, 0x00)]) =
    some ([0x00, 0x00, 0x00, 0xFF, 0x40], 0x1002, some (.cycles 2), []) := by decide

/-- spec/44_branch_jump.md, example of BVS *+18. -/
theorem test_bvs_example :
    seen (machine 0x00 0x00 0x00 0xFF 0x40 0x1000
      [(0x1000, 0x70), (0x1001, 0x10)]) =
    some ([0x00, 0x00, 0x00, 0xFF, 0x40], 0x1012, some (.cycles 3), []) := by decide

/-- spec/44_branch_jump.md, example of BCS *-126. -/
theorem test_bcs_example :
    seen (machine 0x00 0x00 0x00 0xFF 0x01 0x1000
      [(0x1000, 0xB0), (0x1001, 0x80)]) =
    some ([0x00, 0x00, 0x00, 0xFF, 0x01], 0x0F82, some (.cycles 3), []) := by decide

/-- spec/45_stack_flag_system.md, example of CLC. -/
theorem test_clc_example :
    seen (machine 0x00 0x00 0x00 0xFF 0x01 0x1000
      [(0x1000, 0x18)]) =
    some ([0x00, 0x00, 0x00, 0xFF, 0x00], 0x1001, some (.cycles 2), []) := by decide

/-- spec/45_stack_flag_system.md, example of SEI. -/
theorem test_sei_example :
    seen (machine 0x00 0x00 0x00 0xFF 0x00 0x1000
      [(0x1000, 0x78)]) =
    some ([0x00, 0x00, 0x00, 0xFF, 0x04], 0x1001, some (.cycles 2), []) := by decide

/-- spec/45_stack_flag_system.md, example of CLD. -/
theorem test_cld_example :
    seen (machine 0x00 0x00 0x00 0xFF 0x08 0x1000
      [(0x1000, 0xD8)]) =
    some ([0x00, 0x00, 0x00, 0xFF, 0x00], 0x1001, some (.cycles 2), []) := by decide

/-- spec/46_undocumented.md, example of SBC #$01 (0xEB). -/
theorem test_sbc_EB :
    seen (machine 0x05 0x00 0x00 0xFF 0x01 0x1000
      [(0x1000, 0xEB), (0x1001, 0x01)]) =
    some ([0x04, 0x00, 0x00, 0xFF, 0x01], 0x1002, some (.cycles 2), []) := by decide

/-- 46 R302 by hand: 0x0F & 0xFF & (0x20 + 1) at 0x2001. -/
theorem test_sha_no_cross :
    seen (machine 0xFF 0x0F 0x01 0xFF 0x04 0x1000
      [(0x1000, 0x9F), (0x1001, 0x00), (0x1002, 0x20)]) =
    some ([0xFF, 0x0F, 0x01, 0xFF, 0x04], 0x1003, some (.cycles 5), [(0x2001, 0x01)]) := by decide

/-- 46 R302 by hand: base 0x20FF, Y 2: 0xF1 & 0x3F & 0x21 = 0x21, address 0x2101. -/
theorem test_sha_cross :
    seen (machine 0xF1 0x3F 0x02 0xFF 0x04 0x1000
      [(0x1000, 0x93), (0x1001, 0x40), (0x0040, 0xFF), (0x0041, 0x20)]) =
    some ([0xF1, 0x3F, 0x02, 0xFF, 0x04], 0x1002, some (.cycles 6), [(0x2101, 0x21)]) := by decide

/-- 46 R303 by hand: X & 0x21 = 0x01; the page is crossed, so 0x01 replaces the high byte of 0x2100. -/
theorem test_shx_cross :
    seen (machine 0x00 0x07 0x01 0xFF 0x04 0x1000
      [(0x1000, 0x9E), (0x1001, 0xFF), (0x1002, 0x20)]) =
    some ([0x00, 0x07, 0x01, 0xFF, 0x04], 0x1003, some (.cycles 5), [(0x0100, 0x01)]) := by decide

/-- 46 R304 by hand: Y & 0x21 = 0x20 at 0x2004. -/
theorem test_shy_plain :
    seen (machine 0x00 0x04 0xF0 0xFF 0x04 0x1000
      [(0x1000, 0x9C), (0x1001, 0x00), (0x1002, 0x20)]) =
    some ([0x00, 0x04, 0xF0, 0xFF, 0x04], 0x1003, some (.cycles 5), [(0x2004, 0x20)]) := by decide

/-- 46 R305 by hand: SP is A & X = 0x23, stored 0x23 & 0x21 = 0x21. -/
theorem test_tas_plain :
    seen (machine 0x33 0x2F 0x00 0xFF 0x04 0x1000
      [(0x1000, 0x9B), (0x1001, 0x00), (0x1002, 0x20)]) =
    some ([0x33, 0x2F, 0x00, 0x23, 0x04], 0x1003, some (.cycles 5), [(0x2000, 0x21)]) := by decide

/-- 46 R300 by hand, whatever MAGIC is: an operand of 0 leaves 0, Z = 1. -/
theorem test_ane_zero :
    (match exec (.ane 0x00) (machine 0x55 0x66 0 0xFF 0x84 0x1000 []) with
      | .next t => some ((t.a, t.x, t.p, t.pc), t.outcome)
      | .fault _ => none
      | .refused _ => none) = some ((0x00, 0x66, 0x06, 0x1002), some (.cycles 2)) := by
  simp [exec, execAne, machine, State.reset, Config.reference, readWith, load, drawByte, State.loadA, State.finish,
    opLength, Operand.mode, Mode.operandBytes, cycleCount, reducible, baseCycles]
  decide

/-- 46 R301 by hand, whatever MAGIC is: an operand of 0 leaves 0 in both registers. -/
theorem test_lxa_zero :
    (match exec (.lxa 0x00) (machine 0x55 0x66 0 0xFF 0x84 0x1000 []) with
      | .next t => some ((t.a, t.x, t.p, t.pc), t.outcome)
      | .fault _ => none
      | .refused _ => none) = some ((0x00, 0x00, 0x06, 0x1002), some (.cycles 2)) := by
  simp [exec, execLxa, machine, State.reset, Config.reference, readWith, load, drawByte, State.loadA, State.finish,
    opLength, Operand.mode, Mode.operandBytes, cycleCount, reducible, baseCycles]
  decide

/-- The machine with the spec's default UNSTABLE_ADMITTED. -/
def unadmitted (cells : List (Addr × Byte)) : State :=
  { machine 0 0 0 0xFF 0x04 0x1000 cells with cfg := { Config.reference with unstableAdmitted := false } }

/-- spec/95 U15, U23, U24. -/
theorem test_refusals :
    refusal (machine 0 0 0 0xFF 0x08 0x1000 [(0x1000, 0x6B), (0x1001, 0xFF)]) = some .arrDecimal ∧
    refusal (unadmitted [(0x1000, 0x8B), (0x1001, 0xFF)]) = some (.unstableOpcode "ANE") ∧
    refusal (unadmitted [(0x1000, 0x9C), (0x1001, 0x00), (0x1002, 0x20)]) = some (.unstableOpcode "SHY") := by
  decide

/-! ## Interrupts (spec/95 section 4) -/

/-- The start state of section 4: the NMI vector names 0x9000, the IRQ vector 0xA000. -/
def interruptStart (p : Byte) (prev now : Nat) (line : Bool) : State :=
  { machine 0 0 0 0xFF p 0x1000 [(0xFFFB, 0x90), (0xFFFF, 0xA0)] with
    prevNmi := prev, nmiLevel := now, extIrq := line }

/-- What the interrupt service leaves. -/
structure Served where
  taken : Bool
  pc : Addr
  sp : Byte
  p : Byte
  prevNmi : Nat
  writes : List (Addr × Byte)
deriving DecidableEq, Repr

/-- The interrupt service, evaluated once. -/
def served (s : State) : Served :=
  ⟨(serviceInterrupts s).taken, (serviceInterrupts s).pc, (serviceInterrupts s).sp, (serviceInterrupts s).p,
    (serviceInterrupts s).prevNmi, writes (serviceInterrupts s).bus⟩

/-- I1 and I9: an IRQ is taken, D stays. -/
theorem test_irq_taken :
    served (interruptStart 0x00 0 0 true) =
      ⟨true, 0xA000, 0xFC, 0x04, 0, [(0x01FF, 0x10), (0x01FE, 0x00), (0x01FD, 0x00)]⟩ ∧
    served (interruptStart 0x09 0 0 true) =
      ⟨true, 0xA000, 0xFC, 0x0D, 0, [(0x01FF, 0x10), (0x01FE, 0x00), (0x01FD, 0x09)]⟩ := by decide

/-- I2: an IRQ is masked. -/
theorem test_irq_masked : served (interruptStart 0x04 0 0 true) = ⟨false, 0x1000, 0xFF, 0x04, 0, []⟩ := by decide

/-- I5 and I7: NMI wins; one entry for several increments. -/
theorem test_nmi_taken :
    served (interruptStart 0x00 0 1 true) =
      ⟨true, 0x9000, 0xFC, 0x04, 1, [(0x01FF, 0x10), (0x01FE, 0x00), (0x01FD, 0x00)]⟩ ∧
    served (interruptStart 0x00 3 5 false) =
      ⟨true, 0x9000, 0xFC, 0x04, 5, [(0x01FF, 0x10), (0x01FE, 0x00), (0x01FD, 0x00)]⟩ := by decide

/-- I6 and I8: no edge without a rise, and the latch follows the level down. -/
theorem test_nmi_no_edge :
    served (interruptStart 0x00 3 3 false) = ⟨false, 0x1000, 0xFF, 0x00, 3, []⟩ ∧
    served (interruptStart 0x00 3 2 true) =
      ⟨true, 0xA000, 0xFC, 0x04, 2, [(0x01FF, 0x10), (0x01FE, 0x00), (0x01FD, 0x00)]⟩ := by decide

/-! ## Raster timer (spec/95 section 6) -/

/-- The accumulator and the row after a list of advances in the reference configuration. -/
def rows (r : Raster) (ns : List Nat) : Nat × Nat :=
  ((ns.foldl (fun r n => r.advance Config.reference n) r).acc,
    (ns.foldl (fun r n => r.advance Config.reference n) r).row.toNat)

/-- T1 and T2. -/
theorem test_raster_rows :
    rows Raster.reset [60, 2] = (62, 0) ∧ rows Raster.reset [60, 2, 1, 63] = (0, 2) ∧
    rows Raster.reset [60, 2, 1, 63, 200] = (11, 5) ∧
    rows { Raster.reset with acc := 60, row := 310 } [7] = (4, 311) ∧
    rows { Raster.reset with acc := 60, row := 310 } [7, 63, 63] = (4, 1) := by decide

/-- T4, T5, T6 and T7: the match sets the flag byte, an acknowledge clears it, an enable afterwards does not. -/
theorem test_raster_flag :
    (({ Raster.reset with cmp := 2, enable := 1 } : Raster).advance Config.reference 63).readFlag = 0x00 ∧
    (({ Raster.reset with cmp := 2, enable := 1 } : Raster).advance Config.reference 189).readFlag = 0x81 ∧
    ((({ Raster.reset with cmp := 2, enable := 1 } : Raster).advance Config.reference 189).acknowledge
      Config.reference 0x00).readFlag = 0x00 ∧
    ((({ Raster.reset with cmp := 2, enable := 1 } : Raster).advance Config.reference 189).acknowledge
      { Config.reference with realHwMode := false } 0x01).readFlag = 0x81 ∧
    ((({ Raster.reset with cmp := 2, enable := 1 } : Raster).advance Config.reference 189).acknowledge
      { Config.reference with rasterAckNeedsOne := true } 0x02).readFlag = 0x81 ∧
    ((({ Raster.reset with cmp := 2 } : Raster).advance Config.reference 126).writeEnable 1).readFlag = 0x00 := by
  decide

/-- T3 and T8: the ninth bit and the compare value. -/
theorem test_raster_bytes :
    ({ Raster.reset with row := 256 } : Raster).readControl = 0x80 ∧
    ({ Raster.reset with row := 256 } : Raster).readRow = 0x00 ∧
    ((Raster.reset.writeControl 0x9B).writeRow 0x10).cmp = 0x110 ∧
    ((Raster.reset.writeControl 0x9B).writeRow 0x10).readControl = 0x1B := by decide

/-! ## Sound chip (spec/95 section 5) -/

/-- The reset sound chip with register writes made. -/
def chip (rs : List (BitVec 5 × Byte)) : Sid := rs.foldl (fun t r => t.write r.1 r.2) Sid.reset

/-- The sound chip after one advance. -/
def advanced (n : Nat) (t : Sid) : Sid := (sidAdvance Config.reference n t).1

/-- S1: sawtooth. -/
theorem test_sawtooth :
    ((advanced 4 (chip [(0x00, 0x34), (0x01, 0x12), (0x04, 0x20)])).ch[0].phase,
      (advanced 4 (chip [(0x00, 0x34), (0x01, 0x12), (0x04, 0x20)])).ch[0].waveOut) = (0x0048D0, 0x004) := by decide

/-- S2: the phase wraps. -/
theorem test_phase_wraps :
    (oscStep Config.reference (chip [(0x00, 0xFF), (0x01, 0xFF)]) 0 2 ⟨false, false⟩
      { Channel.reset with phase := 0xFFFF00 }).1.phase = 0x01FEFE := by decide

/-- S3: the test bit. -/
theorem test_test_bit :
    (oscStep Config.reference (chip [(0x04, 0x88)]) 0 5 ⟨false, false⟩
      { Channel.reset with phase := 0x123456, lfsr := 0x2AAAAA }).1 =
      { Channel.reset with prevPhase := 0x123456, waveOut := 0xFF0 } := by decide

/-- S5: the last ten of the first 24 states of the noise register. -/
theorem test_noise_states :
    (List.range 11).map (fun k => clockNoise^[14 + k] (0x7FFFFF : Lfsr)) =
      [0x7FC000, 0x7F8000, 0x7F0000, 0x7E0000, 0x7C0000, 0x780001] ++
      [0x700003, 0x600007, 0x40000F, 0x00001F, 0x00003E] := by decide

/-- S6, S7 and S10: triangle, pulse, ring modulation. -/
theorem test_waveforms :
    triangleWave false false 0x000800 = 0x001 ∧ triangleWave false false 0x7FFFFF = 0xFFF ∧
    triangleWave false false 0xC00000 = 0x7FF ∧ triangleWave true true 0x200000 = 0xBFF ∧
    triangleWave true false 0x200000 = 0x400 ∧ pulseWave 0x800 0x7FFFFF = 0x000 ∧
    pulseWave 0x800 0x800000 = 0xFFF ∧ pulseWave 0 0 = 0xFFF := by decide

/-- S8: channel 0's MSB rises and resets channel 1's phase in the same advance. -/
theorem test_hard_sync :
    ((sidAdvance Config.reference 1
      { chip [(0x01, 0x40), (0x08, 0x10), (0x04, 0x20), (0x0B, 0x22)] with
        ch := #v[{ Channel.reset with phase := 0x7FC000 }, { Channel.reset with phase := 0x300000 },
          Channel.reset] }).1.ch[0].phase,
     (sidAdvance Config.reference 1
      { chip [(0x01, 0x40), (0x08, 0x10), (0x04, 0x20), (0x0B, 0x22)] with
        ch := #v[{ Channel.reset with phase := 0x7FC000 }, { Channel.reset with phase := 0x300000 },
          Channel.reset] }).1.ch[1].phase) = (0x800000, 0x000000) := by decide

/-- S12: the register surface. -/
theorem test_sound_registers :
    (chip [(0x0E, 0xAB), (0x18, 0x5F), (0x1B, 0x77), (0x1C, 0x77)]).read 0x0E = some 0xAB ∧
    (chip [(0x0E, 0xAB), (0x18, 0x5F), (0x1B, 0x77), (0x1C, 0x77)]).read 0x18 = some 0x5F ∧
    (chip [(0x1B, 0x77), (0x1C, 0x77)]).read 0x1B = some 0x00 ∧
    (chip [(0x1B, 0x77), (0x1C, 0x77)]).read 0x1C = some 0x00 := by decide

/-- Envelope steps of channel 0 of four cycles each. -/
def envelopeSteps (t : Sid) (k n : Nat) (ch : Channel) : Channel := (envStep Config.reference t 0 n)^[k] ch

/-- E1: attack at rate 0. -/
theorem test_attack :
    (let c := envelopeSteps (chip [(0x04, 0x01), (0x06, 0xA0)]) 1 4 Channel.reset
     (c.gate, c.attack, c.decaySustain, c.holdZero, c.rateCounter, c.envLevel)) =
      (true, true, true, false, 4, 0) ∧
    (let c := envelopeSteps (chip [(0x04, 0x01), (0x06, 0xA0)]) 3 4 Channel.reset
     (c.rateCounter, c.envLevel)) = (3, 1) := by decide

/-- E5: a restart keeps the level. E7: the first release tick from level 0 with the freeze cleared. -/
theorem test_restart_and_release :
    (let c := envStep Config.reference (chip [(0x04, 0x01)]) 0 1
      { Channel.reset with holdZero := false, envLevel := 100 }
     (c.gate, c.attack, c.decaySustain, c.holdZero, c.envLevel)) = (true, true, true, false, 100) ∧
    (envelopeSteps (chip []) 7 1 (envStep Config.reference (chip [(0x04, 0x01)]) 0 1 Channel.reset)).envLevel = 0 ∧
    (envelopeSteps (chip []) 8 1 (envStep Config.reference (chip [(0x04, 0x01)]) 0 1 Channel.reset)).envLevel =
      255 := by decide

/-- E6: a counter above the shortened period runs on. -/
theorem test_delay_after_shortening :
    (let c := envStep Config.reference (chip [(0x04, 0x01)]) 0 1
      { Channel.reset with gate := true, attack := true, decaySustain := true, holdZero := false, rateCounter := 20000 }
     (c.rateCounter, c.envLevel)) = (20001, 0) := by decide

/-- M1: samples and routing. -/
theorem test_samples_and_routing :
    channelSample { Channel.reset with waveOut := 0xFFF, envLevel := 255 } = 521985 ∧
    channelSample { Channel.reset with waveOut := 0x000, envLevel := 16 } = -32768 ∧
    channelSample { Channel.reset with waveOut := 0x900, envLevel := 100 } = 25600 ∧
    route (chip [(0x18, 0x80)]) 2 { Channel.reset with waveOut := 0x900, envLevel := 100 } (0, 489217) =
      (0, 489217) ∧
    route (chip [(0x17, 0x04), (0x18, 0x80)]) 2 { Channel.reset with waveOut := 0x900, envLevel := 100 }
      (0, 489217) = (25600, 489217) := by decide

/-- F1: two inputs to the default filter step, cutoff coefficient 1/4, resonance coefficient 1. -/
theorem test_filter_step :
    filterStepStandard 0 0 1000 (1 / 4) 1 = (125 / 2, 250, 1000) ∧
    filterStepStandard (125 / 2) 250 1000 (1 / 4) 1 = (5375 / 32, 3375 / 8, 1375 / 2) := by
  decide +kernel

/-- F3: the signs of the taps. -/
theorem test_filter_taps :
    filterOut 0x10 (125 / 2) 250 1000 = 125 / 2 ∧ filterOut 0x40 (125 / 2) 250 1000 = -1000 ∧
    filterOut 0x50 (125 / 2) 250 1000 = -1875 / 2 ∧ filterOut 0x70 (125 / 2) 250 1000 = -1375 / 2 := by
  decide +kernel

/-- O1: truncation toward zero. -/
theorem test_quantise :
    quantise Config.reference (25 / 4) = 6 ∧ quantise Config.reference (-25 / 4) = -6 := by
  decide +kernel

/-! ## Witnesses: for each obligation with hypotheses, a state and operands that meet them together -/

/-- A small program: LDA #$00 at pc, in memory, in the reset machine. -/
def loadZero : State := machine 1 2 3 0xFF 0x04 0x1000 [(0x1000, 0xA9)]

theorem witness_DecodeOfEncode : (Instr.sha (.izy 0x10)).wellFormed = true := by decide

theorem witness_EncodeOfDecode : decodesTo (.jmp 0x1234) [0x4C, 0x34, 0x12] = true := by decide

/-- Both clauses: the words stand at pc; the configuration is in its domain and the processor not jammed. -/
theorem witness_FetchAndStepRunTheInstruction :
    (Instr.lda (.imm 0)).wellFormed = true ∧
    (readBytes (Instr.lda (.imm 0)).length loadZero.pc loadZero).1 = encode (.lda (.imm 0)) ∧
    loadZero.roundInDomain = true ∧ (serviceInterrupts (beginRound loadZero)).jammed = false ∧
    (readBytes (Instr.lda (.imm 0)).length (serviceInterrupts (beginRound loadZero)).pc
      (serviceInterrupts (beginRound loadZero))).1 = encode (.lda (.imm 0)) := by decide

/-- A counted outcome, and one without a count. -/
theorem witness_TimePassesByTheCount :
    ({ loadZero with outcome := some (.cycles 7) } : State).outcome = some (.cycles 7) ∧
    (∀ k, ({ loadZero with outcome := some .jammed } : State).outcome ≠ some (.cycles k)) :=
  ⟨rfl, fun _ h => by simp at h⟩

/-- Each way out of the domain, at its boundary, and a reset that brings one and is not the last event. -/
theorem witness_OutOfDomainIsRefused :
    (∀ cfg ∈ [{ Config.reference with rowsTotal := 0 }, { Config.reference with rowsTotal := 513 },
        { Config.reference with cyclesPerRow := 0 }, { Config.reference with attenuation := 0 },
        { Config.reference with phaseBits := 25 }, { Config.reference with waveBits := 11 }],
      (match step { loadZero with cfg := cfg } with
        | .refused r => some r
        | .fault _ => none
        | .next _ => none) = some .configOutOfDomain) ∧
    (match step { loadZero with pending := [[.reset { Config.reference with attenuation := 0 } 0x1000,
        .sample none, .advance 1, .reset Config.reference 0x1000]] } with
      | .refused r => some r
      | .fault _ => none
      | .next _ => none) = some .configOutOfDomain := by decide

theorem witness_RefusalsAreTheStatedOnes :
    (unadmitted []).cfg.unstableAdmitted = false ∧ flag (machine 0 0 0 0xFF 0x08 0x1000 []).p .d = true := by decide

/-- A state that meets the invariant, is not the reset state, and whose step answers a next state; no host event
is pending. -/
theorem witness_StepKeepsInvariant :
    Inv loadZero ∧ (∃ t, step loadZero = .next t) ∧ ∀ cfg entry, .reset cfg entry ∉ loadZero.pending.headI := by
  refine ⟨⟨by decide, fun c => ?_, rfl, by decide, ?_, rfl, fun _ => by decide⟩, ⟨_, rfl⟩, fun _ _ h => ?_⟩
  · constructor <;> (revert c; decide)
  · exact ⟨le_refl (0 : Rat), by norm_num [loadZero, machine, State.reset, State.resetWith, Sid.reset]⟩
  · exact absurd h (List.not_mem_nil)

/-- `OnlyResetReconfigures`: a jammed state besides. -/
theorem witness_OnlyResetReconfigures :
    (∀ cfg entry, .reset cfg entry ∉ ({ loadZero with jammed := true } : State).pending.headI) ∧
    ∃ t, step { loadZero with jammed := true } = .next t :=
  ⟨fun _ _ h => absurd h (List.not_mem_nil), _, rfl⟩

/-- Memories with one and two listed bytes, at the ends of the address space. -/
theorem witness_MemoryLaws :
    (⟨[(0, 0x01)]⟩ : Memory).wf = true ∧ (⟨[(0, 0x01), (65535, 0xFF)]⟩ : Memory).wf = true ∧
    (0xFFFF : Addr) ≠ 0x0000 := by decide

theorem witness_BusWriteStoresOneByte :
    loadZero.mem.wf = true ∧ loadZero.target 0xFFFF = .ram ∧ loadZero.target 0xD3FF = .ram := by decide

/-- A known byte, an unassigned offset, and an address the oracle answers. -/
theorem witness_BusReadChangesNothing :
    loadZero.stored 0x1000 = some 0xA9 ∧ loadZero.stored 0xD419 = none ∧
    loadZero.target 0xD419 ≠ .external ∧
    ({ loadZero with cfg := { Config.reference with map := BusMap.oracle } } : State).target 0x1000 = .external := by
  decide

/-- The four addresses, and the conditions of an acknowledge met and not. -/
theorem witness_RasterBytes :
    loadZero.target 0xD011 = .rasterControl ∧ loadZero.target 0xD012 = .rasterRow ∧
    loadZero.target 0xD019 = .rasterFlag ∧ loadZero.target 0xD01A = .rasterEnable ∧
    (loadZero.cfg.realHwMode = true ∧
      (loadZero.cfg.rasterAckNeedsOne = false ∨ (0x00 : Byte).getLsbD 0 = true)) ∧
    ¬ (({ Config.reference with rasterAckNeedsOne := true } : Config).realHwMode = true ∧
      (({ Config.reference with rasterAckNeedsOne := true } : Config).rasterAckNeedsOne = false ∨
        (0x02 : Byte).getLsbD 0 = true)) := by decide

/-- The ends of the stored offsets, the two computed ones, the unassigned ones. -/
theorem witness_SoundRegisters :
    (loadZero.target 0xD400 = .sid 0x00 ∧ (0x00 : BitVec 5).toNat < 25) ∧
    (loadZero.target 0xD418 = .sid 0x18 ∧ (0x18 : BitVec 5).toNat < 25) ∧ loadZero.target 0xD41B = .sid 0x1B ∧
    loadZero.target 0xD41C = .sid 0x1C ∧ (loadZero.target 0xD419 = .sid 0x19 ∧ 25 ≤ (0x19 : BitVec 5).toNat) ∧
    loadZero.target 0xD41F = .sid 0x1F := by decide

/-- Both ends of the stack page, and RAM under it. -/
theorem witness_StackDiscipline :
    (machine 0 0 0 0x00 0x04 0x1000 []).sp = 0x00 ∧ loadZero.sp = 0xFF ∧ loadZero.mem.wf = true ∧
    loadZero.target (stackSlot loadZero 0) = .ram ∧
    (machine 0 0 0 0x00 0x04 0x1000 []).target (stackSlot (machine 0 0 0 0x00 0x04 0x1000 []) 0) = .ram := by
  decide

theorem witness_AddressingModes : (Operand.izy 0xFF).mode ≠ .imm := by decide

/-- Binary and decimal mode, carry and no carry. -/
theorem witness_AddAndSubtractRun :
    flag loadZero.p .d = false ∧ flag (machine 0x99 0 0 0xFF 0x09 0x1000 []).p .d = true ∧
    flag (machine 0x99 0 0 0xFF 0x09 0x1000 []).p .c = true := by decide

/-- The largest digits, the largest sum, the smallest difference. -/
theorem witness_DecimalArithmetic :
    Config.reference.bcdAdc = .standard ∧ Config.reference.bcdSbc = .standard ∧ (9 : Nat) ≤ 9 ∧ (0x99 : Byte) = BitVec.ofNat 8 (16 * 9 + 9) ∧
    (199 : Nat) = 10 * 9 + 9 + (10 * 9 + 9) + (if true then 1 else 0) ∧
    0 + (10 * 9 + 9) + (if false then 0 else 1) = 10 * 0 + 0 + 100 := by decide

/-- Taken and not taken. -/
theorem witness_BranchesRun : flag loadZero.p .n = false ∧ flag loadZero.p .n ≠ true := by decide

/-- At the reset depth, and above it. -/
theorem witness_SubroutinesRun :
    loadZero.sp = loadZero.cfg.spReset ∧ (machine 0 0 0 0xFD 0x04 0x1000 []).sp ≠ loadZero.cfg.spReset := by decide

theorem witness_CallThenReturn :
    loadZero.mem.wf = true ∧ loadZero.target (stackSlot loadZero 0) = .ram ∧
    loadZero.target (stackSlot loadZero 1) = .ram ∧ loadZero.sp - 2 ≠ loadZero.cfg.spReset ∧
    ∃ t, exec (.jsr 0x2000) loadZero = .next t :=
  ⟨by decide, by decide, by decide, by decide, _, rfl⟩

theorem witness_BreakAndReturnRun :
    (machine 0 0 0 0xFC 0x04 0x1000 []).sp ≠ (machine 0 0 0 0xFC 0x04 0x1000 []).cfg.spReset ∧
    loadZero.sp = loadZero.cfg.spReset := by decide

theorem witness_JammedIsStuck :
    ({ loadZero with jammed := true } : State).jammed = true ∧ loadZero.pending.headI = [] ∧
    ({ loadZero with pending := [[], [.sample none]] } : State).pending.headI = [] ∧ inDomain loadZero.cfg = true := by decide

theorem witness_ImmediateCombinationsRun : flag loadZero.p .d = false := by decide

/-- Admitted, an operand of 0, and a page crossed and not crossed. -/
theorem witness_UnstableInstructionsRun :
    loadZero.cfg.unstableAdmitted = true ∧ (locate (.aby 0x20FF) loadZero).1.crossed = true ∧
    (locate (.aby 0x2000) loadZero).1.crossed = false := by decide

/-- Each of the four kinds of flag write. -/
theorem witness_FlagWriters :
    (match exec .clv (machine 0 0 0 0xFF 0x40 0x1000 []) with
      | .next t => flag t.p .v
      | .fault _ => true
      | .refused _ => true) = false ∧
    (match exec .plp (machine 0 0 0 0xFD 0x00 0x1000 [(0x01FE, 0x30)]) with
      | .next t => flag t.p .u && flag t.p .b
      | .fault _ => false
      | .refused _ => false) = true ∧
    (match exec .sed (machine 0 0 0 0xFF 0x00 0x1000 []) with
      | .next t => flag t.p .d
      | .fault _ => false
      | .refused _ => false) = true ∧
    (match exec .brk (machine 0 0 0 0xFF 0x00 0x1000 []) with
      | .next t => flag t.p .i
      | .fault _ => false
      | .refused _ => false) = true := by decide

/-- Jammed; an NMI edge; an IRQ; neither, masked and unmasked. -/
theorem witness_InterruptsAreServiced :
    ({ loadZero with jammed := true } : State).jammed = true ∧ loadZero.jammed = false ∧
    (interruptStart 0x00 0 1 true).prevNmi < (interruptStart 0x00 0 1 true).nmiLevel ∧
    ((interruptStart 0x00 3 3 true).nmiLevel ≤ (interruptStart 0x00 3 3 true).prevNmi ∧
      (interruptStart 0x00 3 3 true).extIrq = true ∧ flag (interruptStart 0x00 3 3 true).p .i = false) ∧
    flag (interruptStart 0x04 0 0 true).p .i = true ∧
    ((interruptStart 0x00 0 0 false).raster.irq = false ∧ (interruptStart 0x00 0 0 false).extIrq = false) := by
  decide

theorem witness_InterruptThenReturn :
    loadZero.mem.wf = true ∧ loadZero.target (stackSlot loadZero 0) = .ram ∧
    loadZero.target (stackSlot loadZero 1) = .ram ∧ loadZero.target (stackSlot loadZero 2) = .ram ∧
    loadZero.cfg.irqPushIForced = false ∧ loadZero.sp - 3 ≠ loadZero.cfg.spReset := by decide

/-- Just below the row length, and on it. -/
theorem witness_RasterLoop :
    1 ≤ Config.reference.cyclesPerRow ∧ Raster.reset.acc + 62 < Config.reference.cyclesPerRow ∧
    Config.reference.cyclesPerRow ≤ Raster.reset.acc + 63 := by decide

theorem witness_RasterRowAfterTime : inDomain Config.reference = true := by decide

/-- The last row, an enabled match on it, and one frame of time. -/
theorem witness_RasterRequest :
    inDomain Config.reference = true ∧
    ({ Raster.reset with row := 311, cmp := 311, enable := 1 } : Raster).row.toNat < Config.reference.rowsTotal ∧
    ({ Raster.reset with row := 311, cmp := 311, enable := 1 } : Raster).enable.getLsbD 0 = true ∧
    ({ Raster.reset with row := 311, cmp := 311, enable := 1 } : Raster).cmp.toNat < Config.reference.rowsTotal ∧
    Config.reference.rowsTotal * Config.reference.cyclesPerRow ≤ 19656 := by decide

/-- The three ways a sample is routed, and the two kinds of silent sample. -/
theorem witness_SoundAdvanceAndRouting :
    (chip [(0x17, 0x04)]).regs[0x17].getLsbD 2 = true ∧
    (Sid.reset.regs[0x17].getLsbD 2 = false ∧ ¬ ((2 : Fin 3) = 2 ∧ Sid.reset.regs[0x18].getLsbD 7 = true)) ∧
    ((chip [(0x18, 0x80)]).regs[0x17].getLsbD 2 = false ∧ (chip [(0x18, 0x80)]).regs[0x18].getLsbD 7 = true) ∧
    Channel.reset.envLevel = 0 ∧ ({ Channel.reset with waveOut := 2048 } : Channel).waveOut = 2048 := by decide

/-- At least one cycle, and none. The test bit set; clear with the noise clock bit toggling; clear without. -/
theorem witness_OscillatorSteps :
    1 ≤ (1 : Nat) ∧ (chip [(0x04, 0x08)]).testBit 0 = true ∧
    ((chip [(0x01, 0x80)]).testBit 0 = false ∧
      (oscStep Config.reference (chip [(0x01, 0x80)]) 0 32 ⟨false, false⟩ Channel.reset).1.phase.getLsbD
        Config.reference.noiseClkBit.val ≠ Channel.reset.phase.getLsbD Config.reference.noiseClkBit.val) ∧
    ((oscStep Config.reference (chip [(0x01, 0x80)]) 0 1 ⟨false, false⟩ Channel.reset).1.phase.getLsbD
        Config.reference.noiseClkBit.val = Channel.reset.phase.getLsbD Config.reference.noiseClkBit.val) := by decide

/-- The four waveforms at phase 0x800000 with the register all ones, and each kind of selector. -/
theorem witness_WaveformsAreGenerated :
    (let c := (oscStep Config.reference Sid.reset 0 0 ⟨false, false⟩ { Channel.reset with phase := 0x800000 }).1
     (0xFFF : Wave).toNat = (if (c.phase.getLsbD 23 ^^ (Sid.reset.ringBit 0 && false)) = true
       then 2 ^ 24 - 1 - c.phase.toNat else c.phase.toNat) / 2 ^ 11 % 2 ^ 12 ∧
     (0x800 : Wave).toNat = c.phase.toNat / 2 ^ 12 ∧ (Sid.reset.pulseWidth 0).toNat ≤ (0x800 : Wave).toNat ∧
     (∀ i, i < 4 → (0xFF0 : Wave).getLsbD i = false) ∧
     (∀ i ∈ [(11, 20), (10, 18), (9, 14), (8, 11), (7, 9), (6, 5), (5, 2), (4, 0)],
       (0xFF0 : Wave).getLsbD i.1 = c.lfsr.getLsbD i.2)) ∧
    (chip [(0x04, 0x00)]).selector 0 = 0b0000 ∧ (chip [(0x04, 0x10)]).selector 0 = 0b0001 ∧
    (chip [(0x04, 0x20)]).selector 0 = 0b0010 ∧ (chip [(0x04, 0x40)]).selector 0 = 0b0100 ∧
    (chip [(0x04, 0x80)]).selector 0 = 0b1000 ∧
    (chip [(0x04, 0x30)]).selector 0 ∉ [0b0000, 0b0001, 0b0010, 0b0100, 0b1000] := by decide

theorem witness_NoiseProperties :
    1 ≤ (1 : Nat) ∧ (chip [(0x04, 0x88)]).testBit 0 = true ∧ Channel.reset.lfsr ≠ 0 ∧ Sid.reset.selector 0 = 0 := by decide

/-- The two edges and none; the six kinds of tick, at the period's boundary and the sustain level. -/
theorem witness_EnvelopeEdgesAndTicks :
    Channel.reset.gate = false ∧ ({ Channel.reset with gate := true } : Channel).gate = true ∧
    (({ Channel.reset with attack := true, holdZero := false } : Channel).holdZero = false ∧
      Channel.reset.holdZero = true) ∧
    (({ Channel.reset with envLevel := 93, expCounter := 0 } : Channel).expCounter + 1).toNat <
      Config.reference.expPeriod.getD 93 1 ∧
    Config.reference.expPeriod.getD 93 1 ≤
      (({ Channel.reset with envLevel := 93, expCounter := 1 } : Channel).expCounter + 1).toNat ∧
    (({ Channel.reset with decaySustain := true, envLevel := 170 } : Channel).decaySustain = true ∧
      ({ Channel.reset with decaySustain := true, envLevel := 170 } : Channel).envLevel = 170) := by decide

/-- A crossing at its lower and upper end, and none on either side, for period 9 and four cycles. -/
theorem witness_RateCounterCrosses :
    1 ≤ (4 : Nat) ∧ (4 : Nat) ≤ 32768 ∧ Config.reference.ratePeriod.getD 0 1 = 9 ∧ (9 ≤ (5 + 4) % 32768 ∧ (5 + 4) % 32768 < 9 + 4) ∧
    (9 ≤ (8 + 4) % 32768 ∧ (8 + 4) % 32768 < 9 + 4) ∧ ¬ (9 ≤ (4 + 4) % 32768 ∧ (4 + 4) % 32768 < 9 + 4) ∧
    ¬ (9 ≤ (9 + 4) % 32768 ∧ (9 + 4) % 32768 < 9 + 4) := by decide

theorem witness_AttackRunsToTheTop :
    (let c : Channel := { Channel.reset with attack := true, holdZero := false }
     c.attack = true ∧ c.holdZero = false ∧ c.envLevel ≠ 255 ∧ c.envLevel.toNat + 255 ≤ 255) := by decide

/-- Channel 1 with its test, sync and gate bits set, a rise carried, advanced by 0: nothing moves (47 R345). -/
theorem witness_AdvanceByZero :
    (sidAdvance Config.reference 0 { chip [(0x0B, 0x0B)] with
      ch := Vector.replicate 3 { Channel.reset with phase := 0x123456, lfsr := 1, envLevel := 9 }
      syncRise := true }).1.ch[1] =
      { Channel.reset with phase := 0x123456, lfsr := 1, envLevel := 9 } := by decide

/-- Memory in its canonical form, and both ways a pair reaches `SidOutput`. -/
theorem witness_HostEventsActBetweenRounds :
    loadZero.mem.wf = true ∧
    (0, 0) = (match (none : Option (Int × Int)) with | some q => q | none => loadZero.sums) ∧
    (3, 4) = (match (some (3, 4) : Option (Int × Int)) with | some q => q | none => loadZero.sums) := by decide

/-- Two sound chips with different filter state and the same volume register. -/
theorem witness_FilterBypass :
    ({ chip [(0x18, 0x0F)] with lp := 1 } : Sid).regs[0x18] = (chip [(0x18, 0x0F)]).regs[0x18] ∧
    ({ chip [(0x18, 0x0F)] with lp := 1 } : Sid).volSmooth = (chip [(0x18, 0x0F)]).volSmooth ∧
    ∀ i, 4 ≤ i → i ≤ 6 → (chip [(0x18, 0x0F)]).regs[0x18].getLsbD i = false := by
  refine ⟨rfl, rfl, fun i h1 h2 => ?_⟩
  interval_cases i <;> decide

/-- The volume state equal to the register, below it, above it. -/
theorem witness_VolumeStage :
    Sid.reset.volSmooth = ((Sid.reset.volume).toNat : Rat) ∧
    (chip [(0x18, 0x0F)]).volSmooth ≤ (((chip [(0x18, 0x0F)]).volume).toNat : Rat) ∧
    ((Sid.reset.volume).toNat : Rat) ≤ ({ Sid.reset with volSmooth := 15 } : Sid).volSmooth := by decide +kernel

/-- Reset, advanced, is silent; its filter state is 0 and its volume state the register's. -/
theorem witness_Silence :
    (∀ c : Fin 3, (sidAdvance Config.reference 5 Sid.reset).1.ch[c].envLevel = 0) ∧
    Config.reference.filter = .standard ∧ Config.reference.quantise = .standard ∧ Sid.reset.lp = 0 ∧
    Sid.reset.bp = 0 ∧ Sid.reset.volSmooth = ((Sid.reset.volume).toNat : Rat) :=
  ⟨by decide, rfl, rfl, rfl, rfl, by decide +kernel⟩

/-- The counts of the pairs and the samples a step reports. -/
def soundReport (s : State) : Option (Nat × Nat) :=
  match step s with
  | .next t => some (t.pairs.length, t.samples.length)
  | .fault _ => none
  | .refused _ => none

/-- 70 R475: a round with an advance before the instruction, an output at once and two samples asked for reports
two pairs and three samples. -/
theorem test_sound_reports :
    soundReport { loadZero with pending := [[.output none, .advance 3, .sample none, .sample (some (3, 4))]] } =
      some (2, 3) := by decide

/-- 20 R80: the oracle's answer and new state are what the read and the write leave; RAM is not touched. -/
theorem test_bus_oracle :
    (let s : State := { loadZero with cfg := { Config.reference with map := BusMap.oracle } }
     (busRead 0x1000 s).1 = (Config.extRead 0 0x1000).1 ∧ (busRead 0x1000 s).2.ext = (Config.extRead 0 0x1000).2 ∧
     (busWrite 0x1000 5 s).ext = Config.extWrite 0 0x1000 5 ∧ (busWrite 0x1000 5 s).mem = s.mem) :=
  ⟨rfl, rfl, rfl, rfl⟩

theorem witness_FilterAndMix : Config.reference.filter = .standard ∧ Config.reference.quantise = .standard := by
  decide

/-- The codes the rules list: the first and the last of each. -/
theorem witness_codes :
    (0x02 : Byte) ∈ jamCodes ∧ (0xF2 : Byte) ∈ jamCodes ∧ (0x1A : Byte) ∈ nopImpliedCodes ∧
    (0xFA : Byte) ∈ nopImpliedCodes ∧ (0xE2 : Byte) ∈ nopImmCodes ∧ (0x0B : Byte) ∈ ancCodes := by decide

/-! ## The host's two questions -/

/-- The host's placing of a word runs it as the next instruction, from reset. -/
theorem test_withFetchWord :
    decodeTableWord 16 0x80A9 = some (.lda (.imm 0x80)) ∧
    (match step (State.reset.withFetchWord 16 0x80A9) with
      | .next t => some (t.a, t.pc)
      | .fault _ => none
      | .refused _ => none) = some (0x80, 0x1002) := by decide

/-- The table of 00 R5, to the letter where it gives values. -/
theorem test_parameter_table :
    (Config.standard.stackBase, Config.standard.nmiVector, Config.standard.irqVector) = (0x0100, 0xFFFA, 0xFFFE) ∧
    (Config.standard.irqPushIForced, Config.standard.jmpIndPageWrap, Config.standard.unstableAdmitted,
      Config.standard.envZeroOnGate, Config.standard.rasterAckNeedsOne) = (false, true, false, false, false) ∧
    (Config.standard.phaseBits, Config.standard.waveBits, Config.standard.noiseClkBit) = (24, 12, 20) := by decide

end Sys2Proof.Tests
end

section
/-! PROOFS. The state and its registers (spec/10_state.md): what reset leaves (O9, O10). -/

namespace Sys2Proof.Machine

open Sys2Proof

/-! ## Reset (10 R62 to R64) -/

theorem Sid.reset_regs (o : Fin 25) : Sid.reset.regs[o] = 0 := by simp [Sid.reset]

theorem Sid.reset_ch (c : Fin 3) : Sid.reset.ch[c] = Channel.reset := by simp [Sid.reset]

/-- Reset writes the three components and the configuration; the bus and what stands outside are not touched. -/
theorem hostReset_noAccess (cfg : Config) (entry : Addr) (s : State) : NoAccess s (s.hostReset cfg entry) :=
  ⟨rfl, rfl, rfl⟩

/-- Of the eight flags the default `P_RESET` sets `I` alone (10 R31). -/
theorem flag_pReset_standard (f : Flag) : flag Config.standard.pReset f = true ↔ f = .i := by
  cases f <;> decide

/-- The channel that reset leaves is released and frozen at level 0, its noise register not 0. -/
theorem Channel.reset_ok : ChannelOk Channel.reset where
  noise := by decide
  sustain := rfl
  attack h := by simp [Channel.reset] at h
  frozen _ := rfl

/-- Settles O9: reset writes each field of the three components and no other. -/
theorem resetLeaves : Obligations.ResetLeaves := by
  refine ⟨?_, rfl, rfl, rfl, rfl, flag_pReset_standard,
    fun cfg entry s => ⟨rfl, rfl, rfl, hostReset_noAccess cfg entry s, rfl⟩⟩
  rintro cfg entry s t rfl
  have channel (c : Fin 3) : (s.hostReset cfg entry).sid.ch[c] = Channel.reset := Sid.reset_ch c
  refine ⟨rfl, rfl, rfl, rfl, rfl, rfl, rfl, rfl, rfl, Sid.reset_regs, fun c => ?_, rfl, rfl, rfl, rfl, rfl, rfl,
    rfl, rfl, rfl, rfl, rfl, rfl⟩
  rw [channel c]
  exact ⟨rfl, rfl, rfl, rfl, rfl, rfl, rfl, rfl, rfl, rfl, rfl, rfl⟩

/-- Settles O10: each clause of the invariant at the values reset gives. -/
theorem invariantAtReset : Obligations.InvariantAtReset where
  memory := Memory.wf_reset
  channels c := (Sid.reset_ch c).symm ▸ Channel.reset_ok
  ring := by decide
  sync := by decide
  volume := ⟨le_refl 0, by decide⟩
  request := rfl
  timer _ := by decide

end Sys2Proof.Machine
end

section
/-! PROOFS. The four raster bytes (O16): what a register address answers and takes, then the bytes bit by bit. -/

namespace Sys2Proof.Machine

open Sys2Proof

/-! ## What stands at a raster address (20 R89) -/

theorem stored_rasterControl {s : State} {a : Addr} (h : s.target a = .rasterControl) :
    s.stored a = some s.raster.readControl := by simp [State.stored, h]

theorem stored_rasterRow {s : State} {a : Addr} (h : s.target a = .rasterRow) :
    s.stored a = some s.raster.readRow := by simp [State.stored, h]

theorem stored_rasterFlag {s : State} {a : Addr} (h : s.target a = .rasterFlag) :
    s.stored a = some s.raster.readFlag := by simp [State.stored, h]

theorem stored_rasterEnable {s : State} {a : Addr} (h : s.target a = .rasterEnable) :
    s.stored a = some s.raster.enable := by simp [State.stored, h]

/-! ## The bytes, bit by bit (10 R55 to R58) -/

/-- Below the width of `y`, a bit of `x ++ y` is one of `y`. -/
theorem getLsbD_append_low {m n i : Nat} (x : BitVec m) (y : BitVec n) (h : i < n) :
    (x ++ y).getLsbD i = y.getLsbD i := by simp [BitVec.getLsbD_append, h]

/-- From the width of `y` up, a bit of `x ++ y` is one of `x`. -/
theorem getLsbD_append_high {m n i : Nat} (x : BitVec m) (y : BitVec n) (h : n ≤ i) :
    (x ++ y).getLsbD i = x.getLsbD (i - n) := by simp [BitVec.getLsbD_append, Nat.not_lt.mpr h]

/-- R55: bit 7 of the control/status byte is the row's bit 8. -/
theorem Raster.readControl_bit7 (r : Raster) : r.readControl.getLsbD 7 = r.row.getLsbD 8 :=
  (getLsbD_append_high _ r.ctrlLow (le_refl 7)).trans (by simp)

/-- R55: the other seven bits are those last written. -/
theorem Raster.readControl_low (r : Raster) {i : Nat} (h : i < 7) :
    r.readControl.getLsbD i = r.ctrlLow.getLsbD i :=
  getLsbD_append_low _ r.ctrlLow h

theorem Raster.readRow_bit (r : Raster) {i : Nat} (h : i < 8) : r.readRow.getLsbD i = r.row.getLsbD i := by
  simp [Raster.readRow, h]

theorem Raster.readFlag_bit7 (r : Raster) : r.readFlag.getLsbD 7 = r.irq :=
  (getLsbD_append_high _ (BitVec.ofBool r.matched) (by decide)).trans
    ((getLsbD_append_high _ (0#6) (le_refl 6)).trans (by simp))

theorem Raster.readFlag_bit0 (r : Raster) : r.readFlag.getLsbD 0 = r.matched :=
  (getLsbD_append_low _ (BitVec.ofBool r.matched) Nat.one_pos).trans (by simp)

/-- R57: the six bits between read as 0. -/
theorem Raster.readFlag_middle (r : Raster) {i : Nat} (h1 : 1 ≤ i) (h7 : i < 7) :
    r.readFlag.getLsbD i = false :=
  (getLsbD_append_high _ (BitVec.ofBool r.matched) h1).trans
    ((getLsbD_append_low _ (0#6) (by omega)).trans (by simp))

/-- R55: a write of the control/status byte gives the compare row its bit 8. -/
theorem Raster.writeControl_cmp_bit8 (v : Byte) (r : Raster) :
    (r.writeControl v).cmp.getLsbD 8 = v.getLsbD 7 :=
  (getLsbD_append_high _ (r.cmp.extractLsb' 0 8) (le_refl 8)).trans (by simp)

theorem Raster.writeControl_cmp_low (v : Byte) (r : Raster) {i : Nat} (h : i < 8) :
    (r.writeControl v).cmp.getLsbD i = r.cmp.getLsbD i :=
  (getLsbD_append_low _ (r.cmp.extractLsb' 0 8) h).trans (by simp [h])

theorem Raster.writeControl_ctrlLow (v : Byte) (r : Raster) {i : Nat} (h : i < 7) :
    (r.writeControl v).ctrlLow.getLsbD i = v.getLsbD i := by
  simp [Raster.writeControl, h]

/-- R56: a write of the row byte leaves the compare row's bit 8. -/
theorem Raster.writeRow_cmp_bit8 (v : Byte) (r : Raster) :
    (r.writeRow v).cmp.getLsbD 8 = r.cmp.getLsbD 8 :=
  (getLsbD_append_high _ v (le_refl 8)).trans (by simp)

theorem Raster.writeRow_cmp_low (v : Byte) (r : Raster) {i : Nat} (h : i < 8) :
    (r.writeRow v).cmp.getLsbD i = v.getLsbD i :=
  getLsbD_append_low _ v h

/-- When a write of the flag byte acknowledges (60 R443). -/
theorem acknowledge_guard (cfg : Config) (v : Byte) :
    (cfg.realHwMode && (!cfg.rasterAckNeedsOne || v.getLsbD 0)) = true ↔
      cfg.realHwMode = true ∧ (cfg.rasterAckNeedsOne = false ∨ v.getLsbD 0 = true) := by
  simp

theorem Raster.acknowledge_of {cfg : Config} {v : Byte} (r : Raster)
    (h : cfg.realHwMode = true ∧ (cfg.rasterAckNeedsOne = false ∨ v.getLsbD 0 = true)) :
    r.acknowledge cfg v = { r with matched := false, irq := false } :=
  if_pos ((acknowledge_guard cfg v).mpr h)

theorem Raster.acknowledge_of_not {cfg : Config} {v : Byte} (r : Raster)
    (h : ¬ (cfg.realHwMode = true ∧ (cfg.rasterAckNeedsOne = false ∨ v.getLsbD 0 = true))) :
    r.acknowledge cfg v = r :=
  if_neg fun g => h ((acknowledge_guard cfg v).mp g)

/-- A bus write at an address with target `w` is the timer's write at `w`. -/
theorem busWrite_raster_of_target {s : State} {a : Addr} {w : Target} (v : Byte) (h : s.target a = w) :
    (busWrite a v s).raster = s.raster.write s.cfg w v := by
  rw [busWrite_raster, h]

/-- Settles O16: the read and the write of each register, bit by bit. -/
theorem rasterBytes : Obligations.RasterBytes := by
  intro s a v
  refine ⟨fun h => ?control, fun h => ?row, fun h => ?flag, fun h => ?enable⟩
  case control =>
    exact ⟨⟨_, stored_rasterControl h, s.raster.readControl_bit7, fun _ => s.raster.readControl_low⟩,
      s.raster.writeControl v, busWrite_raster_of_target v h, Raster.writeControl_cmp_bit8 v _,
      fun _ => Raster.writeControl_cmp_low v _, fun _ => Raster.writeControl_ctrlLow v _, rfl, rfl, rfl, rfl, rfl⟩
  case row =>
    exact ⟨⟨_, stored_rasterRow h, fun _ => s.raster.readRow_bit⟩,
      s.raster.writeRow v, busWrite_raster_of_target v h, Raster.writeRow_cmp_bit8 v _,
      fun _ => Raster.writeRow_cmp_low v _, rfl, rfl, rfl, rfl, rfl, rfl⟩
  case flag =>
    have hw : (busWrite a v s).raster = s.raster.acknowledge s.cfg v := busWrite_raster_of_target v h
    exact ⟨⟨_, stored_rasterFlag h, s.raster.readFlag_bit7, s.raster.readFlag_bit0,
      fun _ => s.raster.readFlag_middle⟩,
      fun ack => hw.trans (s.raster.acknowledge_of ack),
      fun ack => hw.trans (s.raster.acknowledge_of_not ack)⟩
  case enable => exact ⟨stored_rasterEnable h, busWrite_raster_of_target v h⟩

end Sys2Proof.Machine
end

section
/-! PROOFS. The sound chip's register surface and its fields (O17). -/

namespace Sys2Proof.Machine

open Sys2Proof

/-! ## The register surface (10 R39, R48, R49) -/

theorem Sid.read_of_lt (t : Sid) {o : BitVec 5} (h : o.toNat < 25) : t.read o = some t.regs[o.toNat] :=
  dif_pos h

theorem Sid.read_osc3 (t : Sid) : t.read 0x1B = some ((t.ch[2].waveOut >>> 4).setWidth 8) := by
  have hs : t.osc3 = (t.ch[2].waveOut >>> 4).setWidth 8 := by
    apply BitVec.eq_of_getLsbD_eq
    intro i hi
    simp [Sid.osc3, hi]
  simp [Sid.read, hs]

theorem Sid.read_env3 (t : Sid) : t.read 0x1C = some t.ch[2].envLevel := by simp [Sid.read, Sid.env3]

/-- The unassigned offsets (R49). -/
theorem Sid.read_unassigned (t : Sid) {o : BitVec 5} (h : o ∈ [0x19, 0x1A, 0x1D, 0x1E, 0x1F]) :
    t.read o = none := by
  simp only [List.mem_cons, List.not_mem_nil, or_false] at h
  rcases h with rfl | rfl | rfl | rfl | rfl <;> simp [Sid.read]

theorem Sid.read_write_same (t : Sid) {o : BitVec 5} (h : o.toNat < 25) (v : Byte) :
    (t.write o v).read o = some v := by
  simp [Sid.read_of_lt _ h, Sid.write, h]

theorem Sid.write_regs (t : Sid) {o : BitVec 5} (h : o.toNat < 25) (v : Byte) (k : Fin 25) :
    (t.write o v).regs[k] = if k.val = o.toNat then v else t.regs[k] := by
  simp [Sid.write, h, Vector.getElem_set, eq_comm]

/-- OSC3, ENV3 and the unassigned offsets ignore a write. -/
theorem Sid.write_of_ge (t : Sid) {o : BitVec 5} (h : 25 ≤ o.toNat) (v : Byte) : t.write o v = t :=
  dif_neg (Nat.not_lt.mpr h)

theorem stored_sid {s : State} {a : Addr} {o : BitVec 5} (h : s.target a = .sid o) :
    s.stored a = s.sid.read o := by simp [State.stored, h]

theorem busWrite_sid_of_target {s : State} {a : Addr} {o : BitVec 5} (v : Byte) (h : s.target a = .sid o) :
    (busWrite a v s).sid = s.sid.write o v := by
  rw [busWrite_sid, h]
  rfl

/-- A bus write does not move the address map. -/
theorem busWrite_target (a b : Addr) (v : Byte) (s : State) : (busWrite a v s).target b = s.target b := rfl

/-! ## The fields as numbers (10 R40 to R47) -/

theorem Sid.toNat_freq (t : Sid) (c : Fin 3) :
    (t.freq c).toNat = 256 * t.regs[7 * c.val + 1].toNat + t.regs[7 * c.val].toNat :=
  toNat_joinBytes _ _

theorem Sid.toNat_pulseWidth (t : Sid) (c : Fin 3) :
    (t.pulseWidth c).toNat = 256 * (t.regs[7 * c.val + 3].toNat % 16) + t.regs[7 * c.val + 2].toNat := by
  rw [← toNat_loNibble]
  exact toNat_append_eq _ _

/-- The nibble in both halves of a byte is the nibble times 17 (10 R44). -/
theorem Sid.toNat_sustainLevel (t : Sid) (c : Fin 3) :
    (t.sustainLevel c).toNat = 17 * (t.regs[7 * c.val + 6].toNat / 16) := by
  have h : (t.sustainLevel c).toNat =
      2 ^ 4 * (hiNibble (t.sustainRelease c)).toNat + (hiNibble (t.sustainRelease c)).toNat := toNat_append_eq _ _
  rw [h, toNat_hiNibble]
  change 2 ^ 4 * (t.regs[7 * c.val + 6].toNat / 16) + t.regs[7 * c.val + 6].toNat / 16 = _
  omega

theorem Sid.toNat_cutoff (t : Sid) : t.cutoff.toNat = 8 * t.regs[0x16].toNat + t.regs[0x15].toNat % 8 :=
  (toNat_append_eq _ _).trans (by simp [BitVec.extractLsb'_toNat])

/-- Settles O17: the surface from what a read and a write of an offset do, the fields from their numbers. -/
theorem soundRegisters : Obligations.SoundRegisters := by
  refine ⟨fun s a v o h => ?surface, fun t c => ?fields⟩
  case surface =>
    have hread : s.stored a = s.sid.read o := stored_sid h
    have hwrite : (busWrite a v s).sid = s.sid.write o v := busWrite_sid_of_target v h
    have hback : (busWrite a v s).stored a = (s.sid.write o v).read o := by
      rw [stored_sid ((busWrite_target a a v s).trans h), hwrite]
    obtain ⟨hch, hlp, hbp, hvol, hsync, hring⟩ := Sid.busWrite_kept (s.target a) v s.sid
    refine ⟨fun ho => ⟨?_, ?_, fun k => ?_⟩, ?_, ?_, fun ho => ?_, fun ho => ?_, hch, hlp, hbp, hvol, hsync, hring,
      ?_, ?_, ?_⟩
    · exact hread.trans (s.sid.read_of_lt ho)
    · exact hback.trans (s.sid.read_write_same ho v)
    · rw [hwrite]
      exact s.sid.write_regs ho v k
    · rintro rfl
      exact hread.trans s.sid.read_osc3
    · rintro rfl
      exact hread.trans s.sid.read_env3
    · exact hread.trans (s.sid.read_unassigned ho)
    · exact hwrite.trans (s.sid.write_of_ge ho v)
    · simp [h]
    · rw [busWrite_raster, h]
      rfl
    · exact ⟨by simp [h], rfl⟩
  case fields =>
    exact ⟨t.toNat_freq c, t.toNat_pulseWidth c, rfl, rfl, rfl, rfl, toNat_hiNibble _, rfl,
      t.toNat_sustainLevel c, t.toNat_cutoff, toNat_hiNibble _, rfl, toNat_loNibble _⟩

end Sys2Proof.Machine
end

section
/-! PROOFS. Which flags an instruction may change (10 R26 to R33): a table, once for all instructions, and from it
the statement about V, U, B, D and I (O41). -/

namespace Sys2Proof.Machine

open Sys2Proof

/-- The flags an instruction may change (10 R26 to R33); no other flag does (`exec_flagsKept`). -/
def flagsWritten : Instr → List Flag
  | .plp | .rti => [.n, .v, .u, .b, .d, .i, .z, .c]
  | .adc _ | .sbc _ | .sbcEB _ | .rra _ | .isc _ | .arr _ => [.n, .v, .z, .c]
  | .bit _ => [.n, .v, .z]
  | .clv => [.v]
  | .sed | .cld => [.d]
  | .sei | .cli | .brk => [.i]
  | .sec | .clc => [.c]
  | .cmp _ | .cpx _ | .cpy _ | .dcp _ | .asl _ | .lsr _ | .rol _ | .ror _ | .slo _ | .rla _ | .sre _ | .anc _ _
  | .alr _ | .sbx _ => [.n, .z, .c]
  | .lda _ | .ldx _ | .ldy _ | .lax _ | .las _ | .tax | .tay | .txa | .tya | .tsx | .ora _ | .and _ | .eor _
  | .inc _ | .dec _ | .inx | .iny | .dex | .dey | .pla | .ane _ | .lxa _ => [.n, .z]
  | .sta _ | .stx _ | .sty _ | .sax _ | .sha _ | .shx _ | .shy _ | .tas _ | .txs | .pha | .php | .nop
  | .nopImplied _ | .nopImm _ _ | .nopMem _ _ | .jam _ | .bpl _ | .bmi _ | .bvc _ | .bvs _ | .bcc _ | .bcs _
  | .bne _ | .beq _ | .jmp _ | .jmpInd _ | .jsr _ | .rts => []

/-! ## Flag frames -/

theorem FlagsKept.of_p {w : List Flag} {s t : State} (h : t.p = s.p) : FlagsKept w s t := fun f _ => by rw [h]

/-- All eight flags listed: nothing is claimed. -/
theorem FlagsKept.all (s t : State) : FlagsKept [.n, .v, .u, .b, .d, .i, .z, .c] s t := by
  intro f hf
  cases f <;> simp at hf

theorem setFlag_flagsKept (f : Flag) (v : Bool) (s : State) :
    FlagsKept [f] s { s with p := setFlag s.p f v } :=
  fun g hg => (flag_setFlag s.p f g v).trans (if_neg (by simpa using hg))

theorem FlagsKept.setNZ {s t : State} {v : Byte} (h : t.p = setNZ v s.p) : FlagsKept [.n, .z] s t := by
  intro g hg
  simp only [List.mem_cons, List.not_mem_nil, or_false, not_or] at hg
  simp [h, hg]

/-- `N`, `Z` from a value and the carry from another bit, as the shifts and most undocumented instructions do. -/
theorem FlagsKept.setNZ_carry {s t : State} {v : Byte} {k : Bool} (h : t.p = Machine.setNZ v (Machine.setFlag s.p .c k)) :
    FlagsKept [.n, .z, .c] s t := by
  intro g hg
  simp only [List.mem_cons, List.not_mem_nil, or_false, not_or] at hg
  simp [h, hg]

theorem FlagsKept.compare {s t : State} {r m : Byte} (h : t.p = compare r m s.p) : FlagsKept [.n, .z, .c] s t := by
  intro g hg
  simp only [List.mem_cons, List.not_mem_nil, or_false, not_or] at hg
  simp [h, hg]

/-! ## What each shape of instruction keeps -/

theorem readWith_flagsKept {w : List Flag} {f : Byte → State → State} (hf : ∀ m u, FlagsKept w u (f m u))
    (o : Operand) (s : State) : FlagsKept w s (readWith o f s) := by
  intro g hg
  rw [readWith_next, State.finish_p, hf _ _ g hg, load_p]

theorem rmwWith_flagsKept {w : List Flag} {f : Byte → State → Byte × State}
    (hf : ∀ m u, FlagsKept w u (f m u).2) (o : Operand) (s : State) : FlagsKept w s (rmwWith o f s) := by
  intro g hg
  rw [rmwWith_next, State.finish_p, busWrite_p, hf _ _ g hg, busRead_p, locate_p]

theorem shiftWith_flagsKept {w : List Flag} {f : Byte → Byte → Byte × Byte}
    (hf : ∀ v p g, g ∉ w → flag (f v p).2 g = flag p g) (o : ShiftOperand) (s : State) :
    FlagsKept w s (shiftWith o f s) := by
  cases o with
  | acc => exact fun g hg => hf s.a s.p g hg
  | mem o => exact rmwWith_flagsKept (fun m u g hg => hf m u.p g hg) o s

theorem storeWith_p (o : Operand) (f : State → Byte) (s : State) : (storeWith o f s).p = s.p := by
  rw [storeWith_next, State.finish_p, busWrite_p, locate_p]

theorem unstableStore_p (o : Operand) (reg : State → Byte) (s : State) : (unstableStore o reg s).p = s.p := by
  simp [unstableStore]

theorem branch_p (taken : Bool) (d : Byte) (s : State) : (branch taken d s).p = s.p := by
  cases taken <;> rfl

theorem implied_flagsKept {w : List Flag} {g : State → State} {s : State} (h : FlagsKept w s (g s)) :
    FlagsKept w s (implied g s) := h

theorem spend_flagsKept {w : List Flag} {s t : State} (n : Nat) (h : FlagsKept w s t) :
    FlagsKept w s (t.spend n) := h

theorem takeException_flagsKept (ret : Addr) (status : Byte) (vector : Addr) (s : State) :
    FlagsKept [.i] s (takeException ret status vector s) := (takeException_entered ret status vector s).flags

theorem pushAddr_p (v : Addr) (s : State) : (pushAddr v s).p = s.p := by rw [pushAddr_eq]; rfl

theorem addA_flagsKept (m : Byte) (s : State) : FlagsKept [.n, .v, .z, .c] s (s.addA m) :=
  fun _ hg => flag_adc_kept s.cfg s.a m s.p hg

theorem subA_flagsKept (m : Byte) (s : State) : FlagsKept [.n, .v, .z, .c] s (s.subA m) :=
  fun _ hg => flag_sbc_kept s.cfg s.a m s.p hg

/-- An instruction refused unless `c` holds, which answered a next state, answered the one of the other branch. -/
theorem next_of_guarded {c : Prop} [Decidable c] {t u : State} {r : Refusal}
    (h : (if c then .next u else .refused r : Host.Outcome State Fault Refusal) = .next t) : t = u := by
  split at h
  · injection h with h
    exact h.symm
  · cases h

/-- Likewise for an instruction refused when `c` holds. -/
theorem next_of_refused_if {c : Prop} [Decidable c] {t u : State} {r : Refusal}
    (h : (if c then .refused r else .next u : Host.Outcome State Fault Refusal) = .next t) : t = u := by
  split at h
  · cases h
  · injection h with h
    exact h.symm

/-- An instruction changes no flag that `flagsWritten` does not list. -/
theorem exec_flagsKept (i : Instr) (s t : State) (h : exec i s = .next t) : FlagsKept (flagsWritten i) s t := by
  cases i with
  | plp | rti => exact FlagsKept.all s t
  | adc _ =>
    injection h with h
    subst h
    exact readWith_flagsKept addA_flagsKept _ _
  | sbc _ | sbcEB _ =>
    injection h with h
    subst h
    exact readWith_flagsKept subA_flagsKept _ _
  | isc _ =>
    injection h with h
    subst h
    refine rmwWith_flagsKept (fun m u => ?_) _ _
    dsimp only
    exact subA_flagsKept (m + 1) u
  | rra _ =>
    injection h with h
    subst h
    refine rmwWith_flagsKept (fun m u g hg => ?_) _ _
    have hc : g ≠ .c := by rintro rfl; simp [flagsWritten] at hg
    exact (addA_flagsKept _ _ g hg).trans ((flag_setFlag _ _ _ _).trans (if_neg hc))
  | arr m =>
    obtain rfl := next_of_refused_if h
    refine readWith_flagsKept (fun m u g hg => ?_) _ _
    simp only [flagsWritten, List.mem_cons, List.not_mem_nil, or_false, not_or] at hg
    simp [hg]
  | bit _ | anc _ _ | alr _ =>
    injection h with h
    subst h
    refine readWith_flagsKept (fun m u g hg => ?_) _ _
    simp only [flagsWritten, List.mem_cons, List.not_mem_nil, or_false, not_or] at hg
    simp [hg]
  | asl _ | lsr _ | rol _ | ror _ =>
    injection h with h
    subst h
    refine shiftWith_flagsKept (fun v p g hg => ?_) _ _
    simp only [flagsWritten, List.mem_cons, List.not_mem_nil, or_false, not_or] at hg
    simp [hg]
  | clv | sed | cld | sei | cli | sec | clc =>
    injection h with h
    subst h
    exact implied_flagsKept (setFlag_flagsKept _ _ s)
  | brk =>
    injection h with h
    subst h
    exact spend_flagsKept 7 (takeException_flagsKept _ _ _ _)
  | cmp _ | cpx _ | cpy _ =>
    injection h with h
    subst h
    exact readWith_flagsKept (fun _ _ => .compare rfl) _ _
  | dcp _ =>
    injection h with h
    subst h
    exact rmwWith_flagsKept (fun _ _ => .compare rfl) _ _
  | slo _ | rla _ | sre _ =>
    injection h with h
    subst h
    exact rmwWith_flagsKept (fun _ _ => .setNZ_carry rfl) _ _
  | sbx _ =>
    injection h with h
    subst h
    exact readWith_flagsKept (fun _ _ => .setNZ_carry rfl) _ _
  | lda _ | ldx _ | ldy _ | lax _ | las _ | ora _ | and _ | eor _ =>
    injection h with h
    subst h
    exact readWith_flagsKept (fun _ _ => .setNZ rfl) _ _
  | inc _ | dec _ =>
    injection h with h
    subst h
    exact rmwWith_flagsKept (fun _ _ => .setNZ rfl) _ _
  | tax | tay | txa | tya | tsx | inx | iny | dex | dey | pla =>
    injection h with h
    subst h
    exact .setNZ rfl
  | ane _ | lxa _ =>
    obtain rfl := next_of_guarded h
    exact readWith_flagsKept (fun _ _ => .setNZ rfl) _ _
  | sta _ | stx _ | sty _ | sax _ =>
    injection h with h
    subst h
    exact .of_p (storeWith_p _ _ _)
  | sha _ | shx _ | shy _ | tas _ =>
    obtain rfl := next_of_guarded h
    exact .of_p (unstableStore_p _ _ _)
  | bpl _ | bmi _ | bvc _ | bvs _ | bcc _ | bcs _ | bne _ | beq _ =>
    injection h with h
    subst h
    exact .of_p (branch_p _ _ _)
  | rts =>
    simp only [exec, execRts] at h
    split at h <;> simp only [Host.Outcome.next.injEq] at h <;> subst h <;> exact .of_p rfl
  | nopImm _ _ | nopMem _ _ =>
    injection h with h
    subst h
    exact readWith_flagsKept (fun _ _ => .of_p rfl) _ _
  | jsr _ =>
    injection h with h
    subst h
    refine .of_p ?_
    rw [State.spend_p, pushAddr_p]
  | txs | pha | php | nop | nopImplied _ | jam _ | jmp _ | jmpInd _ =>
    injection h with h
    subst h
    exact .of_p rfl

/-- A flag that changed is one the instruction writes. -/
theorem mem_flagsWritten_of_ne {i : Instr} {s t : State} (h : exec i s = .next t) {f : Flag}
    (hf : flag t.p f ≠ flag s.p f) : f ∈ flagsWritten i :=
  by_contra fun hn => hf (exec_flagsKept i s t h f hn)

/-! ## Who writes V, U, B, D and I (10 R27 to R31) -/

theorem v_mem_flagsWritten {i : Instr} (h : .v ∈ flagsWritten i) :
    (∃ o, i = .adc o ∨ i = .sbc o ∨ i = .rra o ∨ i = .isc o ∨ i = .bit o) ∨
      (∃ m, i = .sbcEB m ∨ i = .arr m) ∨ i = .clv ∨ i = .plp ∨ i = .rti := by
  cases i <;> simp [flagsWritten] at h ⊢

theorem u_mem_flagsWritten {i : Instr} (h : .u ∈ flagsWritten i) : i = .plp ∨ i = .rti := by
  cases i <;> simp [flagsWritten] at h ⊢

theorem b_mem_flagsWritten {i : Instr} (h : .b ∈ flagsWritten i) : i = .plp ∨ i = .rti := by
  cases i <;> simp [flagsWritten] at h ⊢

theorem d_mem_flagsWritten {i : Instr} (h : .d ∈ flagsWritten i) :
    i = .sed ∨ i = .cld ∨ i = .plp ∨ i = .rti := by
  cases i <;> simp [flagsWritten] at h ⊢

theorem i_mem_flagsWritten {i : Instr} (h : .i ∈ flagsWritten i) :
    i = .sei ∨ i = .cli ∨ i = .brk ∨ i = .plp ∨ i = .rti := by
  cases i <;> simp [flagsWritten] at h ⊢

/-- Settles O41: a flag that changed is in the instruction's table, and the table says which instructions list it. -/
theorem flagWriters : Obligations.FlagWriters := by
  intro i s t h
  refine ⟨fun hv => ?_, fun hub => ?_, fun hd => ?_, fun hi => ?_⟩
  · exact v_mem_flagsWritten (mem_flagsWritten_of_ne h hv)
  · rcases hub with hu | hb
    · exact u_mem_flagsWritten (mem_flagsWritten_of_ne h hu)
    · exact b_mem_flagsWritten (mem_flagsWritten_of_ne h hb)
  · exact d_mem_flagsWritten (mem_flagsWritten_of_ne h hd)
  · exact i_mem_flagsWritten (mem_flagsWritten_of_ne h hi)

end Sys2Proof.Machine
end

section
/-! PROOFS. Memory and the bus (spec/20_memory.md): the laws of the canonical form (O13), what a bus write stores
and leaves (O14), what a bus read returns and leaves (O15). -/

namespace Sys2Proof.Machine

open Sys2Proof

/-- Settles O13: the write law, the frame, the kept form and extensionality of canonical cell lists. -/
theorem memoryLaws : Obligations.MemoryLaws :=
  ⟨fun m _ _ v hm => ⟨Memory.read_write_same _ v hm, fun hb => Memory.read_write_ne hb v m, Memory.wf_write _ v hm⟩,
    fun _ _ => Memory.ext_of_read⟩

/-! ## What stands at an address that is not a device's -/

theorem stored_ram {s : State} {a : Addr} (h : s.target a = .ram) : s.stored a = some (s.mem.read a) := by
  simp [State.stored, h]

/-- Of what the oracle answers nothing is known beforehand. -/
theorem stored_external {s : State} {a : Addr} (h : s.target a = .external) : s.stored a = none := by
  simp [State.stored, h]

theorem target_ne_external_of_stored {s : State} {a : Addr} {v : Byte} (h : s.stored a = some v) :
    s.target a ≠ .external := fun he => by simp [stored_external he] at h

/-! ## A bus write (20 R92) -/

theorem busWrite_regsKept (a : Addr) (v : Byte) (s : State) : RegsKept [] s (busWrite a v s) :=
  fun r _ => by cases r <;> rfl

theorem busWrite_stored_ram {s : State} {a : Addr} (v : Byte) (hw : s.mem.wf = true) (h : s.target a = .ram) :
    (busWrite a v s).stored a = some v := by
  rw [stored_ram ((busWrite_target a a v s).trans h), busWrite_read_same v hw h]

/-- Settles O14: one byte stored at the target, the oracle moved at an external address alone. -/
theorem busWriteStoresOneByte : Obligations.BusWriteStoresOneByte := by
  intro a v s
  refine ⟨busWrite_storedAt a v s, busWrite_bus a v s, busWrite_pc a v s, busWrite_p a v s,
    busWrite_regsKept a v s, busWrite_rest a v s, busWrite_draws a v s, fun he => ?_, fun he => ?_,
    busWrite_stored_ram v⟩
  · rw [busWrite_ext, if_pos he]
  · rw [busWrite_ext, if_neg he]

/-! ## A bus read (20 R80, R85), by what answers -/

theorem busRead_value (a : Addr) (s : State) : (busRead a s).1 = (s.stored a).getD (s.unknown a) := rfl

theorem busRead_regsKept (a : Addr) (s : State) : RegsKept [] s (busRead a s).2 :=
  fun r _ => by cases r <;> rfl

/-- A known byte is returned, and no one outside the core is asked. -/
theorem busRead_of_stored {s : State} {a : Addr} {v : Byte} (h : s.stored a = some v) :
    (busRead a s).1 = v ∧ OutsideIs s (busRead a s).2 := by
  refine ⟨?_, ?_, ?_⟩
  · rw [busRead_value, h, Option.getD_some]
  · rw [busRead_ext, if_neg (target_ne_external_of_stored h)]
  · simp [h]

/-- The oracle's answer moves the oracle and is not a draw. -/
theorem busRead_of_external {s : State} {a : Addr} (h : s.target a = .external) :
    (busRead a s).1 = (Config.extRead s.ext a).1 ∧ (busRead a s).2.ext = (Config.extRead s.ext a).2 ∧
      (busRead a s).2.draws = s.draws := by
  refine ⟨?_, ?_, ?_⟩
  · rw [busRead_value, stored_external h, Option.getD_none, State.unknown, if_pos h]
  · rw [busRead_ext, if_pos h]
  · simp [h]

/-- At an unassigned sound-chip offset (10 R49) the byte is the next draw, and the oracle stays. -/
theorem busRead_of_unassigned {s : State} {a : Addr} (h : s.stored a = none) (he : s.target a ≠ .external) :
    (busRead a s).1 = Config.draw s.draws ∧ (busRead a s).2.draws = s.draws + 1 ∧
      (busRead a s).2.ext = s.ext := by
  refine ⟨?_, ?_, ?_⟩
  · rw [busRead_value, h, Option.getD_none, State.unknown, if_neg he]
  · simp [h, he]
  · rw [busRead_ext, if_neg he]

/-- Settles O15: the three ways a read is answered; the rest is the frame of the read. -/
theorem busReadChangesNothing : Obligations.BusReadChangesNothing := by
  intro a s
  exact ⟨fun _ => busRead_of_stored, fun he => ⟨stored_external he, busRead_of_external he⟩, busRead_of_unassigned,
    busRead_bus a s, (busRead_sameStore a s).nothingStored, busRead_pc a s, busRead_p a s, busRead_regsKept a s,
    busRead_rest a s⟩

end Sys2Proof.Machine
end

section
/-! PROOFS. Encoding (spec/30_encoding.md): the round trip between the matrix of R119 and the bit fields of R112
(O1, O2), the length an opcode byte fixes (O3), words written out (O4), the fetch and the step (O5). -/

namespace Sys2Proof

open Laws

/-! ## A filled cell encodes to and decodes from the same bytes (30 R113, R114) -/

@[simp] theorem Mode.mode_operand (m : Mode) (b1 b2 : Byte) : (m.operand b1 b2).mode = m := by cases m <;> rfl

/-- A mode's operand stands in the first of the two bytes, or in both. -/
theorem Mode.bytes_operand (m : Mode) (b1 b2 : Byte) :
    (m.operand b1 b2).bytes = [b1, b2].take m.operandBytes := by
  cases m <;> simp [Mode.operand, Operand.bytes, Mode.operandBytes]

theorem Operand.exists_operand_mode (o : Operand) : ∃ b1 b2, o.mode.operand b1 b2 = o := by
  cases o with
  | imm b | zp b | zpx b | zpy b | izx b | izy b => exact ⟨b, 0, rfl⟩
  | abs a | abx a | aby a => exact ⟨loByte a, hiByte a, by simp [Mode.operand, Operand.mode]⟩

theorem Template.operandBytes_cases (t : Template) :
    t.operandBytes = 0 ∨ t.operandBytes = 1 ∨ t.operandBytes = 2 := by
  cases t with
  | bare i => exact .inl rfl
  | byte f => exact .inr (.inl rfl)
  | word f => exact .inr (.inr rfl)
  | mem m f | shift m f => cases m <;> simp [Template.operandBytes, Mode.operandBytes]

/-- A cell that encodes to its opcode does so with the bytes that fill it. -/
theorem fill_of_cellEncodes {op : Byte} {t : Template} (h : CellEncodes op t) (b1 b2 : Byte) :
    (t.fill b1 b2).wellFormed = true ∧ encode (t.fill b1 b2) = op :: [b1, b2].take t.operandBytes := by
  cases t with
  | bare i => exact h
  | byte f => exact h b1
  | word f => simpa [Template.fill, Template.operandBytes] using h (joinBytes b2 b1)
  | mem m f | shift m f => simpa [Template.fill, Template.operandBytes, Mode.bytes_operand] using h b1 b2

theorem wellFormed_fill (op b1 b2 : Byte) : ((template op).fill b1 b2).wellFormed = true :=
  (fill_of_cellEncodes (cell_encodes op) b1 b2).1

theorem encode_fill (op b1 b2 : Byte) :
    encode ((template op).fill b1 b2) = op :: [b1, b2].take (template op).operandBytes :=
  (fill_of_cellEncodes (cell_encodes op) b1 b2).2

/-- The opcode byte alone fixes the length (30 R111). -/
theorem length_fill (op b1 b2 : Byte) :
    ((template op).fill b1 b2).length = (template op).operandBytes + 1 := by
  have := (template op).operandBytes_cases
  rw [Instr.length, encode_fill, List.length_cons, List.length_take_of_le]
  simp only [List.length_cons, List.length_nil]
  omega

theorem decode_fill (op b1 b2 : Byte) (rest : List Byte) :
    decode (op :: ([b1, b2].take (template op).operandBytes ++ rest)) = .ok ((template op).fill b1 b2, rest) := by
  cases ht : template op with
  | bare i => exact decode_bare ht rest
  | byte f => exact decode_byte ht b1 rest
  | word f =>
    have h := decode_word ht (joinBytes b2 b1) rest
    rwa [loByte_joinBytes, hiByte_joinBytes] at h
  | mem m f =>
    have h := decode_mem (o := m.operand b1 b2) (ht.trans (by rw [Mode.mode_operand])) rest
    rwa [Mode.bytes_operand] at h
  | shift m f =>
    have h := decode_shift (o := m.operand b1 b2) (ht.trans (by rw [Mode.mode_operand])) rest
    rwa [Mode.bytes_operand] at h

/-! ## Every well-formed instruction is a filled cell (30 R119)

Each lemma asks for the cell at the opcode the encoder gives, so the encoder's bit fields (R112, R115 to R118) meet
the matrix here. -/

/-- The instruction is a cell of the matrix with its operand bytes filled in. -/
def IsFilledCell (i : Instr) : Prop := ∃ op b1 b2 : Byte, (template op).fill b1 b2 = i

/-- The opcode byte the encoder gives an instruction. -/
def opcodeOf (i : Instr) : Byte := (encode i).headI

theorem isFilledCell_bare {i : Instr} (h : template (opcodeOf i) = .bare i) : IsFilledCell i :=
  ⟨opcodeOf i, 0, 0, by rw [h]; rfl⟩

theorem isFilledCell_byte {f : Byte → Instr} (b : Byte) (h : template (opcodeOf (f 0)) = .byte f) :
    IsFilledCell (f b) :=
  ⟨opcodeOf (f 0), b, 0, by rw [h]; rfl⟩

theorem isFilledCell_word {f : Addr → Instr} (a : Addr) (h : template (opcodeOf (f 0)) = .word f) :
    IsFilledCell (f a) :=
  ⟨opcodeOf (f 0), loByte a, hiByte a, by rw [h]; exact congrArg f (joinBytes_hi_lo a)⟩

/-- An entry of a table that was compared as a whole. -/
theorem eq_of_map_eq {α β : Type} [BEq α] [LawfulBEq α] {f g : α → β} {l : List α} (h : l.map f = l.map g)
    {a : α} (ha : l.contains a = true) : f a = g a :=
  List.map_inj_left.mp h a (List.contains_iff_mem.mp ha)

/-- A memory instruction whose rows are its modes. -/
theorem isFilledCell_mem {f : Operand → Instr} {ms : List Mode} {o : Operand} (ho : o.isIn ms = true)
    (h : ms.map (fun m => template (opcodeOf (f (m.operand 0 0)))) = ms.map (fun m => .mem m f)) :
    IsFilledCell (f o) := by
  obtain ⟨b1, b2, hb⟩ := o.exists_operand_mode
  exact ⟨_, b1, b2, by rw [eq_of_map_eq h ho]; exact congrArg f hb⟩

/-- A shift or rotate, in the accumulator or in a mode of the read-modify-write group. -/
theorem isFilledCell_shift {f : ShiftOperand → Instr} {o : ShiftOperand} (ho : o.wellFormed = true)
    (hacc : template (opcodeOf (f .acc)) = .bare (f .acc))
    (hmem : Mode.rmwGroup.map (fun m => template (opcodeOf (f (.mem (m.operand 0 0))))) =
      Mode.rmwGroup.map (fun m => .shift m f)) : IsFilledCell (f o) := by
  cases o with
  | acc => exact isFilledCell_bare hacc
  | mem o =>
    obtain ⟨b1, b2, hb⟩ := o.exists_operand_mode
    exact ⟨_, b1, b2, by rw [eq_of_map_eq hmem ho]; exact congrArg (fun o => f (.mem o)) hb⟩

/-- The memory `NOP`s, whose rows are opcode values listed for each mode (46 R298). -/
theorem isFilledCell_nopMem {code : Byte} {o : Operand} (h : (nopMemCodes o).contains code = true) :
    IsFilledCell (.nopMem code o) := by
  have table : (nopMemCodes o).map template = (nopMemCodes o).map (fun c => .mem o.mode (.nopMem c)) := by
    cases o <;> rfl
  obtain ⟨b1, b2, hb⟩ := o.exists_operand_mode
  exact ⟨code, b1, b2, by rw [eq_of_map_eq table h]; exact congrArg (Instr.nopMem code) hb⟩

theorem isFilledCell_of_wellFormed {i : Instr} (h : i.wellFormed = true) : IsFilledCell i := by
  cases i with
  | lda o | sta o | ora o | and o | eor o | adc o | sbc o | cmp o => exact isFilledCell_mem h rfl
  | ldx o | ldy o | stx o | sty o | cpx o | cpy o | bit o | inc o | dec o => exact isFilledCell_mem h rfl
  | slo o | rla o | sre o | rra o | dcp o | isc o | sax o | lax o | sha o => exact isFilledCell_mem h rfl
  | asl o | lsr o | rol o | ror o => exact isFilledCell_shift h rfl rfl
  | nopMem code o => exact isFilledCell_nopMem h
  | bpl d | bmi d | bvc d | bvs d | bcc d | bcs d | bne d | beq d => exact isFilledCell_byte d rfl
  | alr m | arr m | sbx m | sbcEB m | ane m | lxa m => exact isFilledCell_byte m rfl
  | jmp a | jmpInd a | jsr a | las a | shx a | shy a | tas a => exact isFilledCell_word a rfl
  | tax | tay | txa | tya | tsx | txs | inx | iny | dex | dey => exact isFilledCell_bare rfl
  | pha | php | pla | plp | rts | brk | rti | nop => exact isFilledCell_bare rfl
  | clc | sec | cli | sei | clv | cld | sed => exact isFilledCell_bare rfl
  | jam code =>
    have table : jamCodes.map template = jamCodes.map (fun c => .bare (.jam c)) := rfl
    exact isFilledCell_bare (eq_of_map_eq table h)
  | nopImplied code =>
    have table : nopImpliedCodes.map template = nopImpliedCodes.map (fun c => .bare (.nopImplied c)) := rfl
    exact isFilledCell_bare (eq_of_map_eq table h)
  | anc code m =>
    have table : ancCodes.map template = ancCodes.map (fun c => .byte (.anc c)) := rfl
    exact isFilledCell_byte m (eq_of_map_eq table h)
  | nopImm code m =>
    have table : nopImmCodes.map template = nopImmCodes.map (fun c => .byte (.nopImm c)) := rfl
    exact isFilledCell_byte m (eq_of_map_eq table h)

/-- Settles O1: a well-formed instruction is a filled cell, which decodes from the bytes it encodes to. -/
theorem decodeOfEncode : Obligations.DecodeOfEncode := by
  intro i rest h
  obtain ⟨op, b1, b2, rfl⟩ := isFilledCell_of_wellFormed h
  rw [encode_fill]
  exact decode_fill op b1 b2 rest

/-- Settles O2: what decodes is a filled cell, and the bytes read are the opcode and those that filled it. -/
theorem encodeOfDecode : Obligations.EncodeOfDecode := by
  intro bs rest i h
  cases bs with
  | nil => cases h
  | cons op bs =>
    obtain ⟨b1, b2, rfl, hbs⟩ := decode_ok h
    refine ⟨wellFormed_fill op b1 b2, ?_⟩
    rw [encode_fill]
    rcases hbs with ⟨hn, rfl⟩ | ⟨hn, rfl⟩ | ⟨hn, rfl⟩ <;> rw [hn] <;> rfl

/-- Settles O3: the length is one more than the operand bytes of the opcode's cell. -/
theorem everyOpcodeDecodes : Obligations.EveryOpcodeDecodes := by
  intro op
  have hn := (template op).operandBytes_cases
  refine ⟨(template op).operandBytes + 1, by omega, by omega, fun b1 b2 rest => ?_⟩
  refine ⟨(template op).fill b1 b2, ?_, length_fill op b1 b2, by rw [encode_fill, List.head?_cons]⟩
  have h := decode_fill op b1 b2 ((b1 :: b2 :: rest).drop (template op).operandBytes)
  rcases hn with hn | hn | hn <;> rw [hn] at h ⊢ <;> exact h

/-- Settles O4: each word is looked up in the matrix. -/
theorem writtenWordsDecode : Obligations.WrittenWordsDecode :=
  ⟨rfl, rfl, rfl, rfl, rfl, rfl, rfl, rfl, rfl, rfl, rfl, rfl⟩

end Sys2Proof

namespace Sys2Proof.Machine

open Sys2Proof Sys2Proof.Laws

/-! ## The fetch (20 R82, 30 R110) -/

/-- The fetch reads the opcode at `pc` and as many bytes as its cell asks for, and fills the cell with them. -/
theorem fetch_fills {s : State} {op : Byte} (hop : (busRead s.pc s).1 = op) : ∃ b1 b2 : Byte,
    (readBytes ((template op).operandBytes + 1) s.pc s).1 = op :: [b1, b2].take (template op).operandBytes ∧
      fetch s = ((template op).fill b1 b2, (readBytes ((template op).operandBytes + 1) s.pc s).2) := by
  have hpc : s.pc + 2 = s.pc + 1 + 1 := by rw [BitVec.add_assoc]; rfl
  simp only [fetch, readBytes, busRead_pc, hop, hpc]
  rcases (template op).operandBytes_cases with hn | hn | hn <;> rw [hn]
  · exact ⟨0, 0, rfl, rfl⟩
  · exact ⟨_, 0, rfl, rfl⟩
  · exact ⟨_, _, rfl, rfl⟩

/-- The fetch answers the well-formed instruction whose words stand at `pc`. -/
theorem fetch_of_readBytes {s : State} {i : Instr} (hi : i.wellFormed = true)
    (hb : (readBytes i.length s.pc s).1 = encode i) : fetch s = (i, (readBytes i.length s.pc s).2) := by
  obtain ⟨op, c1, c2, rfl⟩ := isFilledCell_of_wellFormed hi
  rw [length_fill, encode_fill] at hb
  obtain ⟨b1, b2, hbytes, hfetch⟩ := fetch_fills (List.cons.inj hb).1
  have hsame : decode (op :: ([b1, b2].take (template op).operandBytes ++ [])) =
      decode (op :: ([c1, c2].take (template op).operandBytes ++ [])) := by
    rw [(List.cons.inj (hbytes.symm.trans hb)).2]
  rw [decode_fill, decode_fill] at hsame
  injection hsame with hsame
  rw [hfetch, length_fill, (Prod.mk.inj hsame).1]

theorem runInstruction_of_readBytes {s : State} {i : Instr} (hi : i.wellFormed = true)
    (hb : (readBytes i.length s.pc s).1 = encode i) :
    runInstruction s = exec i (readBytes i.length s.pc s).2 := by
  rw [runInstruction, fetch_of_readBytes hi hb]

/-- A round with its configurations in the domain is service and instruction after the host's events (60 R452). -/
theorem step_of_roundInDomain {s : State} (h : s.roundInDomain = true) : step s = serviceAndRun (beginRound s) :=
  if_pos h

/-- Settles O5: the fetch answers the instruction at `pc`, and the round runs what was fetched. -/
theorem fetchAndStepRunTheInstruction : Obligations.FetchAndStepRunTheInstruction := by
  refine ⟨fun s i => fetch_of_readBytes, ?_⟩
  rintro s u i hd rfl hj hi hb
  rw [step_of_roundInDomain hd, ← runInstruction_of_readBytes hi hb]
  exact if_neg (by simp [hj])

end Sys2Proof.Machine
end

section
/-! PROOFS. The addressing modes: effective address, page-crossed bit, pointer reads and counts (O19). -/

namespace Sys2Proof

theorem toNat_hiByte (a : Addr) : (hiByte a).toNat = a.toNat / 256 := by
  simp only [hiByte, BitVec.extractLsb'_toNat, Nat.shiftRight_eq_div_pow]
  omega

theorem zeroPage_eq_ofNat (z : Byte) : zeroPage z = BitVec.ofNat 16 z.toNat := by
  rw [zeroPage, BitVec.ofNat_toNat]

/-- Indexing from the zero page stays in it (40 R144, R145). -/
theorem toNat_zeroPage_add (z i : Byte) : (zeroPage (z + i)).toNat = (z.toNat + i.toNat) % 256 := by
  rw [toNat_zeroPage, BitVec.toNat_add]

end Sys2Proof

namespace Sys2Proof.Machine

open Sys2Proof

/-! ## Indexed addresses (40 R147, R148, R150) -/

theorem Located.toNat_indexed_addr (hi lo i : Byte) :
    (Located.indexed (joinBytes hi lo) i).addr.toNat = (256 * hi.toNat + lo.toNat + i.toNat) % 65536 := by
  simp only [Located.indexed, BitVec.toNat_add, toNat_joinBytes, toNat_zeroPage]

theorem Located.indexed_crossed (hi lo i : Byte) :
    (Located.indexed (joinBytes hi lo) i).crossed = decide (lo.toNat + i.toNat > 255) := by
  simp only [Located.indexed, Laws.loByte_joinBytes]

theorem Located.indexed_baseHi (hi lo i : Byte) : (Located.indexed (joinBytes hi lo) i).baseHi = hi :=
  Laws.hiByte_joinBytes hi lo

/-- The page is crossed exactly when the indexed address has another high byte than its base. -/
theorem Located.indexed_crossed_iff (hi lo i : Byte) :
    (Located.indexed (joinBytes hi lo) i).crossed = true ↔
      hiByte (Located.indexed (joinBytes hi lo) i).addr ≠ hi := by
  rw [Located.indexed_crossed, decide_eq_true_iff, Ne, ← BitVec.toNat_inj, toNat_hiByte,
    Located.toNat_indexed_addr]
  omega

/-! ## The pointer in the zero page (40 R149, R150) -/

/-- The two pointer bytes are two bus reads, the second from the state the first left. -/
theorem zeroPagePointer_of_reads {z : Byte} {s : State} {lo hi : Byte × State}
    (hlo : lo = busRead (zeroPage z) s) (hhi : hi = busRead (zeroPage (z + 1)) lo.2) :
    zeroPagePointer z s = (joinBytes hi.1 lo.1, hi.2) := by
  subst hlo hhi
  rfl

theorem locate_izx_of_pointer {z : Byte} {s t : State} {ptr : Addr} (h : zeroPagePointer (z + s.x) s = (ptr, t)) :
    locate (.izx z) s = (Located.plain ptr, t) := by
  simp only [locate, h]

/-- The pointer reads leave Y as it was. -/
theorem locate_izy_of_pointer {z : Byte} {s t : State} {ptr : Addr} (h : zeroPagePointer z s = (ptr, t)) :
    locate (.izy z) s = (Located.indexed ptr s.y, t) := by
  have hy : t.y = s.y := (congrArg (fun p => p.2.y) h).symm
  simp only [locate, h, hy]

/-! ## The operand read and the counts (40 R153, R154) -/

/-- An operand that is not immediate is read once, at its effective address, after the pointer reads. -/
theorem load_eq_busRead {o : Operand} (h : o.mode ≠ .imm) (s : State) :
    load o s = ⟨(busRead (locate o s).1.addr (locate o s).2).1, (locate o s).1.crossed,
      (busRead (locate o s).1.addr (locate o s).2).2⟩ := by
  cases o with
  | imm _ => exact absurd rfl h
  | zp | zpx | zpy | abs | abx | aby | izx | izy => rfl

theorem reducible_iff (m : Mode) : reducible m = true ↔ m ∈ [.abx, .aby, .izy] := by cases m <;> decide

theorem baseCycles_pos (m : Mode) : 0 < baseCycles m := by cases m <;> decide

/-- A read-class instruction saves one cycle in a mode that may cross a page and did not. -/
theorem cycleCount_read_add (m : Mode) (k : Bool) :
    cycleCount .read m k + (if m ∈ [.abx, .aby, .izy] ∧ k = false then 1 else 0) = baseCycles m := by
  have hpos := baseCycles_pos m
  simp only [cycleCount, Bool.and_eq_true, Bool.not_eq_true', reducible_iff]
  split <;> omega

/-- Settles O19: each mode from its effective address; the pointer modes after their two reads. -/
theorem addressingModes : Obligations.AddressingModes := by
  refine ⟨fun s b1 b2 => ⟨?imm, ?zp, ?zpx, ?zpy, ?abs, ?abx, ?aby, ?izx, ?izy⟩, fun o s h => ?read,
    fun m k => ⟨cycleCount_write m k, cycleCount_rmw m k, cycleCount_read_add m k⟩⟩
  case imm => exact ⟨rfl, rfl, rfl, rfl, rfl, rfl, rfl⟩
  case zp => exact ⟨toNat_zeroPage b1, rfl, rfl, rfl, rfl⟩
  case zpx => exact ⟨toNat_zeroPage_add b1 s.x, rfl, rfl, rfl, rfl⟩
  case zpy => exact ⟨toNat_zeroPage_add b1 s.y, rfl, rfl, rfl, rfl⟩
  case abs => exact ⟨toNat_joinBytes b2 b1, rfl, rfl, rfl, rfl⟩
  case abx =>
    exact ⟨Located.toNat_indexed_addr b2 b1 s.x, Located.indexed_crossed b2 b1 s.x,
      Located.indexed_crossed_iff b2 b1 s.x, rfl, rfl, rfl⟩
  case aby =>
    exact ⟨Located.toNat_indexed_addr b2 b1 s.y, Located.indexed_crossed b2 b1 s.y, rfl, rfl, rfl⟩
  case izx =>
    intro lo hi hlo hhi
    have hfirst : zeroPage (b1 + s.x) = BitVec.ofNat 16 ((b1.toNat + s.x.toNat) % 256) := by
      rw [zeroPage_eq_ofNat, BitVec.toNat_add]
    have hsecond : zeroPage (b1 + s.x + 1) = BitVec.ofNat 16 ((b1.toNat + s.x.toNat + 1) % 256) := by
      simp [zeroPage_eq_ofNat]
    rw [← hfirst] at hlo
    rw [← hsecond] at hhi
    rw [locate_izx_of_pointer (zeroPagePointer_of_reads hlo hhi)]
    exact ⟨toNat_joinBytes hi.1 lo.1, rfl, rfl, rfl, rfl⟩
  case izy =>
    intro lo hi hlo hhi
    have hsecond : zeroPage (b1 + 1) = BitVec.ofNat 16 ((b1.toNat + 1) % 256) := by
      rw [zeroPage_eq_ofNat, BitVec.toNat_add]
      rfl
    rw [← zeroPage_eq_ofNat] at hlo
    rw [← hsecond] at hhi
    rw [locate_izy_of_pointer (zeroPagePointer_of_reads hlo hhi)]
    exact ⟨Located.toNat_indexed_addr hi.1 lo.1 s.y, Located.indexed_crossed hi.1 lo.1 s.y, rfl,
      Located.indexed_baseHi hi.1 lo.1 s.y, rfl, rfl⟩
  case read =>
    rw [load_eq_busRead h]
    exact ⟨rfl, rfl⟩

end Sys2Proof.Machine
end

section
/-! PROOFS. Load, store and register transfer (spec/41_load_store_transfer.md), with the register increments and
decrements of 43: a rule's table against the matrix and the counts, what a register load changes, and from these the
statements (O20, O21, O22). -/

namespace Sys2Proof.Machine

open Sys2Proof

/-! ## Encoding tables -/

/-- A table of memory forms agrees with the matrix and its access class when it does so column by column. -/
theorem rowOk_of_columns {f : Byte → Operand → Instr} {cls : Access} {rows : List Row}
    (hcell : rows.map (fun r => template r.opcode) = rows.map (fun r => .mem r.mode (f r.opcode)))
    (hbytes : rows.map Row.bytes = rows.map (fun r => 1 + r.mode.operandBytes))
    (hcount : rows.map (fun r => (r.count false, r.count true)) =
      rows.map (fun r => (cycleCount cls r.mode false, cycleCount cls r.mode true))) :
    ∀ r ∈ rows, RowOk f cls r := by
  intro r hr
  obtain ⟨hplain, hcrossed⟩ := Prod.mk.inj (List.map_inj_left.mp hcount r hr)
  refine ⟨.inl (List.map_inj_left.mp hcell r hr), List.map_inj_left.mp hbytes r hr, fun k => ?_⟩
  cases k with
  | false => exact hplain
  | true => exact hcrossed

/-! ## Writing a register and `SetNZ` (00 R8) -/

theorem NZIs.of_setNZ {v p : Byte} {t : State} (h : t.p = setNZ v p) : NZIs v t := by simp [NZIs, h]

/-- New values in the four registers and `P` touch nothing else. -/
theorem regsOnly_update (a x y sp p : Byte) (s : State) :
    RegsOnly s { s with a := a, x := x, y := y, sp := sp, p := p } :=
  ⟨⟨rfl, rfl, rfl, rfl⟩, ⟨rfl, rfl, rfl, rfl, rfl, rfl, rfl, rfl, rfl, rfl, rfl⟩, rfl, rfl, rfl, rfl⟩

theorem State.loadA_regsOnly (v : Byte) (s : State) : RegsOnly s (s.loadA v) := regsOnly_update v s.x s.y s.sp _ s

theorem State.loadX_regsOnly (v : Byte) (s : State) : RegsOnly s (s.loadX v) := regsOnly_update s.a v s.y s.sp _ s

theorem State.loadY_regsOnly (v : Byte) (s : State) : RegsOnly s (s.loadY v) := regsOnly_update s.a s.x v s.sp _ s

theorem State.loadA_regsKept (v : Byte) (s : State) : RegsKept [.a] s (s.loadA v)
  | .a, h => absurd (List.mem_singleton_self _) h
  | .x, _ | .y, _ | .sp, _ => rfl

theorem State.loadX_regsKept (v : Byte) (s : State) : RegsKept [.x] s (s.loadX v)
  | .x, h => absurd (List.mem_singleton_self _) h
  | .a, _ | .y, _ | .sp, _ => rfl

theorem State.loadY_regsKept (v : Byte) (s : State) : RegsKept [.y] s (s.loadY v)
  | .y, h => absurd (List.mem_singleton_self _) h
  | .a, _ | .x, _ | .sp, _ => rfl

/-! ## Loads and stores -/

/-- Settles O20: each table against the matrix, and the load's effect on its registers. -/
theorem loadsRun : Obligations.LoadsRun := by
  refine ⟨?lda, ?ldx, ?ldy, ?lax⟩
  case lda =>
    exact readRows State.loadA (rowOk_of_columns rfl rfl rfl) (fun _ _ _ => rfl) State.loadA_regsOnly
      State.loadA_regsKept (fun _ _ => .setNZ rfl) (fun _ _ _ _ _ _ _ => ⟨rfl, .of_setNZ rfl⟩)
  case ldx =>
    exact readRows State.loadX (rowOk_of_columns rfl rfl rfl) (fun _ _ _ => rfl) State.loadX_regsOnly
      State.loadX_regsKept (fun _ _ => .setNZ rfl) (fun _ _ _ _ _ _ _ => ⟨rfl, .of_setNZ rfl⟩)
  case ldy =>
    exact readRows State.loadY (rowOk_of_columns rfl rfl rfl) (fun _ _ _ => rfl) State.loadY_regsOnly
      State.loadY_regsKept (fun _ _ => .setNZ rfl) (fun _ _ _ _ _ _ _ => ⟨rfl, .of_setNZ rfl⟩)
  case lax =>
    have kept (m : Byte) (u : State) : RegsKept [.a, .x] u ({ u with x := m }.loadA m) := by
      intro r hr
      cases r with
      | a | x => simp at hr
      | y | sp => rfl
    exact readRows (fun m u => { u with x := m }.loadA m) (rowOk_of_columns rfl rfl rfl) (fun _ _ _ => rfl)
      (fun m u => regsOnly_update m m u.y u.sp _ u) kept (fun _ _ => .setNZ rfl)
      (fun _ _ _ _ _ _ _ => ⟨rfl, rfl, .of_setNZ rfl⟩)

/-- Settles O21: the byte stored is one of registers the addressing-mode phase leaves alone. -/
theorem storesRun : Obligations.StoresRun := by
  refine ⟨?sta, ?stx, ?sty, ?sax⟩
  case sta => exact storeRows (rowOk_of_columns rfl rfl rfl) (fun _ _ _ => rfl) locate_a
  case stx => exact storeRows (rowOk_of_columns rfl rfl rfl) (fun _ _ _ => rfl) locate_x
  case sty => exact storeRows (rowOk_of_columns rfl rfl rfl) (fun _ _ _ => rfl) locate_y
  case sax =>
    exact storeRows (rowOk_of_columns rfl rfl rfl) (fun _ _ _ => rfl)
      (fun o s => congrArg₂ (· &&& ·) (locate_a o s) (locate_x o s))

/-! ## Transfers, increments and decrements -/

section ImpliedLoads

variable {i : Instr} {op : Byte} {value : State → Byte} (ht : template op = .bare i)
include ht

/-- An implied instruction that loads the accumulator with `value`. -/
theorem implied_loadA (he : ∀ s, exec i s = .next (implied (fun s => s.loadA (value s)) s)) :
    ImpliedRuns i op 2 [.a] [.n, .z] (fun s t => t.a = value s ∧ NZIs (value s) t) :=
  implied_runs _ ht he (fun u => u.loadA_regsOnly _) (fun u => u.loadA_regsKept _) (fun _ => .setNZ rfl)
    (fun _ => ⟨rfl, .of_setNZ rfl⟩)

/-- An implied instruction that loads `X` with `value`. -/
theorem implied_loadX (he : ∀ s, exec i s = .next (implied (fun s => s.loadX (value s)) s)) :
    ImpliedRuns i op 2 [.x] [.n, .z] (fun s t => t.x = value s ∧ NZIs (value s) t) :=
  implied_runs _ ht he (fun u => u.loadX_regsOnly _) (fun u => u.loadX_regsKept _) (fun _ => .setNZ rfl)
    (fun _ => ⟨rfl, .of_setNZ rfl⟩)

/-- An implied instruction that loads `Y` with `value`. -/
theorem implied_loadY (he : ∀ s, exec i s = .next (implied (fun s => s.loadY (value s)) s)) :
    ImpliedRuns i op 2 [.y] [.n, .z] (fun s t => t.y = value s ∧ NZIs (value s) t) :=
  implied_runs _ ht he (fun u => u.loadY_regsOnly _) (fun u => u.loadY_regsKept _) (fun _ => .setNZ rfl)
    (fun _ => ⟨rfl, .of_setNZ rfl⟩)

end ImpliedLoads

/-- `TXS` moves `X` to `SP` and writes no flag (R181). -/
theorem txs_runs : ImpliedRuns .txs 0x9A 2 [.sp] [] (fun s t => t.sp = s.x) := by
  have kept (u : State) : RegsKept [.sp] u { u with sp := u.x } := by
    intro r hr
    cases r with
    | sp => simp at hr
    | a | x | y => rfl
  exact implied_runs (fun s => { s with sp := s.x }) rfl (fun _ => rfl)
    (fun u => regsOnly_update u.a u.x u.y u.x u.p u) kept (fun _ => .of_p rfl) (fun _ => rfl)

/-- Settles O22: nine of the ten load a register with a value that another register, or the same one, gives. -/
theorem registerInstructionsRun : Obligations.RegisterInstructionsRun := by
  refine ⟨?tax, ?tay, ?txa, ?tya, ?tsx, txs_runs, ?inx, ?iny, ?dex, ?dey⟩
  case tax | tsx | inx | dex => exact implied_loadX rfl (fun _ => rfl)
  case tay | iny | dey => exact implied_loadY rfl (fun _ => rfl)
  case txa | tya => exact implied_loadA rfl (fun _ => rfl)

end Sys2Proof.Machine
end

section
/-! PROOFS. Logic, arithmetic, compare and bit test (spec/42_logic_arithmetic.md): what the operations on the
accumulator and on the flags change, the digits of a BCD byte, and from these the statements (O23 to O26). -/

namespace Sys2Proof.Machine

open Sys2Proof

/-! ## Registers written -/

/-- New values in the accumulator and `P` leave the other registers. -/
theorem regsKept_updateA (v p : Byte) (s : State) : RegsKept [.a] s { s with a := v, p := p }
  | .a, h => absurd (List.mem_singleton_self _) h
  | .x, _ | .y, _ | .sp, _ => rfl

/-- A new value in `P` leaves every register. -/
theorem regsKept_updateP (p : Byte) (s : State) : RegsKept [] s { s with p := p }
  | .a, _ | .x, _ | .y, _ | .sp, _ => rfl

theorem regsOnly_updateP (p : Byte) (s : State) : RegsOnly s { s with p := p } :=
  regsOnly_update s.a s.x s.y s.sp p s

theorem State.addA_regsOnly (m : Byte) (s : State) : RegsOnly s (s.addA m) := regsOnly_update _ s.x s.y s.sp _ s

theorem State.subA_regsOnly (m : Byte) (s : State) : RegsOnly s (s.subA m) := regsOnly_update _ s.x s.y s.sp _ s

/-! ## Logic (42 R190 to R192) -/

/-- A table of instructions that load the accumulator with `value` of it and the operand byte. -/
theorem accumulatorRows {f : Byte → Operand → Instr} {rows : List Row} (value : Byte → Byte → Byte)
    (hr : ∀ r ∈ rows, RowOk f .read r)
    (he : ∀ op o s, exec (f op o) s = .next (readWith o (fun m s => s.loadA (value s.a m)) s)) :
    RowsRun f rows (ReadEffect [.a] [.n, .z] (fun m s t => t.a = value s.a m ∧ NZIs (value s.a m) t)) :=
  readRows (fun m s => s.loadA (value s.a m)) hr he (fun _ u => u.loadA_regsOnly _) (fun _ u => u.loadA_regsKept _)
    (fun _ _ => .setNZ rfl) (fun _ _ _ _ _ _ _ => ⟨rfl, .of_setNZ rfl⟩)

/-- Settles O23: the three differ in the operation on the accumulator and the operand byte. -/
theorem logicRuns : Obligations.LogicRuns := by
  refine ⟨?ora, ?and, ?eor⟩
  case ora => exact accumulatorRows (· ||| ·) (rowOk_of_columns rfl rfl rfl) (fun _ _ _ => rfl)
  case and => exact accumulatorRows (· &&& ·) (rowOk_of_columns rfl rfl rfl) (fun _ _ _ => rfl)
  case eor => exact accumulatorRows (· ^^^ ·) (rowOk_of_columns rfl rfl rfl) (fun _ _ _ => rfl)

/-! ## Addition and subtraction (42 R193, R194, R294) -/

/-- Settles O24: `adcResult` and `sbcResult` give the operations; 0xEB is `SBC` on an immediate byte. -/
theorem addAndSubtractRun : Obligations.AddAndSubtractRun := by
  refine ⟨?adc, ?sbc, ?sbcEB⟩
  case adc =>
    exact readRows State.addA (rowOk_of_columns rfl rfl rfl) (fun _ _ _ => rfl) State.addA_regsOnly
      (fun _ u => regsKept_updateA _ _ u) addA_flagsKept (fun _ _ _ _ _ _ _ => adcResult _ _ _ rfl rfl)
  case sbc =>
    exact readRows State.subA (rowOk_of_columns rfl rfl rfl) (fun _ _ _ => rfl) State.subA_regsOnly
      (fun _ u => regsKept_updateA _ _ u) subA_flagsKept (fun _ _ _ _ _ _ _ => sbcResult _ _ _ rfl rfl)
  case sbcEB =>
    refine immediate_runs State.subA rfl (fun _ _ _ => rfl) (fun m u => ?_) (fun _ u => regsKept_updateA _ _ u)
      subA_flagsKept (fun _ _ _ => sbcResult _ _ _ rfl rfl)
    obtain ⟨hstore, hrest, hpc, hbus, hext, -⟩ := u.subA_regsOnly m
    exact ⟨hstore, hrest, hpc, hbus, hext⟩

/-! ## Decimal correction on valid BCD (42 R199) -/

theorem toNat_hiNibble_digits {d1 d0 : Nat} (h1 : d1 ≤ 9) (h0 : d0 ≤ 9) :
    (hiNibble (BitVec.ofNat 8 (16 * d1 + d0))).toNat = d1 := by
  rw [toNat_hiNibble, BitVec.toNat_ofNat]
  omega

theorem toNat_loNibble_digits {d1 d0 : Nat} (h0 : d0 ≤ 9) :
    (loNibble (BitVec.ofNat 8 (16 * d1 + d0))).toNat = d0 := by
  rw [toNat_loNibble, BitVec.toNat_ofNat]
  omega

theorem bitNat_le_one (c : Bool) : bitNat c ≤ 1 := by cases c <;> decide

/-- The borrow of a subtraction is the complement of the carry. -/
theorem borrow_add_bitNat (c : Bool) : (if c then 0 else 1) + bitNat c = 1 := by cases c <;> rfl

/-- The sum `16 * h + u` of a high digit sum `h` and a corrected low digit `u`: the high digit is corrected where
it exceeds 9, and there alone the sum exceeds a byte. -/
theorem highDigit_carry {h u s : Nat} (hh : h ≤ 19) (hu : u ≤ 9) (hs : s = 16 * h + u) :
    (if s ≥ 0xA0 then s + 0x60 else s) % 256 = (16 * (h % 10) + u) % 256 ∧
      ((if s ≥ 0xA0 then s + 0x60 else s) ≥ 0x100 ↔ 9 < h) := by
  subst hs
  split <;> omega

/-- The difference `16 * (h - 10) + u` of a high digit difference `h - 10` and a corrected low digit `u`: the high
digit is corrected where the difference is negative. -/
theorem highDigit_borrow {h u : Nat} {s : Int} (hh : h ≤ 19) (hu : u ≤ 9) (hs : s = 16 * h + u - 160) :
    ((if s < 0 then s - 0x60 else s) % 256).toNat = (16 * (h % 10) + u) % 256 := by
  subst hs
  split <;> omega

section Digits

variable {a1 a0 m1 m0 n : Nat} (ha1 : a1 ≤ 9) (ha0 : a0 ≤ 9) (hm1 : m1 ≤ 9) (hm0 : m0 ≤ 9)
include ha1 ha0 hm1 hm0

/-- The low correction carries into the high digit, and the high one out of it, as decimal addition does. -/
theorem bcdAdcStandard_digits (c : Bool) (hn : n = 10 * a1 + a0 + (10 * m1 + m0) + bitNat c) :
    bcdAdcStandard (BitVec.ofNat 8 (16 * a1 + a0)) (BitVec.ofNat 8 (16 * m1 + m0)) c =
      (BitVec.ofNat 8 (16 * (n % 100 / 10) + n % 10), decide (n > 99)) := by
  have hc := bitNat_le_one c
  have htens : n % 100 / 10 = n / 10 % 10 := Nat.mod_mul_right_div_self n 10 10
  have hover : n > 99 ↔ 9 < n / 10 := by omega
  simp only [bcdAdcStandard, toNat_hiNibble_digits ha1 ha0, toNat_hiNibble_digits hm1 hm0,
    toNat_loNibble_digits ha0, toNat_loNibble_digits hm0, Prod.mk.injEq, decide_eq_decide,
    ← BitVec.toNat_inj, BitVec.toNat_ofNat, htens, hover]
  refine highDigit_carry (by omega) (by omega) ?_
  split <;> omega

/-- The low correction borrows from the high digit, and the high one from beyond it, as decimal subtraction does. -/
theorem bcdSbcStandard_digits (c : Bool) (hn : n + (10 * m1 + m0) + 1 = 10 * a1 + a0 + 100 + bitNat c) :
    bcdSbcStandard (BitVec.ofNat 8 (16 * a1 + a0)) (BitVec.ofNat 8 (16 * m1 + m0)) c =
      BitVec.ofNat 8 (16 * (n % 100 / 10) + n % 10) := by
  have hc := bitNat_le_one c
  have htens : n % 100 / 10 = n / 10 % 10 := Nat.mod_mul_right_div_self n 10 10
  simp only [bcdSbcStandard, toNat_hiNibble_digits ha1 ha0, toNat_hiNibble_digits hm1 hm0,
    toNat_loNibble_digits ha0, toNat_loNibble_digits hm0, ← BitVec.toNat_inj, BitVec.toNat_ofNat,
    BitVec.toNat_ofInt, Nat.reducePow, Nat.cast_ofNat, htens]
  refine highDigit_borrow (by omega) (by omega) ?_
  split <;> omega

end Digits

/-- Settles O25: the default corrections on the digits of the operands. -/
theorem decimalArithmetic : Obligations.DecimalArithmetic := by
  rintro cfg a1 a0 m1 m0 c ha1 ha0 hm1 hm0 _ _ rfl rfl
  refine ⟨fun hcfg n hn => ?_, fun hcfg n hn => ?_⟩
  · rw [bcdAdc, hcfg]
    exact bcdAdcStandard_digits ha1 ha0 hm1 hm0 c hn
  · rw [bcdSbc, hcfg]
    refine bcdSbcStandard_digits ha1 ha0 hm1 hm0 c ?_
    have hborrow := borrow_add_bitNat c
    omega

/-! ## Compares and `BIT` (42 R189, R195 to R198) -/

theorem CompareIs.of_compare {reg m p : Byte} {t : State} (h : t.p = compare reg m p) : CompareIs reg m t := by
  simp [CompareIs, h]

theorem bitTest_flagsKept (m : Byte) (s : State) :
    FlagsKept [.n, .v, .z] s { s with p := bitTest s.a m s.p } := by
  intro g hg
  simp only [List.mem_cons, List.not_mem_nil, or_false, not_or] at hg
  simp [hg]

/-- A table of compares with the register `reg`, which no operand read changes. -/
theorem compareRows {f : Byte → Operand → Instr} {rows : List Row} (reg : State → Byte)
    (hreg : ∀ s e b d, reg { s with ext := e, bus := b, draws := d } = reg s) (hr : ∀ r ∈ rows, RowOk f .read r)
    (he : ∀ op o s, exec (f op o) s = .next (readWith o (fun m s => { s with p := compare (reg s) m s.p }) s)) :
    RowsRun f rows (ReadEffect [] [.n, .z, .c] (fun m s t => CompareIs (reg s) m t)) :=
  readRows (fun m s => { s with p := compare (reg s) m s.p }) hr he (fun _ u => regsOnly_updateP _ u)
    (fun _ u => regsKept_updateP _ u) (fun _ _ => .compare rfl)
    (fun _ _ m s e b d => .of_compare (congrArg (compare · m s.p) (hreg s e b d)))

/-- Settles O26: the three compares differ in the register; `BIT` by the flags of `bitTest`. -/
theorem comparesAndBitRun : Obligations.ComparesAndBitRun := by
  refine ⟨?cmp, ?cpx, ?cpy, ?bit⟩
  case cmp => exact compareRows State.a (fun _ _ _ _ => rfl) (rowOk_of_columns rfl rfl rfl) (fun _ _ _ => rfl)
  case cpx => exact compareRows State.x (fun _ _ _ _ => rfl) (rowOk_of_columns rfl rfl rfl) (fun _ _ _ => rfl)
  case cpy => exact compareRows State.y (fun _ _ _ _ => rfl) (rowOk_of_columns rfl rfl rfl) (fun _ _ _ => rfl)
  case bit =>
    exact readRows (fun m s => { s with p := bitTest s.a m s.p }) (rowOk_of_columns rfl rfl rfl) (fun _ _ _ => rfl)
      (fun _ u => regsOnly_updateP _ u) (fun _ u => regsKept_updateP _ u) bitTest_flagsKept
      (fun _ _ m s _ _ _ => ⟨flag_bitTest s.a m s.p .z, flag_bitTest s.a m s.p .n, flag_bitTest s.a m s.p .v⟩)

end Sys2Proof.Machine
end

section
/-! PROOFS. Shifts, rotates and memory increments (spec/43_shift_incdec.md): what an operation on one byte and `P`
must give, both forms of an instruction that runs it, and from these the statements (O27, O28). -/

namespace Sys2Proof.Machine

open Sys2Proof

/-! ## Shifts and rotates (43 R210 to R213) -/

/-- The operation `f` on a byte and `P` gives the byte `value`, the flags `Post` asks for, and changes `N`, `Z`, `C`
alone. -/
structure ShiftsTo (f : Byte → Byte → Byte × Byte) (value : Byte → State → Byte)
    (Post : Byte → State → State → Prop) : Prop where
  byte : ∀ v s, (f v s.p).1 = value v s
  post : ∀ v s t, t.p = (f v s.p).2 → Post v s t
  kept : ∀ v s, FlagsKept [.n, .z, .c] s { s with p := (f v s.p).2 }

theorem shiftLeft_shiftsTo :
    ShiftsTo shiftLeft (fun v _ => v <<< 1) (fun v _ t => flag t.p .c = v.getLsbD 7 ∧ NZIs (v <<< 1) t) where
  byte _ _ := rfl
  post _ _ _ h := ⟨by simp [h], .of_setNZ h⟩
  kept _ _ := .setNZ_carry rfl

/-- Bit 7 of the result is 0, and `N` with it. -/
theorem shiftRight_shiftsTo :
    ShiftsTo shiftRight (fun v _ => v >>> 1)
      (fun v _ t => flag t.p .c = v.getLsbD 0 ∧ flag t.p .n = false ∧ flag t.p .z = (v >>> 1 == 0)) where
  byte _ _ := rfl
  post _ _ _ h := by simp [h]
  kept v s g hg := by
    simp only [List.mem_cons, List.not_mem_nil, or_false, not_or] at hg
    simp [hg]

/-- The old carry enters at bit 0. -/
theorem rotateLeft_shiftsTo :
    ShiftsTo rotateLeft (fun v s => v <<< 1 ||| (if flag s.p .c then 0x01 else 0x00))
      (fun v s t => flag t.p .c = v.getLsbD 7 ∧ NZIs (v <<< 1 ||| (if flag s.p .c then 0x01 else 0x00)) t) where
  byte _ _ := rfl
  post _ _ _ h := ⟨by simp [h], .of_setNZ h⟩
  kept _ _ := .setNZ_carry rfl

/-- The old carry enters at bit 7. -/
theorem rotateRight_shiftsTo :
    ShiftsTo rotateRight (fun v s => v >>> 1 ||| (if flag s.p .c then 0x80 else 0x00))
      (fun v s t => flag t.p .c = v.getLsbD 0 ∧ NZIs (v >>> 1 ||| (if flag s.p .c then 0x80 else 0x00)) t) where
  byte _ _ := rfl
  post _ _ _ h := ⟨by simp [h], .of_setNZ h⟩
  kept _ _ := .setNZ_carry rfl

/-- A table of the memory forms of a shift agrees with the matrix and the counts when it does so column by column. -/
theorem rowOk_of_shiftColumns {i : ShiftOperand → Instr} {rows : List Row}
    (hcell : rows.map (fun r => template r.opcode) = rows.map (fun r => .shift r.mode i))
    (hbytes : rows.map Row.bytes = rows.map (fun r => 1 + r.mode.operandBytes))
    (hcount : rows.map (fun r => (r.count false, r.count true)) =
      rows.map (fun r => (cycleCount .rmw r.mode false, cycleCount .rmw r.mode true))) :
    ∀ r ∈ rows, RowOk (fun _ o => i (.mem o)) .rmw r := by
  intro r hr
  obtain ⟨hplain, hcrossed⟩ := Prod.mk.inj (List.map_inj_left.mp hcount r hr)
  exact ⟨.inr ⟨i, List.map_inj_left.mp hcell r hr, fun _ => rfl⟩, List.map_inj_left.mp hbytes r hr,
    Bool.forall_bool.mpr ⟨hplain, hcrossed⟩⟩

section ShiftForms

variable {i : ShiftOperand → Instr} {f : Byte → Byte → Byte × Byte} {value : Byte → State → Byte}
  {Post : Byte → State → State → Prop} (hf : ShiftsTo f value Post)
  (he : ∀ o s, exec (i o) s = .next (shiftWith o f s))
include hf he

/-- The accumulator form shifts the accumulator. -/
theorem ShiftsTo.accumulatorRuns {op : Byte} (ht : template op = .bare (i .acc)) :
    ImpliedRuns (i .acc) op 2 [.a] [.n, .z, .c] (fun s t => t.a = value s.a s ∧ Post s.a s t) :=
  implied_runs (fun s => { s with a := (f s.a s.p).1, p := (f s.a s.p).2 }) ht (he .acc)
    (fun u => regsOnly_update _ u.x u.y u.sp _ u) (fun u => regsKept_updateA _ _ u) (fun u => hf.kept u.a u)
    (fun s => ⟨hf.byte s.a s, hf.post s.a s _ rfl⟩)

/-- A memory form shifts the byte read; `value` looks at no field that reading it changed. -/
theorem ShiftsTo.memoryRows {rows : List Row}
    (hvalue : ∀ m s e b d, value m { s with ext := e, bus := b, draws := d } = value m s)
    (hr : ∀ r ∈ rows, RowOk (fun _ o => i (.mem o)) .rmw r) :
    RowsRun (fun _ o => i (.mem o)) rows (RmwEffect [] [.n, .z, .c] value Post) :=
  rmwRows (fun v s => ((f v s.p).1, { s with p := (f v s.p).2 })) hr (fun _ o => he (.mem o))
    (fun _ u => regsOnly_updateP _ u) (fun m s e b d => (hf.byte m _).trans (hvalue m s e b d))
    (fun _ u => regsKept_updateP _ u) hf.kept (fun _ _ _ _ m s _ _ _ => hf.post m s _ rfl)

end ShiftForms

/-- Settles O27: the two forms of each instruction, from its operation on a byte and `P`. -/
theorem shiftsRun : Obligations.ShiftsRun := by
  refine ⟨?aslAcc, ?aslMem, ?lsrAcc, ?lsrMem, ?rolAcc, ?rolMem, ?rorAcc, ?rorMem⟩
  case aslAcc => exact shiftLeft_shiftsTo.accumulatorRuns (fun _ _ => rfl) rfl
  case lsrAcc => exact shiftRight_shiftsTo.accumulatorRuns (fun _ _ => rfl) rfl
  case rolAcc => exact rotateLeft_shiftsTo.accumulatorRuns (fun _ _ => rfl) rfl
  case rorAcc => exact rotateRight_shiftsTo.accumulatorRuns (fun _ _ => rfl) rfl
  case aslMem =>
    exact shiftLeft_shiftsTo.memoryRows (fun _ _ => rfl) (fun _ _ _ _ _ => rfl) (rowOk_of_shiftColumns rfl rfl rfl)
  case lsrMem =>
    exact shiftRight_shiftsTo.memoryRows (fun _ _ => rfl) (fun _ _ _ _ _ => rfl) (rowOk_of_shiftColumns rfl rfl rfl)
  case rolMem =>
    exact rotateLeft_shiftsTo.memoryRows (fun _ _ => rfl) (fun _ _ _ _ _ => rfl) (rowOk_of_shiftColumns rfl rfl rfl)
  case rorMem =>
    exact rotateRight_shiftsTo.memoryRows (fun _ _ => rfl) (fun _ _ _ _ _ => rfl) (rowOk_of_shiftColumns rfl rfl rfl)

/-! ## Memory increment and decrement (43 R214, R215) -/

/-- A table of instructions that write back `value` of the byte read, with its `N` and `Z`. -/
theorem rmwSetNZRows {f : Byte → Operand → Instr} {rows : List Row} (value : Byte → Byte)
    (hr : ∀ r ∈ rows, RowOk f .rmw r)
    (he : ∀ op o s, exec (f op o) s =
      .next (rmwWith o (fun m s => (value m, { s with p := setNZ (value m) s.p })) s)) :
    RowsRun f rows (RmwEffect [] [.n, .z] (fun m _ => value m) (fun m _ t => NZIs (value m) t)) :=
  rmwRows (fun m s => (value m, { s with p := setNZ (value m) s.p })) hr he (fun _ u => regsOnly_updateP _ u)
    (fun _ _ _ _ _ => rfl) (fun _ u => regsKept_updateP _ u) (fun _ _ => .setNZ rfl)
    (fun _ _ _ _ _ _ _ _ _ => .of_setNZ rfl)

/-- Settles O28: the two differ in the value written back. -/
theorem memoryIncDecRuns : Obligations.MemoryIncDecRuns := by
  refine ⟨?inc, ?dec⟩
  case inc => exact rmwSetNZRows (· + 1) (rowOk_of_columns rfl rfl rfl) (fun _ _ _ => rfl)
  case dec => exact rmwSetNZRows (· - 1) (rowOk_of_columns rfl rfl rfl) (fun _ _ _ => rfl)

end Sys2Proof.Machine
end

section
/-! PROOFS. Branches, jumps and subroutines (spec/44_branch_jump.md, with 45 R265): what a transfer of control leaves,
the state each instruction ends in, and from these the statements (O29 to O32). -/

namespace Sys2Proof.Machine

open Sys2Proof Sys2Proof.Laws

/-! ## Transferring control -/

/-- Control goes to `pc` in a step of `n` cycles. -/
def State.goTo (pc : Addr) (n : Nat) (s : State) : State := { s with pc := pc }.spend n

@[simp] theorem goTo_pc (pc : Addr) (n : Nat) (s : State) : (s.goTo pc n).pc = pc := rfl

@[simp] theorem goTo_outcome (pc : Addr) (n : Nat) (s : State) : (s.goTo pc n).outcome = some (.cycles n) := rfl

theorem goTo_rest (pc : Addr) (n : Nat) (s : State) : RestKept s (s.goTo pc n) := by constructor <;> rfl

theorem goTo_noAccess (pc : Addr) (n : Nat) (s : State) : NoAccess s (s.goTo pc n) := ⟨rfl, rfl, rfl⟩

theorem goTo_sameStore (pc : Addr) (n : Nat) (s : State) : SameStore s (s.goTo pc n) := ⟨rfl, rfl, rfl, rfl⟩

theorem goTo_regsKept (pc : Addr) (n : Nat) (s : State) : RegsKept [] s (s.goTo pc n)
  | .a, _ | .x, _ | .y, _ | .sp, _ => rfl

/-! ## Branches (44 R230 to R238) -/

theorem branch_eq (taken : Bool) (d : Byte) (s : State) :
    branch taken d s =
      s.goTo (if taken then s.pc + 2 + signExtend d else s.pc + 2) (if taken then 3 else 2) := by
  cases taken <;> rfl

/-- The flag, or its complement, is set exactly when the flag has the value asked for. -/
theorem branchCondition_iff (k v : Bool) : (bif v then k else !k) = true ↔ k = v := by cases v <;> simp

/-- A branch on the flag `f` with the value `v`. -/
theorem branch_runs {i : Byte → Instr} {op : Byte} {f : Flag} {v : Bool} (ht : template op = .byte i)
    (he : ∀ d s, exec (i d) s = .next (branch (bif v then flag s.p f else !flag s.p f) d s)) :
    BranchRuns i op f v := by
  refine fun d s => ⟨encoded_byte ht d, _, (he d s).trans (congrArg _ (branch_eq _ d s)), fun h => ?taken,
    fun h => ?notTaken, goTo_rest _ _ s, goTo_noAccess _ _ s, (goTo_sameStore _ _ s).nothingStored,
    goTo_regsKept _ _ s, rfl⟩
  case taken =>
    rw [← branchCondition_iff] at h
    simp [h]
  case notTaken =>
    rw [Ne, ← branchCondition_iff] at h
    simp [h]

/-- Settles O29: the eight differ in the opcode, the flag and its value. -/
theorem branchesRun : Obligations.BranchesRun := by
  refine ⟨?_, ?_, ?_, ?_, ?_, ?_, ?_, ?_⟩ <;> exact branch_runs rfl (fun _ _ => rfl)

/-! ## Two bus reads, low byte first -/

/-- `t` keeps of `s` what bus reads keep: memory, devices, the four registers, `P` and the rest of the frame. -/
structure ReadsOnly (s t : State) : Prop where
  store : SameStore s t
  rest : RestKept s t
  regs : RegsKept [] s t
  flags : t.p = s.p

/-- A read of two bytes, the second in the state the first leaves. -/
theorem twoReads_readsOnly {a b : Addr} {s : State} {lo hi : Byte × State} (hlo : lo = busRead a s)
    (hhi : hi = busRead b lo.2) : ReadsOnly s hi.2 := by
  subst hlo hhi
  refine ⟨(busRead_sameStore _ _).trans (busRead_sameStore _ _), (busRead_rest _ _).trans (busRead_rest _ _),
    fun r hr => ?_, rfl⟩
  exact (busRead_regsKept _ _ r hr).trans (busRead_regsKept _ _ r hr)

/-! ## Jumps (44 R239, R240) -/

theorem exec_jmp (target : Addr) (s : State) : exec (.jmp target) s = .next (s.goTo target 3) := rfl

theorem exec_jmpInd {ptr : Addr} {s : State} {lo hi : Byte × State} (hlo : lo = busRead ptr s)
    (hhi : hi = busRead (pointerHi s.cfg.jmpIndPageWrap ptr) lo.2) :
    exec (.jmpInd ptr) s = .next (hi.2.goTo (joinBytes hi.1 lo.1) 5) := by
  subst hlo hhi
  rfl

theorem pointerHi_joinBytes (wrap : Bool) (hi lo : Byte) :
    pointerHi wrap (joinBytes hi lo) = if wrap then joinBytes hi (lo + 1) else joinBytes hi lo + 1 := by
  rw [pointerHi, hiByte_joinBytes, loByte_joinBytes]

/-- Settles O30: a transfer of control, through a pointer after the two reads. -/
theorem jumpsRun : Obligations.JumpsRun := by
  refine fun b1 b2 s => ⟨⟨encoded_word rfl b1 b2, _, exec_jmp _ s, rfl, rfl, goTo_rest _ _ s, goTo_noAccess _ _ s,
    (goTo_sameStore _ _ s).nothingStored, goTo_regsKept _ _ s, rfl⟩, encoded_word rfl b1 b2, fun lo hi hlo hhi => ?_⟩
  rw [← pointerHi_joinBytes] at hhi
  obtain ⟨hstore, hrest, hregs, hp⟩ := twoReads_readsOnly hlo hhi
  exact ⟨_, exec_jmpInd hlo hhi, rfl, rfl, rfl, ⟨rfl, rfl⟩, hrest.trans (goTo_rest _ _ _),
    (hstore.trans (goTo_sameStore _ _ _)).nothingStored,
    fun r hr => (goTo_regsKept _ _ _ r hr).trans (hregs r hr), hp⟩

/-! ## Subroutines (44 R241, R242; 45 R265) -/

/-- Control goes to `pc` in six cycles, and `SP` becomes `sp`: how a call and a return end. -/
def State.goToWithSp (sp : Byte) (pc : Addr) (s : State) : State := { s with sp := sp }.goTo pc 6

theorem goToWithSp_rest (sp : Byte) (pc : Addr) (s : State) : RestKept s (s.goToWithSp sp pc) := by
  constructor <;> rfl

theorem goToWithSp_sameStore (sp : Byte) (pc : Addr) (s : State) : SameStore s (s.goToWithSp sp pc) :=
  ⟨rfl, rfl, rfl, rfl⟩

theorem goToWithSp_regsKept (sp : Byte) (pc : Addr) (s : State) : RegsKept [.sp] s (s.goToWithSp sp pc)
  | .sp, h => absurd (List.mem_singleton_self _) h
  | .a, _ | .x, _ | .y, _ => rfl

/-- `s` with the address `v` stored in the two top stack bytes, high byte first. -/
def stacked2 (v : Addr) (s : State) : State :=
  busWrite (stackSlot s 1) (loByte v) (busWrite (stackSlot s 0) (hiByte v) s)

theorem stacked2_rest (v : Addr) (s : State) : RestKept s (stacked2 v s) :=
  (busWrite_rest _ _ _).trans (busWrite_rest _ _ _)

theorem stacked2_regsKept (v : Addr) (s : State) : RegsKept [] s (stacked2 v s) := fun r hr =>
  (busWrite_regsKept _ _ _ r hr).trans (busWrite_regsKept _ _ _ r hr)

/-- No byte but the two changes. -/
theorem stacked2_elsewhere (v : Addr) (s : State) {b : Addr} (h0 : b ≠ stackSlot s 0) (h1 : b ≠ stackSlot s 1) :
    (stacked2 v s).stored b = s.stored b ∧ (stacked2 v s).mem.read b = s.mem.read b := by
  obtain ⟨hstored0, hread0⟩ := (busWrite_storedAt (stackSlot s 0) (hiByte v) s).elsewhere b h0
  obtain ⟨hstored1, hread1⟩ := (busWrite_storedAt (stackSlot s 1) (loByte v) _).elsewhere b h1
  exact ⟨hstored1.trans hstored0, hread1.trans hread0⟩

/-- The two bytes, where memory answers at them. -/
theorem stacked2_saved (v : Addr) {s : State} (hw : s.mem.wf = true) (h0 : s.target (stackSlot s 0) = .ram)
    (h1 : s.target (stackSlot s 1) = .ram) :
    (stacked2 v s).mem.read (stackSlot s 0) = hiByte v ∧ (stacked2 v s).mem.read (stackSlot s 1) = loByte v := by
  constructor
  · exact (busWrite_read_ne (stackSlot_ne s (by decide)) _ _).trans (busWrite_read_same _ hw h0)
  · exact busWrite_read_same _ (busWrite_wf hw) h1

theorem exec_jsr (target : Addr) (s : State) :
    exec (.jsr target) s = .next ((stacked2 (s.pc + 2) s).goToWithSp (s.sp - 2) target) := by
  change Host.Outcome.next ((pushAddr (s.pc + 2) s).goTo target 6) = _
  rw [pushAddr_eq]
  rfl

theorem exec_rts {s : State} {lo hi : Byte × State} (h : s.sp ≠ s.cfg.spReset)
    (hlo : lo = busRead (s.cfg.stackBase + zeroPage (s.sp + 1)) s)
    (hhi : hi = busRead (s.cfg.stackBase + zeroPage (s.sp + 2)) lo.2) :
    exec .rts s = .next (hi.2.goToWithSp (s.sp + 2) (joinBytes hi.1 lo.1 + 1)) := by
  change execRts s = _
  rw [execRts, if_neg h, pullAddr_eq s lo hi hlo hhi]
  rfl

theorem exec_rts_of_spReset {s : State} (h : s.sp = s.cfg.spReset) :
    exec .rts s = .next { s with outcome := some .subroutineDone } := if_pos h

/-- Settles O31: two bus writes or two bus reads, then a transfer of control that moves `SP`. -/
theorem subroutinesRun : Obligations.SubroutinesRun := by
  refine fun b1 b2 s => ⟨⟨encoded_word rfl b1 b2, ?jsr⟩, encoded_bare rfl, ?rts, exec_rts_of_spReset⟩
  case jsr =>
    rintro _ rfl
    refine ⟨_, exec_jsr _ s, rfl, rfl, rfl, rfl, ⟨rfl, rfl⟩, rfl, rfl, rfl,
      (stacked2_rest _ s).trans (goToWithSp_rest _ _ _), fun r hr => ?_, rfl, fun b h0 h1 => ?_⟩
    · exact (goToWithSp_regsKept _ _ _ r hr).trans (stacked2_regsKept _ s r List.not_mem_nil)
    · rw [(goToWithSp_sameStore _ _ _).stored]
      exact stacked2_elsewhere _ s h0 h1
  case rts =>
    intro hsp lo hi hlo hhi
    obtain ⟨hstore, hrest, hregs, hp⟩ := twoReads_readsOnly hlo hhi
    exact ⟨_, exec_rts hsp hlo hhi, rfl, rfl, rfl, rfl, ⟨rfl, rfl⟩, hrest.trans (goToWithSp_rest _ _ _),
      (hstore.trans (goToWithSp_sameStore _ _ _)).nothingStored,
      fun r hr => (goToWithSp_regsKept _ _ _ r hr).trans (hregs r List.not_mem_nil), hp⟩

/-- `RTS` with the address `v` in the two bytes above `SP`, where memory answers. -/
theorem rts_of_saved {s : State} {v a b : Addr} (hsp : s.sp ≠ s.cfg.spReset)
    (ha : s.cfg.stackBase + zeroPage (s.sp + 1) = a) (hb : s.cfg.stackBase + zeroPage (s.sp + 2) = b)
    (hta : s.target a = .ram) (htb : s.target b = .ram) (hlo : s.mem.read a = loByte v)
    (hhi : s.mem.read b = hiByte v) :
    ∃ u, exec .rts s = .next u ∧ u.pc = v + 1 ∧ u.sp = s.sp + 2 ∧ RegsKept [.sp] s u ∧ u.p = s.p ∧
      RestKept s u := by
  subst ha hb
  obtain ⟨-, -, hreturn, -⟩ := subroutinesRun 0 0 s
  obtain ⟨u, hu, hpc, -, husp, -, -, hrest, -, hregs, hp⟩ := hreturn hsp _ _ rfl rfl
  rw [busRead_ram hta, busRead_ram (s := (busRead _ s).2) htb, busRead_mem, hlo, hhi, joinBytes_hi_lo] at hpc
  exact ⟨u, hu, hpc, husp, hregs, hp, hrest⟩

/-- Settles O32: the two bytes `RTS` reads are those `JSR` stored, and `SP` is back where it was. -/
theorem callThenReturn : Obligations.CallThenReturn := by
  intro target s t hw h0 h1 hspReset hjsr
  obtain ⟨⟨-, hcall⟩, -⟩ := subroutinesRun (loByte target) (hiByte target) s
  obtain ⟨t', ht', -, -, htsp, -, -, htmem, -, -, htrest, htregs, htp, -⟩ := hcall _ rfl
  rw [joinBytes_hi_lo, hjsr] at ht'
  obtain rfl := Host.Outcome.next.inj ht'
  have htarget (b : Addr) : t.target b = s.target b := by rw [State.target, State.target, htrest.cfg]
  have haddrLo : t.cfg.stackBase + zeroPage (t.sp + 1) = stackSlot s 1 := by
    rw [htrest.cfg, htsp, stackSlot, show s.sp - 2 + 1 = s.sp - 1 by bv_omega]
  have haddrHi : t.cfg.stackBase + zeroPage (t.sp + 2) = stackSlot s 0 := by
    rw [htrest.cfg, htsp, stackSlot, show s.sp - 2 + 2 = s.sp - 0 by bv_omega]
  obtain ⟨hhi, hlo⟩ := stacked2_saved (s.pc + 2) hw h0 h1
  rw [stacked2, ← htmem] at hhi hlo
  have hsp : t.sp ≠ t.cfg.spReset := by rwa [htsp, htrest.cfg]
  obtain ⟨u, hrts, hpc, husp, hregs, hp, hrest⟩ :=
    rts_of_saved hsp haddrLo haddrHi ((htarget _).trans h1) ((htarget _).trans h0) hlo hhi
  refine ⟨u, hrts, ?pc, fun r _ => ?regs, hp.trans htp, htrest.trans hrest⟩
  case pc =>
    rw [hpc]
    bv_omega
  case regs =>
    by_cases hr : r = .sp
    · subst hr
      calc u.sp = s.sp - 2 + 2 := by rw [husp, htsp]
        _ = s.sp := by bv_omega
    · have hmem : r ∉ [Reg.sp] := by simpa using hr
      exact (hregs r hmem).trans (htregs r hmem)

end Sys2Proof.Machine
end

section
/-! PROOFS. Stack, flag and system instructions (spec/45_stack_flag_system.md, with the undocumented `NOP`s of 46):
what a pull leaves and what it returns after a push, the shape of each group of instructions, and from these the
statements (O18, O33 to O36). -/

namespace Sys2Proof.Machine

open Sys2Proof Sys2Proof.Laws

/-! ## Pushing and pulling (00 R8, 45 R264) -/

theorem pull_bus (s : State) :
    (pull s).2.bus = s.bus ++ [.read (s.cfg.stackBase + zeroPage (s.sp + 1)) (pulledByte s)] := rfl

theorem pull_outside (s : State) :
    OutsideIs (busRead (s.cfg.stackBase + zeroPage (s.sp + 1)) s).2 (pull s).2 := ⟨rfl, rfl⟩

theorem pull_sameStore (s : State) : SameStore s (pull s).2 := ⟨rfl, rfl, rfl, rfl⟩

theorem pull_rest (s : State) : RestKept s (pull s).2 := by constructor <;> rfl

theorem pull_regsKept (s : State) : RegsKept [.sp] s (pull s).2
  | .sp, h => absurd (List.mem_singleton_self _) h
  | .a, _ | .x, _ | .y, _ => rfl

/-- The slot the next pull reads after a push is the one the push wrote, across both ends of the page. -/
theorem pulledSlot_push (v : Byte) (s : State) :
    (push v s).cfg.stackBase + zeroPage ((push v s).sp + 1) = stackSlot s 0 := by
  rw [push_cfg, push_sp, BitVec.sub_add_cancel]
  exact stackAddr_slot s

theorem pull_push_sp (v : Byte) (s : State) : (pull (push v s)).2.sp = s.sp := by
  rw [pull_sp, push_sp, BitVec.sub_add_cancel]

theorem pull_push_ram (v : Byte) {s : State} (hw : s.mem.wf = true) (ht : s.target (stackSlot s 0) = .ram) :
    (pull (push v s)).1 = v := by
  have hstored : (push v s).stored (stackSlot s 0) = some v := by
    rw [push_eq]
    exact busWrite_stored_ram v hw ht
  rw [pull_eq, pulledByte, pulledSlot_push, State.peek, hstored, Option.getD_some]

/-- Settles O18: the frames of a push and of a pull; at the ends of the page `SP` wraps as a byte. -/
theorem stackDiscipline : Obligations.StackDiscipline := by
  refine fun v s => ⟨push_pushed v s, push_pc v s, rfl, pull_sp s, pull_bus s, pull_outside s,
    (pull_sameStore s).nothingStored, pull_regsKept s, pull_p s, pull_pc s, fun h => ?pushWraps, fun h => ?pullWraps,
    fun hw ht => ⟨pull_push_ram v hw ht, pull_push_sp v s⟩⟩
  case pushWraps =>
    rw [push_sp, h]
    rfl
  case pullWraps =>
    rw [pull_sp, h]
    rfl

/-! ## The pushing and pulling instructions (45 R250 to R253) -/

/-- An instruction that pushes `v`. -/
theorem push_finish_runs (v : Byte) (s : State) :
    Advanced 1 3 s ((push v s).finish 1 3) ∧ RestKept s ((push v s).finish 1 3) ∧
      Pushed v s ((push v s).finish 1 3) := by
  have hrest : RestKept s (push v s) := by constructor <;> rfl
  exact ⟨⟨rfl, rfl⟩, hrest.trans (finish_rest _ _ _),
    (push_pushed v s).congr (finish_store _ _ _) rfl ⟨rfl, rfl⟩ rfl (fun r => by cases r <;> rfl)⟩

/-- An instruction that pulls a byte and then changes registers and flags alone. -/
theorem pull_finish_runs {s u : State} (h : RegsOnly (pull s).2 u) :
    Advanced 1 4 s (u.finish 1 4) ∧ RestKept s (u.finish 1 4) ∧ NothingStored s (u.finish 1 4) ∧
      (u.finish 1 4).bus = s.bus ++ [.read (s.cfg.stackBase + zeroPage (s.sp + 1)) (pulledByte s)] ∧
      OutsideIs (busRead (s.cfg.stackBase + zeroPage (s.sp + 1)) s).2 (u.finish 1 4) := by
  obtain ⟨hstore, hrest, hpc, hbus, houtside⟩ := h
  refine ⟨⟨?pc, rfl⟩, (pull_rest s).trans (hrest.trans (finish_rest _ _ _)),
    ((pull_sameStore s).trans (hstore.trans (finish_store _ _ _))).nothingStored, hbus.trans (pull_bus s),
    (pull_outside s).trans (houtside.trans ⟨rfl, rfl⟩)⟩
  case pc => rw [State.finish_pc, hpc, pull_pc]

theorem exec_pla (s : State) : exec .pla s = .next (((pull s).2.loadA (pulledByte s)).finish 1 4) := rfl

theorem exec_plp (s : State) : exec .plp s = .next ({ (pull s).2 with p := pulledByte s }.finish 1 4) := rfl

theorem pla_regsKept (s : State) : RegsKept [.a, .sp] s (((pull s).2.loadA (pulledByte s)).finish 1 4) := by
  intro r hr
  cases r with
  | a | sp => simp at hr
  | x | y => rfl

/-- Settles O33: a push of the register, or a pull and then the registers it changes. -/
theorem pushesAndPullsRun : Obligations.PushesAndPullsRun := by
  refine ⟨encoded_bare rfl, encoded_bare rfl, encoded_bare rfl, encoded_bare rfl,
    fun s => ⟨?pha, ?php, ?pla, ?plp⟩⟩
  case pha => exact ⟨_, rfl, push_finish_runs s.a s⟩
  case php => exact ⟨_, rfl, push_finish_runs s.p s⟩
  case pla =>
    obtain ⟨hadvanced, hrest, hstored, hbus, houtside⟩ :=
      pull_finish_runs ((pull s).2.loadA_regsOnly (pulledByte s))
    exact ⟨_, exec_pla s, hadvanced, hrest, rfl, rfl, .of_setNZ rfl, pla_regsKept s, .setNZ rfl, hstored, hbus,
      houtside⟩
  case plp =>
    obtain ⟨hadvanced, hrest, hstored, hbus, houtside⟩ :=
      pull_finish_runs (regsOnly_updateP (pulledByte s) (pull s).2)
    exact ⟨_, exec_plp s, hadvanced, hrest, rfl, rfl,
      fun r hr => (regsKept_updateP (pulledByte s) _ r List.not_mem_nil).trans (pull_regsKept s r hr),
      hstored, hbus, houtside⟩

/-! ## The flag instructions (45 R254 to R260) -/

/-- An implied instruction that writes the flag `f`. -/
theorem flag_runs {i : Instr} {op : Byte} {f : Flag} {v : Bool} (ht : template op = .bare i)
    (he : ∀ s, exec i s = .next (implied (fun s => { s with p := setFlag s.p f v }) s)) : FlagRuns i op f v :=
  implied_runs _ ht he (fun u => regsOnly_updateP _ u) (fun u => regsKept_updateP _ u) (setFlag_flagsKept f v)
    (fun s => (flag_setFlag s.p f f v).trans (if_pos rfl))

/-- Settles O34: the seven differ in the opcode, the flag and its value. -/
theorem flagInstructionsRun : Obligations.FlagInstructionsRun := by
  refine ⟨?_, ?_, ?_, ?_, ?_, ?_, ?_⟩ <;> exact flag_runs rfl (fun _ => rfl)

/-! ## The `NOP`s (45 R261; 46 R296 to R298) -/

theorem RegsOnly.refl (s : State) : RegsOnly s s := ⟨.refl s, .refl s, rfl, rfl, .refl s⟩

theorem RegsKept.refl (w : List Reg) (s : State) : RegsKept w s s := fun _ _ => rfl

/-- An implied instruction without an effect. -/
theorem nop_runs {i : Instr} {op : Byte} (ht : template op = .bare i)
    (he : ∀ s, exec i s = .next (implied id s)) : ImpliedRuns i op 2 [] [] (fun _ _ => True) :=
  implied_runs id ht he .refl (.refl []) (fun _ => .of_p rfl) (fun _ => trivial)

/-- The operand byte was read with the instruction, and nothing is left to do. -/
theorem nopImm_runs {code : Byte} (ht : template code = .byte (.nopImm code)) :
    ImmediateRuns (.nopImm code) code [] [] (fun _ => True) (fun _ s t => t.draws = s.draws) :=
  immediate_runs (fun _ s => s) ht (fun _ _ _ => rfl) (fun _ u => ⟨.refl u, .refl u, rfl, rfl, rfl⟩)
    (fun _ => .refl []) (fun _ _ => .of_p rfl) (fun _ _ _ => rfl)

/-- Settles O35: each form reads its operand, or none, and applies no effect. -/
theorem nopsRun : Obligations.NopsRun := by
  refine ⟨nop_runs rfl (fun _ => rfl), fun code hcode => ?implied, fun code hcode => ?immediate, ?memory⟩
  case implied =>
    have hcells : nopImpliedCodes.map template = nopImpliedCodes.map (fun c => .bare (.nopImplied c)) := rfl
    exact nop_runs (List.map_inj_left.mp hcells code hcode) (fun _ => rfl)
  case immediate =>
    have hcells : nopImmCodes.map template = nopImmCodes.map (fun c => .byte (.nopImm c)) := rfl
    exact nopImm_runs (List.map_inj_left.mp hcells code hcode)
  case memory =>
    exact readRows (fun _ s => s) (rowOk_of_columns rfl rfl rfl) (fun _ _ _ => rfl) (fun _ => .refl)
      (fun _ => .refl []) (fun _ _ => .of_p rfl) (fun _ _ _ _ _ _ _ => trivial)

/-! ## `BRK` and `RTI` (45 R262, R263, R266) -/

theorem exec_brk (s : State) :
    exec .brk s = .next ((takeException (s.pc + 2) (s.p ||| 0x10) s.cfg.irqVector s).spend 7) := rfl

/-- The count of cycles leaves an exception entry as it is. -/
theorem Entered.spend {ret vector : Addr} {status : Byte} {s t : State} (h : Entered ret status vector s t)
    (n : Nat) : Entered ret status vector s (t.spend n) :=
  h.congr rfl rfl rfl ⟨rfl, rfl⟩ (fun r => by cases r <;> rfl) ⟨rfl, rfl, rfl, rfl⟩

/-- One more bus read keeps what bus reads keep. -/
theorem ReadsOnly.busRead {s t : State} (h : ReadsOnly s t) (a : Addr) : ReadsOnly s (busRead a t).2 where
  store := h.store.trans (busRead_sameStore a t)
  rest := h.rest.trans (busRead_rest a t)
  regs r hr := (busRead_regsKept a t r hr).trans (h.regs r hr)
  flags := (busRead_p a t).trans h.flags

/-- Above the reset depth: `P` from the first byte pulled, and a transfer of control that moves `SP`. -/
theorem exec_rti {s : State} {st lo hi : Byte × State} (h : s.sp ≠ s.cfg.spReset)
    (hst : st = busRead (s.cfg.stackBase + zeroPage (s.sp + 1)) s)
    (hlo : lo = busRead (s.cfg.stackBase + zeroPage (s.sp + 2)) st.2)
    (hhi : hi = busRead (s.cfg.stackBase + zeroPage (s.sp + 3)) lo.2) :
    exec .rti s = .next ({ hi.2 with p := st.1 }.goToWithSp (s.sp + 3) (joinBytes hi.1 lo.1)) := by
  change execRti s = _
  rw [execRti, if_neg h, returnFromException_eq s st lo hi hst hlo hhi]
  rfl

theorem exec_rti_of_spReset {s : State} (h : s.sp = s.cfg.spReset) :
    exec .rti s = .next { s with outcome := some .idle } := if_pos h

/-- Settles O36: the entry sequence with `B` set in the pushed byte; three bus reads, then the return. -/
theorem breakAndReturnRun : Obligations.BreakAndReturnRun := by
  refine ⟨encoded_bare rfl, fun s => ?brk, encoded_bare rfl, fun s => ⟨?rti, exec_rti_of_spReset⟩⟩
  case brk =>
    exact ⟨_, exec_brk s, rfl, (takeException_rest _ _ _ s).trans (spend_rest 7 _),
      (takeException_entered _ _ _ s).spend 7⟩
  case rti =>
    intro hsp st lo hi hst hlo hhi
    have hreads : ReadsOnly s hi.2 := hhi ▸ (twoReads_readsOnly hst hlo).busRead _
    obtain ⟨hstore, hrest, hregs, -⟩ := hreads
    have hstatus := regsOnly_updateP st.1 hi.2
    exact ⟨_, exec_rti hsp hst hlo hhi, rfl, rfl, rfl, rfl, rfl, ⟨rfl, rfl⟩,
      hrest.trans (hstatus.rest.trans (goToWithSp_rest _ _ _)),
      (hstore.trans (hstatus.store.trans (goToWithSp_sameStore _ _ _))).nothingStored,
      fun r hr => (goToWithSp_regsKept _ _ _ r hr).trans
        ((regsKept_updateP _ _ r List.not_mem_nil).trans (hregs r List.not_mem_nil))⟩

end Sys2Proof.Machine
end

section
/-! PROOFS. The undocumented instructions (spec/46_undocumented.md): the read-modify-write combinations (O37), the
unstable ones (O40), the jam (O38) and the combinations of immediate class (O39). -/

namespace Sys2Proof.Machine

open Sys2Proof

/-! ## Flag frames composed -/

theorem FlagsKept.mono {w w' : List Flag} {s t : State} (h : FlagsKept w s t) (hw : w ⊆ w') : FlagsKept w' s t :=
  fun g hg => h g fun hmem => hg (hw hmem)

theorem FlagsKept.trans {w : List Flag} {s t u : State} (h : FlagsKept w s t) (k : FlagsKept w t u) :
    FlagsKept w s u :=
  fun g hg => (k g hg).trans (h g hg)

/-- One more flag of the listed ones is written. -/
theorem FlagsKept.thenSetFlag {w : List Flag} {s t : State} (h : FlagsKept w s t) {f : Flag} (hf : f ∈ w)
    (v : Bool) : FlagsKept w s { t with p := setFlag t.p f v } :=
  h.trans ((setFlag_flagsKept f v t).mono (List.cons_subset.mpr ⟨hf, List.nil_subset _⟩))

/-! ## Read-modify-write combinations (46 R282 to R287) -/

/-- A table of instructions that write back `byte` of the byte read, carry the bit `out` of it to `C`, and load the
accumulator with `combine` of itself and the byte written; `byte` looks at no field that reading it changed. -/
theorem combineRows {f : Byte → Operand → Instr} {rows : List Row} (byte : Byte → State → Byte) (out : Byte → Bool)
    (combine : Byte → Byte → Byte)
    (hbyte : ∀ m s e b d, byte m { s with ext := e, bus := b, draws := d } = byte m s)
    (hr : ∀ r ∈ rows, RowOk f .rmw r)
    (he : ∀ op o s, exec (f op o) s = .next (rmwWith o (fun m s =>
      (byte m s, { s with p := setFlag s.p .c (out m) }.loadA (combine s.a (byte m s)))) s)) :
    RowsRun f rows (RmwEffect [.a] [.n, .z, .c] byte
      (fun m s t => t.a = combine s.a (byte m s) ∧ flag t.p .c = out m ∧ NZIs t.a t)) :=
  rmwRows _ hr he (fun _ u => regsOnly_update _ u.x u.y u.sp _ u) hbyte (fun _ u => regsKept_updateA _ _ u)
    (fun _ _ => .setNZ_carry rfl)
    (fun _ _ _ _ m s e b d => ⟨congrArg (combine s.a) (hbyte m s e b d), by simp, .of_setNZ rfl⟩)

/-- Settles O37: three load the accumulator; RRA, DCP and ISC end as `ADC`, `CMP` and `SBC` do. -/
theorem combinedInstructionsRun : Obligations.CombinedInstructionsRun := by
  refine ⟨?slo, ?rla, ?sre, ?rra, ?dcp, ?isc⟩
  case slo =>
    exact combineRows (fun m _ => m <<< 1) (·.getLsbD 7) (· ||| ·) (fun _ _ _ _ _ => rfl)
      (rowOk_of_columns rfl rfl rfl) (fun _ _ _ => rfl)
  case rla =>
    exact combineRows (fun m s => m <<< 1 ||| (if flag s.p .c then 0x01 else 0x00)) (·.getLsbD 7) (· &&& ·)
      (fun _ _ _ _ _ => rfl) (rowOk_of_columns rfl rfl rfl) (fun _ _ _ => rfl)
  case sre =>
    exact combineRows (fun m _ => m >>> 1) (·.getLsbD 0) (· ^^^ ·) (fun _ _ _ _ _ => rfl)
      (rowOk_of_columns rfl rfl rfl) (fun _ _ _ => rfl)
  case rra =>
    refine rmwRows _ (rowOk_of_columns rfl rfl rfl) (fun _ _ _ => rfl)
      (fun _ u => regsOnly_update _ u.x u.y u.sp _ u) (fun _ _ _ _ _ => rfl) (fun _ u => regsKept_updateA _ _ u)
      (fun m u => ?flags) (fun _ _ _ _ m s _ _ _ r hr => ?result)
    case flags => exact ((FlagsKept.of_p rfl).thenSetFlag (by decide) _).trans (addA_flagsKept _ _)
    case result =>
      subst hr
      exact adcResult _ { s with p := setFlag s.p .c (m.getLsbD 0) } _ rfl rfl
  case dcp =>
    exact rmwRows _ (rowOk_of_columns rfl rfl rfl) (fun _ _ _ => rfl) (fun _ u => regsOnly_updateP _ u)
      (fun _ _ _ _ _ => rfl) (fun _ u => regsKept_updateP _ u) (fun _ _ => .compare rfl)
      (fun _ _ _ _ _ _ _ _ _ => .of_compare rfl)
  case isc =>
    exact rmwRows _ (rowOk_of_columns rfl rfl rfl) (fun _ _ _ => rfl) (fun m u => u.subA_regsOnly (m + 1))
      (fun _ _ _ _ _ => rfl) (fun _ u => regsKept_updateA _ _ u) (fun m u => subA_flagsKept (m + 1) u)
      (fun _ _ _ _ m s _ _ _ => sbcResult (m + 1) s _ rfl rfl)

/-! ## Instructions with an immediate byte (46 R290 to R293) -/

/-- An instruction with an immediate byte on registers and flags alone draws no free value. -/
theorem immediateRegs_runs {i : Byte → Instr} {op : Byte} {regs : List Reg} {flags : List Flag} {Pre : State → Prop}
    {Result : Byte → State → State → Prop} (g : Byte → State → State) (ht : template op = .byte i)
    (he : ∀ m s, Pre s → exec (i m) s = .next (readWith (.imm m) g s)) (hg : ∀ m u, RegsOnly u (g m u))
    (hregs : ∀ m u, RegsKept regs u (g m u)) (hflags : ∀ m u, FlagsKept flags u (g m u))
    (hres : ∀ m s, Pre s → Result m s ((g m s).finish 2 2)) :
    ImmediateRuns i op regs flags Pre (fun m s t => t.draws = s.draws ∧ Result m s t) := by
  refine immediate_runs g ht he (fun m u => ?_) hregs hflags (fun m s hp => ⟨(hg m s).outside.2, hres m s hp⟩)
  obtain ⟨hstore, hrest, hpc, hbus, hext, -⟩ := hg m u
  exact ⟨hstore, hrest, hpc, hbus, hext⟩

theorem anc_runs {code : Byte} (ht : template code = .byte (.anc code)) :
    ImmediateRuns (.anc code) code [.a] [.n, .z, .c] (fun _ => True) (fun m s t =>
      t.draws = s.draws ∧ t.a = s.a &&& m ∧ NZIs t.a t ∧ flag t.p .c = t.a.msb) :=
  immediateRegs_runs _ ht (fun _ _ _ => rfl) (fun _ u => regsOnly_update _ u.x u.y u.sp _ u)
    (fun _ u => regsKept_updateA _ _ u)
    (fun _ _ => ((FlagsKept.setNZ rfl).mono (by decide)).thenSetFlag (by decide) _)
    (fun _ _ _ => ⟨rfl, by simp [NZIs], by simp⟩)

/-- `AND`, then `LSR` of the accumulator. -/
theorem alr_runs : ImmediateRuns .alr 0x4B [.a] [.n, .z, .c] (fun _ => True) (fun m s t =>
    t.draws = s.draws ∧ t.a = (s.a &&& m) >>> 1 ∧ flag t.p .c = (s.a &&& m).getLsbD 0 ∧
      flag t.p .n = false ∧ flag t.p .z = (t.a == 0)) :=
  immediateRegs_runs _ rfl (fun _ _ _ => rfl) (fun _ u => regsOnly_update _ u.x u.y u.sp _ u)
    (fun _ u => regsKept_updateA _ _ u) (fun m u => shiftRight_shiftsTo.kept (u.a &&& m) u)
    (fun m s _ => ⟨rfl, shiftRight_shiftsTo.post (s.a &&& m) s _ rfl⟩)

/-- `C` and `V` come from the result's bits 6 and 5. -/
theorem arr_runs : ImmediateRuns .arr 0x6B [.a] [.n, .v, .z, .c] (fun s => flag s.p .d = false) (fun m s t =>
    t.draws = s.draws ∧ t.a = (s.a &&& m) >>> 1 ||| (if flag s.p .c then 0x80 else 0x00) ∧ NZIs t.a t ∧
      flag t.p .c = t.a.getLsbD 6 ∧ flag t.p .v = (t.a.getLsbD 6 ^^ t.a.getLsbD 5)) :=
  immediateRegs_runs _ rfl (fun _ _ hd => if_neg (by simp [hd])) (fun _ u => regsOnly_update _ u.x u.y u.sp _ u)
    (fun _ u => regsKept_updateA _ _ u)
    (fun _ _ => (((FlagsKept.setNZ rfl).mono (by decide)).thenSetFlag (by decide) _).thenSetFlag (by decide) _)
    (fun _ _ _ => ⟨rfl, by simp [NZIs], by simp, by simp⟩)

theorem sbx_runs : ImmediateRuns .sbx 0xCB [.x] [.n, .z, .c] (fun _ => True) (fun m s t =>
    t.draws = s.draws ∧ t.x = (s.a &&& s.x) - m ∧ NZIs t.x t ∧
      flag t.p .c = decide (m.toNat ≤ (s.a &&& s.x).toNat)) :=
  immediateRegs_runs _ rfl (fun _ _ _ => rfl) (fun _ u => regsOnly_update u.a _ u.y u.sp _ u)
    (fun _ u => u.loadX_regsKept _) (fun _ _ => .setNZ_carry rfl) (fun _ _ _ => ⟨rfl, .of_setNZ rfl, by simp⟩)

/-! ## `LAS` (46 R295) -/

theorem cycleCount_read_aby (k : Bool) : cycleCount .read .aby k = if k then 5 else 4 := by cases k <;> rfl

theorem exec_las (a : Addr) (s : State) :
    exec (.las a) s = .next (readWith (.aby a)
      (fun m s => { s with x := m &&& s.sp, sp := m &&& s.sp }.loadA (m &&& s.sp)) s) := rfl

theorem las_runs (b1 b2 : Byte) (s : State) :
    ∃ t, exec (.las (joinBytes b2 b1)) s = .next t ∧
      Advanced 3 (if (locate (.aby (joinBytes b2 b1)) s).1.crossed then 5 else 4) s t ∧ RestKept s t ∧
      ReadEffect [.a, .x, .sp] [.n, .z] (fun m s t => t.a = m &&& s.sp ∧ t.x = m &&& s.sp ∧ t.sp = m &&& s.sp ∧
        NZIs (m &&& s.sp) t) (.aby (joinBytes b2 b1)) s t := by
  obtain ⟨hadvanced, hrest, hbus, houtside, hstored⟩ :=
    readWith_runs (fun m u => regsOnly_update (m &&& u.sp) (m &&& u.sp) u.y (m &&& u.sp) (setNZ (m &&& u.sp) u.p) u)
      (.aby (joinBytes b2 b1)) s
  rw [← cycleCount_read_aby]
  refine ⟨_, exec_las _ s, hadvanced, hrest, hbus, houtside, hstored, fun r hr => ?regs,
    readWith_flagsKept (fun _ _ => .setNZ rfl) _ s, rfl, rfl, rfl, .of_setNZ rfl⟩
  case regs =>
    cases r with
    | a | x | sp => simp at hr
    | y => rfl

/-- Settles O39: four registers-and-flags effects on the immediate byte; LAS is a read-class instruction. -/
theorem immediateCombinationsRun : Obligations.ImmediateCombinationsRun := by
  refine ⟨fun code hcode => ?anc, alr_runs, arr_runs, sbx_runs,
    fun b1 b2 s => ⟨encoded_word rfl b1 b2, las_runs b1 b2 s⟩⟩
  case anc =>
    have hcells : ancCodes.map template = ancCodes.map (fun c => .byte (.anc c)) := rfl
    exact anc_runs (List.map_inj_left.mp hcells code hcode)

/-! ## The unstable instructions (46 R299 to R305) -/

/-- A drawn byte used up, and new values in registers and `P`. -/
theorem drawnUpdate_frame (a x p : Byte) {s t : State} (h : t = { (drawByte s).2 with a := a, x := x, p := p }) :
    SameStore s t ∧ RestKept s t ∧ t.pc = s.pc ∧ t.bus = s.bus ∧ t.ext = s.ext := by
  subst h
  exact ⟨⟨rfl, rfl, rfl, rfl⟩, by constructor <;> rfl, rfl, rfl, rfl⟩

theorem ane_runs : ImmediateRuns .ane 0x8B [.a] [.n, .z] (fun s => s.cfg.unstableAdmitted = true) (fun m s t =>
    t.draws = s.draws + 1 ∧ t.a = (s.a ||| Config.draw s.draws) &&& s.x &&& m ∧ NZIs t.a t ∧
      (m = 0 → t.a = 0)) := by
  refine immediate_runs _ rfl (fun _ _ h => if_pos h) (fun _ u => drawnUpdate_frame _ u.x _ rfl)
    (fun _ u => (drawByte u).2.loadA_regsKept _) (fun _ _ => .setNZ rfl)
    (fun m s _ => ⟨rfl, rfl, .of_setNZ rfl, fun hm => ?zero⟩)
  case zero =>
    subst hm
    exact BitVec.and_zero

theorem lxa_runs : ImmediateRuns .lxa 0xAB [.a, .x] [.n, .z] (fun s => s.cfg.unstableAdmitted = true) (fun m s t =>
    t.draws = s.draws + 1 ∧ t.a = (s.a ||| Config.draw s.draws) &&& m ∧ t.x = t.a ∧ NZIs t.a t) := by
  refine immediate_runs _ rfl (fun _ _ h => if_pos h) (fun _ u => drawnUpdate_frame _ _ _ rfl)
    (fun _ u r hr => ?regs) (fun _ _ => .setNZ rfl) (fun _ _ _ => ⟨rfl, rfl, rfl, .of_setNZ rfl⟩)
  case regs =>
    cases r with
    | a | x => simp at hr
    | y | sp => rfl

/-- An unstable store whose unindexed address has the high byte `hi`. -/
theorem unstableStore_runs_of_baseHi {o : Operand} {hi : Byte} {s : State} (reg : State → Byte)
    (hbase : (locate o s).1.baseHi = hi) (hreg : reg (locate o s).2 = reg s) :
    Advanced (opLength o) (cycleCount .write o.mode (locate o s).1.crossed) s (unstableStore o reg s) ∧
      RestKept s (unstableStore o reg s) ∧ MaskedStoreEffect [] (reg s &&& (hi + 1)) o s (unstableStore o reg s) :=
  hbase ▸ unstableStore_runs o s hreg

/-- `TAS` first sets `SP`, which neither the effective address nor the bus looks at. -/
theorem tas_runs (b1 b2 : Byte) {s : State} (h : s.cfg.unstableAdmitted = true) :
    ∃ t, exec (.tas (joinBytes b2 b1)) s = .next t ∧ Advanced 3 5 s t ∧ RestKept s t ∧ t.sp = s.a &&& s.x ∧
      MaskedStoreEffect [.sp] (s.a &&& s.x &&& (b2 + 1)) (.aby (joinBytes b2 b1)) s t := by
  have hsp := regsOnly_update s.a s.x s.y (s.a &&& s.x) s.p s
  obtain ⟨hadvanced, hrest, hbus, houtside, hstored, -, hp⟩ :=
    unstableStore_runs_of_baseHi (o := .aby (joinBytes b2 b1)) (s := { s with sp := s.a &&& s.x }) State.sp
      (Located.indexed_baseHi b2 b1 s.y) rfl
  refine ⟨_, if_pos h, hadvanced, hsp.rest.trans hrest, rfl, hbus, houtside, hstored.congr hsp.store (.refl _),
    fun r hr => ?regs, hp⟩
  case regs =>
    cases r with
    | sp => simp at hr
    | a | x | y => rfl

/-- Settles O40: two instructions that draw a byte, then the stores, which differ in mode and register. -/
theorem unstableInstructionsRun : Obligations.UnstableInstructionsRun := by
  refine ⟨ane_runs, lxa_runs, fun b1 b2 s h => ⟨⟨?wordsIzy, _, if_pos h, ?shaIzy⟩, ⟨?wordsAby, _, if_pos h, ?shaAby⟩,
    ⟨?wordsShx, _, if_pos h, ?shx⟩, ⟨?wordsShy, _, if_pos h, ?shy⟩, ?wordsTas, tas_runs b1 b2 h⟩⟩
  case wordsIzy => exact encoded_mem (op := 0x93) (m := .izy) rfl b1 0
  case wordsAby => exact encoded_mem (op := 0x9F) (m := .aby) rfl b1 b2
  case wordsShx | wordsShy | wordsTas => exact encoded_word rfl b1 b2
  case shaIzy =>
    exact unstableStore_runs (.izy b1) s (congrArg₂ (· &&& ·) (locate_a _ s) (locate_x _ s))
  case shaAby => exact unstableStore_runs_of_baseHi _ (Located.indexed_baseHi b2 b1 s.y) rfl
  case shx => exact unstableStore_runs_of_baseHi _ (Located.indexed_baseHi b2 b1 s.y) rfl
  case shy => exact unstableStore_runs_of_baseHi _ (Located.indexed_baseHi b2 b1 s.x) rfl

/-! ## The jam (46 R280, 60 R434) -/

/-- What a jammed processor's round without a host event leaves: the outputs of the last round cleared, `Jammed`
reported, everything else as it stood (60 R434, R452). -/
def State.jammedRound (s : State) : State :=
  { s with
    pending := s.pending.tail, outcome := some .jammed, taken := false, bus := [], pairs := [], samples := [] }

theorem step_of_jammed {s : State} (hj : s.jammed = true) (he : s.pending.headI = []) (hd : inDomain s.cfg = true) :
    step s = .next s.jammedRound := by
  have hround : s.roundInDomain = true := by simp [State.roundInDomain, hd, he]
  rw [step_of_roundInDomain hround, beginRound, he]
  simp [hostEvents, serviceAndRun, serviceInterrupts, hj, State.jammedRound]

/-- Settles O38: the twelve opcodes against the matrix; a jammed round clears the report and consumes no event. -/
theorem jammedIsStuck : Obligations.JammedIsStuck := by
  refine ⟨fun code hcode => ⟨?encoded, fun _ => rfl⟩, fun s hj he hd => ?round⟩
  case encoded =>
    have hcells : jamCodes.map template = jamCodes.map (fun c => .bare (.jam c)) := rfl
    exact encoded_bare (List.map_inj_left.mp hcells code hcode)
  case round =>
    have hstore : SameStore s s.jammedRound := ⟨rfl, rfl, rfl, rfl⟩
    exact ⟨_, step_of_jammed hj he hd, rfl, rfl, rfl, hj, rfl, rfl, fun r _ => by cases r <;> rfl, rfl,
      hstore.nothingStored, ⟨rfl, rfl⟩, rfl, rfl, rfl, rfl, rfl, rfl, rfl⟩

end Sys2Proof.Machine
end

section
/-! PROOFS. The oscillators (spec/47_sid_oscillator.md) and the advance of the three channels (47 R331, 49 R391, R392):
what a step leaves in each field (O48), the waveforms as numbers (O49), the noise register (O50), the chain of the
carried bits and the routing (O47), and the advance of 0 cycles (O54). -/

namespace Sys2Proof.Machine

open Sys2Proof

/-! ## Phase and noise register (47 R332 to R334) -/

theorem toNat_advancePhase (test sync rise : Bool) (freq : BitVec 16) (n : Nat) (ph : Phase) :
    (advancePhase test sync freq n rise ph).toNat =
      if (sync = true ∧ rise = true) ∨ test = true then 0 else (ph.toNat + freq.toNat * n) % 2 ^ 24 := by
  by_cases hsync : sync = true ∧ rise = true
  · simp [advancePhase, hsync]
  · cases test <;> simp [advancePhase, hsync, BitVec.toNat_add]

theorem advancePhase_test (sync rise : Bool) (freq : BitVec 16) (n : Nat) (ph : Phase) :
    advancePhase true sync freq n rise ph = 0 := ite_self 0

/-- The bit shifted in does not overlap the shifted register. -/
theorem toNat_shiftLeft_one_or (l : Lfsr) (b : Bool) :
    (l <<< 1 ||| (if b then 1#23 else 0)).toNat = (2 * l.toNat + if b then 1 else 0) % 2 ^ 23 := by
  have hdisjoint : l <<< 1 &&& (if b then 1#23 else 0) = 0 := by
    apply BitVec.eq_of_getLsbD_eq
    intro i _
    cases b <;> by_cases h0 : i = 0 <;> simp [h0, BitVec.getLsbD_one]
  rw [← BitVec.add_eq_or_of_and_eq_zero _ _ hdisjoint]
  cases b <;> simp [BitVec.toNat_add, Nat.shiftLeft_eq, Nat.mul_comm]

theorem toNat_clockNoise (l : Lfsr) :
    (clockNoise l).toNat = (2 * l.toNat + if l.getLsbD 22 = l.getLsbD 17 then 0 else 1) % 2 ^ 23 := by
  rw [clockNoise, toNat_shiftLeft_one_or]
  simp only [bne_iff_ne, ite_not]

theorem advanceNoise_test (b : Fin 24) (prev ph : Phase) (l : Lfsr) : advanceNoise true b prev ph l = 0x7FFFFF := rfl

theorem advanceNoise_toggled {b : Fin 24} {prev ph : Phase} (h : ph.getLsbD b.val ≠ prev.getLsbD b.val) (l : Lfsr) :
    advanceNoise false b prev ph l = clockNoise l := by
  rw [advanceNoise, if_neg Bool.false_ne_true, if_pos (bne_iff_ne.mpr h)]

theorem advanceNoise_stands {b : Fin 24} {prev ph : Phase} (h : ph.getLsbD b.val = prev.getLsbD b.val) (l : Lfsr) :
    advanceNoise false b prev ph l = l := by
  rw [advanceNoise, if_neg Bool.false_ne_true, if_neg (fun hne => bne_iff_ne.mp hne h)]

/-- R346 (c): the register never becomes 0. -/
theorem advanceNoise_ne_zero (test : Bool) (b : Fin 24) (prev ph : Phase) {l : Lfsr} (h : l ≠ 0) :
    advanceNoise test b prev ph l ≠ 0 := by
  unfold advanceNoise
  split
  · decide
  · split
    · exact clockNoise_ne_zero h
    · exact h

/-! ## One oscillator step, field by field (47 R332 to R342, R345) -/

theorem oscStep_zero (cfg : Config) (t : Sid) (c : Fin 3) (k : Carried) (ch : Channel) :
    oscStep cfg t c 0 k ch =
      ({ ch with waveOut := oscWave cfg t c k.ringMsb ch }, ⟨k.syncRise, phaseMsb ch.phase⟩) := rfl

/-- It writes the two phases, the noise register and the sample. -/
theorem oscStep_frame (cfg : Config) (t : Sid) (c : Fin 3) (n : Nat) (k : Carried) (ch : Channel) :
    ∃ prev ph l w, (oscStep cfg t c n k ch).1 =
      { ch with prevPhase := prev, phase := ph, lfsr := l, waveOut := w } := by
  cases n <;> exact ⟨_, _, _, _, rfl⟩

theorem oscStep_ringMsb (cfg : Config) (t : Sid) (c : Fin 3) (n : Nat) (k : Carried) (ch : Channel) :
    (oscStep cfg t c n k ch).2.ringMsb = (oscStep cfg t c n k ch).1.phase.getLsbD 23 := rfl

theorem oscStep_waveOut (cfg : Config) (t : Sid) (c : Fin 3) (n : Nat) (k : Carried) (ch : Channel) :
    (oscStep cfg t c n k ch).1.waveOut =
      selectWave cfg.chipModel (t.selector c)
        (triangleWave (t.ringBit c) k.ringMsb (oscStep cfg t c n k ch).1.phase)
        (sawWave (oscStep cfg t c n k ch).1.phase)
        (pulseWave (t.pulseWidth c) (oscStep cfg t c n k ch).1.phase)
        (noiseWave (oscStep cfg t c n k ch).1.lfsr) ch.waveOut := by
  cases n <;> rfl

section Moving

variable {n : Nat} (hn : 1 ≤ n) (cfg : Config) (t : Sid) (c : Fin 3) (k : Carried) (ch : Channel)
include hn

theorem oscMove_of_pos (rise : Bool) : oscMove cfg t c n rise ch =
    { ch with
      prevPhase := ch.phase
      phase := advancePhase (t.testBit c) (t.syncBit c) (t.freq c) n rise ch.phase
      lfsr := advanceNoise (t.testBit c) cfg.noiseClkBit ch.phase
        (advancePhase (t.testBit c) (t.syncBit c) (t.freq c) n rise ch.phase) ch.lfsr } :=
  if_neg (Nat.one_le_iff_ne_zero.mp hn)

theorem oscStep_prevPhase : (oscStep cfg t c n k ch).1.prevPhase = ch.phase :=
  congrArg Channel.prevPhase (oscMove_of_pos hn cfg t c ch k.syncRise)

theorem oscStep_phase : (oscStep cfg t c n k ch).1.phase =
    advancePhase (t.testBit c) (t.syncBit c) (t.freq c) n k.syncRise ch.phase :=
  congrArg Channel.phase (oscMove_of_pos hn cfg t c ch k.syncRise)

theorem oscStep_lfsr : (oscStep cfg t c n k ch).1.lfsr =
    advanceNoise (t.testBit c) cfg.noiseClkBit ch.phase (oscStep cfg t c n k ch).1.phase ch.lfsr := by
  rw [oscStep_phase hn]
  exact congrArg Channel.lfsr (oscMove_of_pos hn cfg t c ch k.syncRise)

theorem oscStep_syncRise : (oscStep cfg t c n k ch).2.syncRise =
    (!ch.phase.getLsbD 23 && (oscStep cfg t c n k ch).1.phase.getLsbD 23) :=
  if_neg (Nat.one_le_iff_ne_zero.mp hn)

end Moving

/-- Settles O48: at least one cycle and none apart, each field by its own lemma. -/
theorem oscillatorSteps : Obligations.OscillatorSteps := by
  rintro cfg t c n k ch r rfl
  refine ⟨fun hn => ?moving, fun hn => ?standing, oscStep_ringMsb cfg t c n k ch, ?frame⟩
  case moving =>
    have hlfsr := oscStep_lfsr hn cfg t c k ch
    refine ⟨oscStep_prevPhase hn .., ?phase, oscStep_syncRise hn .., fun htest => ?test, fun htest h => ?toggled,
      fun htest h => ?stands⟩
    case phase => rw [oscStep_phase hn, toNat_advancePhase]
    case test => rw [hlfsr, htest, advanceNoise_test]
    case toggled => rw [hlfsr, htest, advanceNoise_toggled h, toNat_clockNoise]
    case stands => rw [hlfsr, htest, advanceNoise_stands h]
  case standing =>
    subst hn
    rw [oscStep_zero]
    exact ⟨rfl, rfl, rfl, rfl⟩
  case frame =>
    obtain ⟨prev, ph, l, w, h⟩ := oscStep_frame cfg t c n k ch
    rw [h]
    exact ⟨rfl, rfl, rfl, rfl, rfl, rfl, rfl, rfl⟩

/-! ## The waveforms (47 R336 to R341) -/

theorem toNat_sawWave (ph : Phase) : (sawWave ph).toNat = ph.toNat / 2 ^ 12 := by
  rw [sawWave, BitVec.extractLsb'_toNat, Nat.shiftRight_eq_div_pow]
  omega

theorem toNat_triangleWave (ring ringMsb : Bool) (ph : Phase) :
    (triangleWave ring ringMsb ph).toNat =
      (if (ph.getLsbD 23 ^^ (ring && ringMsb)) = true then 2 ^ 24 - 1 - ph.toNat else ph.toNat) / 2 ^ 11 % 2 ^ 12 := by
  simp only [triangleWave, phaseMsb, Bool.bne_eq_xor]
  split <;> simp only [BitVec.extractLsb'_toNat, BitVec.toNat_not, Nat.shiftRight_eq_div_pow]

/-- R339: eight bits of the register above four zero bits, and no other sample has them. -/
theorem eq_noiseWave {w : Wave} {l : Lfsr} (hlow : ∀ i, i < 4 → w.getLsbD i = false)
    (h11 : w.getLsbD 11 = l.getLsbD 20) (h10 : w.getLsbD 10 = l.getLsbD 18) (h9 : w.getLsbD 9 = l.getLsbD 14)
    (h8 : w.getLsbD 8 = l.getLsbD 11) (h7 : w.getLsbD 7 = l.getLsbD 9) (h6 : w.getLsbD 6 = l.getLsbD 5)
    (h5 : w.getLsbD 5 = l.getLsbD 2) (h4 : w.getLsbD 4 = l.getLsbD 0) : w = noiseWave l := by
  apply BitVec.eq_of_getLsbD_eq
  intro i hi
  by_cases h : i < 4
  · rw [hlow i h, noiseWave, getLsbD_append_low _ _ h, BitVec.getLsbD_zero]
  · interval_cases i <;>
      simp only [noiseWave, BitVec.getLsbD_append, BitVec.getLsbD_extractLsb', h11, h10, h9, h8, h7, h6, h5, h4] <;>
      rfl

/-- R340, R341: what the selector picks. -/
theorem selectWave_cases (m : ChipModel) (sel : BitVec 4) (tri saw pul noi held : Wave) :
    (sel = 0b0000 → selectWave m sel tri saw pul noi held = held) ∧
    (sel = 0b0001 → selectWave m sel tri saw pul noi held = tri) ∧
    (sel = 0b0010 → selectWave m sel tri saw pul noi held = saw) ∧
    (sel = 0b0100 → selectWave m sel tri saw pul noi held = pul) ∧
    (sel = 0b1000 → selectWave m sel tri saw pul noi held = noi) ∧
    (sel ∉ [0b0000, 0b0001, 0b0010, 0b0100, 0b1000] →
      selectWave m sel tri saw pul noi held = Config.combined m sel tri saw pul noi) := by
  refine ⟨?_, ?_, ?_, ?_, ?_, fun h => ?several⟩
  case several =>
    simp only [List.mem_cons, List.not_mem_nil, or_false, not_or] at h
    obtain ⟨h0, h1, h2, h4, h8⟩ := h
    rw [selectWave, if_neg h0, if_neg h1, if_neg h2, if_neg h4, if_neg h8]
  all_goals
    rintro rfl
    rfl

/-- Settles O49: the four samples are the model's, and the selector picks among them. -/
theorem waveformsAreGenerated : Obligations.WaveformsAreGenerated := by
  rintro cfg t c n k ch r tri saw pul noi rfl htri hsaw hpul hlow h11 h10 h9 h8 h7 h6 h5 h4
  obtain rfl := BitVec.eq_of_toNat_eq (htri.trans (toNat_triangleWave _ _ _).symm)
  obtain rfl := BitVec.eq_of_toNat_eq (hsaw.trans (toNat_sawWave _).symm)
  obtain rfl : pul = pulseWave (t.pulseWidth c) (oscStep cfg t c n k ch).1.phase := hpul
  obtain rfl := eq_noiseWave hlow h11 h10 h9 h8 h7 h6 h5 h4
  rw [oscStep_waveOut]
  exact selectWave_cases ..

/-- Settles O50: the test bit by the lemmas of a step, the first two clocks by evaluation, then the two cases of
the number of cycles. -/
theorem noiseProperties : Obligations.NoiseProperties := by
  rintro cfg t c n k ch r rfl
  refine ⟨fun hn htest => ?test, rfl, rfl, fun h => ?nonzero, fun hsel => ?held⟩
  case test =>
    have hlfsr : (oscStep cfg t c n k ch).1.lfsr = 0x7FFFFF := by rw [oscStep_lfsr hn, htest, advanceNoise_test]
    refine ⟨hlfsr, ?_, ?_⟩
    · rw [oscStep_phase hn, htest, advancePhase_test]
    · rw [hlfsr]
      rfl
  case nonzero =>
    rcases Nat.eq_zero_or_pos n with rfl | hn
    · exact h
    · rw [oscStep_lfsr hn]
      exact advanceNoise_ne_zero _ _ _ _ h
  case held =>
    obtain ⟨hheld, -⟩ := selectWave_cases cfg.chipModel (t.selector c) _ _ _ _ _
    rw [oscStep_waveOut]
    exact hheld hsel

/-! ## One channel of an advance (47 R331) -/

/-- The two carried bits a sound chip holds. -/
def Sid.carried (t : Sid) : Carried := ⟨t.syncRise, t.ringMsb⟩

/-- One channel's step in an advance, given the carried bits: the envelope, then the oscillator. -/
def channelStep (cfg : Config) (n : Nat) (t : Sid) (c : Fin 3) (k : Carried) : Channel × Carried :=
  oscStep cfg t c n k (envStep cfg t c n t.ch[c])

/-- It looks at the registers and at its own channel. -/
theorem channelStep_congr {u t : Sid} {c : Fin 3} (hregs : u.regs = t.regs) (hch : u.ch[c] = t.ch[c])
    (cfg : Config) (n : Nat) (k : Carried) : channelStep cfg n u c k = channelStep cfg n t c k := by
  rw [channelStep, hch, channelStep]
  generalize t.ch[c] = ch
  cases u
  cases t
  subst hregs
  rfl

/-- Routing looks at the registers. -/
theorem route_congr {u t : Sid} (hregs : u.regs = t.regs) (c : Fin 3) (ch : Channel) (sums : Int × Int) :
    route u c ch sums = route t c ch sums := by
  cases u
  cases t
  subst hregs
  rfl

/-- A channel's part of an advance that began at `t`, when the parts before it have left its channel alone. -/
theorem advanceChannel_eq (cfg : Config) (n : Nat) {c : Fin 3} {t : Sid} {acc : Sid × (Int × Int)}
    (hregs : acc.1.regs = t.regs) (hch : acc.1.ch[c] = t.ch[c]) :
    (advanceChannel cfg n c acc).1.ch[c] = (channelStep cfg n t c acc.1.carried).1 ∧
      (advanceChannel cfg n c acc).1.carried = (channelStep cfg n t c acc.1.carried).2 ∧
      (advanceChannel cfg n c acc).2 = route t c (channelStep cfg n t c acc.1.carried).1 acc.2 := by
  rw [← channelStep_congr hregs hch, ← route_congr hregs]
  exact ⟨advanceChannel_self cfg n c acc, rfl, rfl⟩

theorem channelStep_zero (cfg : Config) (t : Sid) (c : Fin 3) (k : Carried) :
    channelStep cfg 0 t c k =
      ({ t.ch[c] with waveOut := oscWave cfg t c k.ringMsb t.ch[c] }, ⟨k.syncRise, phaseMsb t.ch[c].phase⟩) :=
  oscStep_zero cfg t c k t.ch[c]

/-- The oscillator's step keeps the phase it began at, so the rise it leaves can be read off its channel. -/
theorem channelStep_syncRise {n : Nat} (hn : 1 ≤ n) (cfg : Config) (t : Sid) (c : Fin 3) (k : Carried) :
    (channelStep cfg n t c k).2.syncRise =
      (!(channelStep cfg n t c k).1.prevPhase.getLsbD 23 && (channelStep cfg n t c k).1.phase.getLsbD 23) := by
  rw [channelStep, oscStep_prevPhase hn, oscStep_syncRise hn]

/-! ## The three channels (47 R331, R342) -/

/-- The bits each channel's step takes in an advance of `t`: those the channel before it leaves. -/
def carriedInto (cfg : Config) (n : Nat) (t : Sid) : Fin 3 → Carried
  | 0 => t.carried
  | 1 => (channelStep cfg n t 0 t.carried).2
  | 2 => (channelStep cfg n t 1 (channelStep cfg n t 0 t.carried).2).2

/-- What each channel's step leaves in an advance of `t`. -/
def channelAfter (cfg : Config) (n : Nat) (t : Sid) (c : Fin 3) : Channel × Carried :=
  channelStep cfg n t c (carriedInto cfg n t c)

/-- An advance is the three steps in order: the part of one channel leaves the others' channels alone. -/
theorem sidAdvance_eq (cfg : Config) (n : Nat) (t : Sid) :
    (∀ c : Fin 3, (sidAdvance cfg n t).1.ch[c] = (channelAfter cfg n t c).1) ∧
      (sidAdvance cfg n t).1.carried = (channelAfter cfg n t 2).2 ∧
      (sidAdvance cfg n t).2 = route t 2 (channelAfter cfg n t 2).1
        (route t 1 (channelAfter cfg n t 1).1 (route t 0 (channelAfter cfg n t 0).1 (0, 0))) := by
  have other {c d : Fin 3} (h : d ≠ c) := advanceChannel_other cfg n h
  obtain ⟨ch0, k0, sums0⟩ := advanceChannel_eq cfg n (c := 0) (t := t) (acc := (t, (0, 0))) rfl rfl
  obtain ⟨ch1, k1, sums1⟩ := advanceChannel_eq cfg n (c := 1) (t := t)
    (acc := advanceChannel cfg n 0 (t, (0, 0))) rfl (other (by decide) _)
  obtain ⟨ch2, k2, sums2⟩ := advanceChannel_eq cfg n (c := 2) (t := t)
    (acc := advanceChannel cfg n 1 (advanceChannel cfg n 0 (t, (0, 0)))) rfl
    ((other (by decide) _).trans (other (by decide) _))
  rw [k0] at ch1 k1 sums1
  rw [k1] at ch2 k2 sums2
  rw [sums0] at sums1
  rw [sums1] at sums2
  refine ⟨fun c => ?_, k2, sums2⟩
  match c with
  | 0 => exact (other (by decide) _).trans ((other (by decide) _).trans ch0)
  | 1 => exact (other (by decide) _).trans ch1
  | 2 => exact ch2

/-- At 0 cycles no channel moves, so each takes the rise the advance began with and the MSB the channel before it
had (log 29). -/
theorem carriedInto_zero (cfg : Config) (t : Sid) (c : Fin 3) :
    carriedInto cfg 0 t c = ⟨t.syncRise, if c = 0 then t.ringMsb else t.ch[c - 1].phase.getLsbD 23⟩ := by
  match c with
  | 0 | 1 | 2 => rfl

theorem channelAfter_zero (cfg : Config) (t : Sid) (c : Fin 3) :
    channelAfter cfg 0 t c =
      ({ t.ch[c] with
          waveOut := oscWave cfg t c (if c = 0 then t.ringMsb else t.ch[c - 1].phase.getLsbD 23) t.ch[c] },
        ⟨t.syncRise, phaseMsb t.ch[c].phase⟩) := by
  rw [channelAfter, carriedInto_zero, channelStep_zero]

/-- Settles O54: each channel's step, and the bits channel 2 leaves, at 0 cycles. -/
theorem advanceByZero : Obligations.AdvanceByZero := by
  rintro cfg t c ch rfl
  obtain ⟨hch, hcarried, -⟩ := sidAdvance_eq cfg 0 t
  rw [channelAfter_zero] at hcarried
  rw [hch, channelAfter_zero]
  exact ⟨rfl, rfl, congrArg Carried.syncRise hcarried, congrArg Carried.ringMsb hcarried⟩

/-! ## Samples and routing (49 R391, R392) -/

theorem channelSample_range (ch : Channel) : -522240 ≤ channelSample ch ∧ channelSample ch ≤ 521985 := by
  have hw := ch.waveOut.isLt
  have he := ch.envLevel.isLt
  unfold channelSample
  constructor <;> nlinarith

theorem channelSample_of_level_zero {ch : Channel} (h : ch.envLevel = 0) : channelSample ch = 0 := by
  simp [channelSample, h]

/-- A waveform of 2048 is the centre. -/
theorem channelSample_of_centre {ch : Channel} (h : ch.waveOut = 2048) : channelSample ch = 0 := by
  simp [channelSample, h]

theorem route_of_routed {t : Sid} {c : Fin 3} (h : t.routed c = true) (ch : Channel) (sums : Int × Int) :
    route t c ch sums = (sums.1 + channelSample ch, sums.2) := if_pos h

theorem route_of_direct {t : Sid} {c : Fin 3} (h : t.routed c = false)
    (hmute : ¬ (c = 2 ∧ t.modeVol.getLsbD 7 = true)) (ch : Channel) (sums : Int × Int) :
    route t c ch sums = (sums.1, sums.2 + channelSample ch) := by
  simp only [route, h, Bool.false_eq_true, if_false, Bool.and_eq_true, beq_iff_eq, if_neg hmute]

theorem route_of_muted {t : Sid} (h : t.routed 2 = false) (hmute : t.modeVol.getLsbD 7 = true) (ch : Channel)
    (sums : Int × Int) : route t 2 ch sums = sums := by
  simp only [route, h, Bool.false_eq_true, if_false, hmute, beq_self_eq_true, Bool.and_self, if_true]

/-- Settles O47: the three steps of an advance, what channel 2's leaves, then the samples and the three ways they
go. -/
theorem soundAdvanceAndRouting : Obligations.SoundAdvanceAndRouting := by
  refine ⟨?advance, fun t c ch sums => ?routing⟩
  case advance =>
    rintro cfg n t _ _ _ rfl rfl rfl
    obtain ⟨hch, hcarried, hsums⟩ := sidAdvance_eq cfg n t
    refine ⟨hch 0, hch 1, hch 2, congrArg Carried.syncRise hcarried, congrArg Carried.ringMsb hcarried,
      fun hn => channelStep_syncRise hn cfg t 2 (carriedInto cfg n t 2), fun hn => ?standing,
      oscStep_ringMsb .., hsums, sidAdvance_frame cfg n t⟩
    case standing =>
      subst hn
      exact congrArg (·.2.syncRise) (channelAfter_zero cfg t 2)
  case routing =>
    obtain ⟨hlow, hhigh⟩ := channelSample_range ch
    exact ⟨rfl, hlow, hhigh, channelSample_of_level_zero, channelSample_of_centre, fun h => route_of_routed h ch sums,
      fun h hmute => route_of_direct h hmute ch sums, fun h hmute => route_of_muted h hmute ch sums⟩

end Sys2Proof.Machine
end

section
/-! PROOFS. The envelope generator (spec/48_sid_envelope.md): what a gate edge and a tick do (O51), the rate counter
and the crossing (O52), the run of an attack (O53), and what the envelope's step keeps of a channel (O11). -/

namespace Sys2Proof.Machine

open Sys2Proof

/-! ## The gate edge (48 R371 to R373) -/

theorem gateEdge_rising {ch : Channel} (h : ch.gate = false) (cfg : Config) :
    gateEdge cfg true ch = risingGate cfg ch := by simp [gateEdge, h]

theorem gateEdge_falling {ch : Channel} (h : ch.gate = true) (cfg : Config) :
    gateEdge cfg false ch = fallingGate ch := by simp [gateEdge, h]

theorem gateEdge_none (cfg : Config) (ch : Channel) : gateEdge cfg ch.gate ch = ch := by simp [gateEdge]

/-- The three things a gate bit can be to a channel. -/
theorem gateEdge_cases (cfg : Config) (g : Bool) (ch : Channel) :
    gateEdge cfg g ch = risingGate cfg ch ∨ gateEdge cfg g ch = fallingGate ch ∨ gateEdge cfg g ch = ch := by
  unfold gateEdge
  split
  · exact .inl rfl
  · split
    · exact .inr (.inl rfl)
    · exact .inr (.inr rfl)

/-- An edge touches no counter. -/
theorem gateEdge_rateCounter (cfg : Config) (g : Bool) (ch : Channel) :
    (gateEdge cfg g ch).rateCounter = ch.rateCounter := by
  obtain h | h | h := gateEdge_cases cfg g ch <;> rw [h] <;> rfl

/-! ## One tick (48 R377 to R380) -/

section Tick

variable {cfg : Config} {sustain : BitVec 8} {ch : Channel}

theorem tick_attack (ha : ch.attack = true) (hz : ch.holdZero = false) : tick cfg sustain ch =
    { ch with expCounter := 0, envLevel := ch.envLevel + 1, attack := decide (ch.envLevel + 1 ≠ 255) } := by
  simp [tick, levelUp, ha, hz]

theorem tick_attack_frozen (ha : ch.attack = true) (hz : ch.holdZero = true) :
    tick cfg sustain ch = { ch with expCounter := 0 } := by
  simp [tick, levelUp, ha, hz]

/-- Below the exponential period the tick only counts. -/
theorem tick_counts (ha : ch.attack = false) (hp : (ch.expCounter + 1).toNat < expPeriodAt cfg ch.envLevel) :
    tick cfg sustain ch = { ch with expCounter := ch.expCounter + 1 } := by
  rw [tick, if_neg (by simp [ha]), if_neg (Nat.not_le.mpr hp)]

/-- At the period, frozen or at the sustain level, the counter alone is cleared. -/
theorem tick_stands (ha : ch.attack = false) (hp : expPeriodAt cfg ch.envLevel ≤ (ch.expCounter + 1).toNat)
    (h : ch.holdZero = true ∨ (ch.decaySustain = true ∧ ch.envLevel = sustain)) :
    tick cfg sustain ch = { ch with expCounter := 0 } := by
  rw [tick, if_neg (by simp [ha]), if_pos hp]
  obtain hz | ⟨hd, hl⟩ := h
  · simp [levelDown, hz]
  · simp [levelDown, hd, hl]

theorem tick_falls (ha : ch.attack = false) (hp : expPeriodAt cfg ch.envLevel ≤ (ch.expCounter + 1).toNat)
    (hz : ch.holdZero = false) (h : ¬ (ch.decaySustain = true ∧ ch.envLevel = sustain)) :
    tick cfg sustain ch = { ch with
      expCounter := 0, envLevel := ch.envLevel - 1, holdZero := decide (ch.envLevel - 1 = 0) } := by
  rw [tick, if_neg (by simp [ha]), if_pos hp, levelDown, if_neg (by simp [hz]), if_neg (by simpa using h)]
  rfl

/-- All a tick can do: the level rises in attack, falls out of it, or stands; neither while frozen. -/
theorem tick_cases (cfg : Config) (sustain : BitVec 8) (ch : Channel) :
    (ch.attack = true ∧ ch.holdZero = false ∧ tick cfg sustain ch =
      { ch with expCounter := 0, envLevel := ch.envLevel + 1, attack := decide (ch.envLevel + 1 ≠ 255) }) ∨
    (ch.attack = false ∧ ch.holdZero = false ∧ tick cfg sustain ch =
      { ch with
        expCounter := 0, envLevel := ch.envLevel - 1, holdZero := decide (ch.envLevel - 1 = 0) }) ∨
    ∃ e, tick cfg sustain ch = { ch with expCounter := e } := by
  obtain ha | ha := Bool.eq_false_or_eq_true ch.attack
  · obtain hz | hz := Bool.eq_false_or_eq_true ch.holdZero
    · exact .inr (.inr ⟨_, tick_attack_frozen ha hz⟩)
    · exact .inl ⟨ha, hz, tick_attack ha hz⟩
  · by_cases hp : expPeriodAt cfg ch.envLevel ≤ (ch.expCounter + 1).toNat
    · by_cases hs : ch.holdZero = true ∨ (ch.decaySustain = true ∧ ch.envLevel = sustain)
      · exact .inr (.inr ⟨_, tick_stands ha hp hs⟩)
      · obtain ⟨hz, hd⟩ := not_or.mp hs
        rw [Bool.not_eq_true] at hz
        exact .inr (.inl ⟨ha, hz, tick_falls ha hp hz hd⟩)
    · exact .inr (.inr ⟨_, tick_counts ha (Nat.not_le.mp hp)⟩)

end Tick

/-- Settles O51: the three cases of the gate, and a tick in attack, below the exponential period and at it. -/
theorem envelopeEdgesAndTicks : Obligations.EnvelopeEdgesAndTicks := by
  refine ⟨?edge, fun cfg sustain ch =>
    ⟨tick_attack, tick_attack_frozen, tick_counts, fun ha hp => ⟨tick_stands ha hp, tick_falls ha hp⟩⟩⟩
  rintro cfg g ch _ rfl
  refine ⟨?rising, ?falling, ?none⟩
  case rising =>
    rintro rfl h
    exact gateEdge_rising h cfg
  case falling =>
    rintro rfl h
    exact gateEdge_falling h cfg
  case none =>
    rintro rfl
    exact gateEdge_none cfg ch

/-! ## The rate counter and the crossing (48 R371, R374 to R376) -/

/-- Up to 32768 cycles the counter wraps at most once. -/
theorem advanceRate_eq_mod (rc : BitVec 15) {n : Nat} (hn : n ≤ 32768) :
    advanceRate rc n = (rc.toNat + n) % 32768 := by
  have := rc.isLt
  unfold advanceRate
  split <;> omega

theorem selectPeriod_eq (cfg : Config) (t : Sid) (c : Fin 3) (ch : Channel) : selectPeriod cfg t c ch =
    cfg.ratePeriod.getD (if ch.attack then (t.attackDecay c).toNat / 16
      else if ch.decaySustain then (t.attackDecay c).toNat % 16 else (t.sustainRelease c).toNat % 16) 1 := by
  unfold selectPeriod ratePeriodAt
  rw [toNat_hiNibble, toNat_loNibble, toNat_loNibble]
  split
  · rfl
  · split <;> rfl

/-- A step of at least one cycle: the edge, then one tick at a crossing of the period, or the counter alone. -/
theorem envStep_of_pos {n : Nat} (hn : 1 ≤ n) (cfg : Config) (t : Sid) (c : Fin 3) {ch e : Channel}
    {period rc : Nat} (he : e = gateEdge cfg (t.gateBit c) ch) (hp : period = selectPeriod cfg t c e)
    (hrc : rc = advanceRate ch.rateCounter n) : envStep cfg t c n ch =
      if period ≤ rc ∧ rc < period + n then
        tick cfg (t.sustainLevel c) { e with rateCounter := BitVec.ofNat 15 (rc - period) }
      else { e with rateCounter := BitVec.ofNat 15 rc } := by
  subst he hp hrc
  rw [← gateEdge_rateCounter cfg (t.gateBit c) ch]
  exact if_neg (Nat.one_le_iff_ne_zero.mp hn)

/-- A tick moves the level by one or not at all. -/
theorem tick_envLevel (cfg : Config) (sustain : BitVec 8) (ch : Channel) :
    (tick cfg sustain ch).envLevel = ch.envLevel ∨ (tick cfg sustain ch).envLevel = ch.envLevel + 1 ∨
      (tick cfg sustain ch).envLevel = ch.envLevel - 1 := by
  obtain ⟨-, -, h⟩ | ⟨-, -, h⟩ | ⟨_, h⟩ := tick_cases cfg sustain ch <;> rw [h]
  · exact .inr (.inl rfl)
  · exact .inr (.inr rfl)
  · exact .inl rfl

/-- Settles O52: the two branches of a step, and the level in each. -/
theorem rateCounterCrosses : Obligations.RateCounterCrosses := by
  intro cfg t c n rc period ch e hn hmax he hrc hp
  rw [envStep_of_pos hn cfg t c he (hp.trans (selectPeriod_eq cfg t c e).symm)
    (hrc.trans (advanceRate_eq_mod ch.rateCounter hmax).symm)]
  by_cases h : period ≤ rc ∧ rc < period + n
  · rw [if_pos h]
    exact ⟨fun _ => rfl, fun hnot => absurd h hnot, tick_envLevel cfg _ { e with rateCounter := _ }⟩
  · rw [if_neg h]
    exact ⟨fun hcross => absurd hcross h, fun _ => rfl, .inl rfl⟩

/-! ## The run of an attack (48 R378) -/

/-- Settles O53, by induction on the ticks: while the level is below 255 the attack stands, so the next tick raises
it by one. -/
theorem attackRunsToTheTop : Obligations.AttackRunsToTheTop := by
  intro cfg sustain ch k ha hz hl
  have hlt : ch.envLevel.toNat < 255 := by bv_omega
  induction k with
  | zero => exact fun _ => ⟨rfl, by simp [ha, hlt], rfl, rfl, hz⟩
  | succ k ih =>
    intro hk
    rw [Function.iterate_succ_apply']
    obtain ⟨hlevel, hattack, hds, hgate, hhold⟩ := ih (by omega)
    have hbelow : ch.envLevel.toNat + k < 255 := by omega
    rw [tick_attack (by simp [hattack, hbelow]) hhold]
    have hnext : ((tick cfg sustain)^[k] ch).envLevel.toNat + 1 < 256 := by omega
    refine ⟨?level, ?attack, hds, hgate, hhold⟩
    case level => bv_omega
    case attack =>
      refine decide_eq_decide.mpr ?_
      rw [← BitVec.toNat_inj.ne]
      bv_omega

/-! ## What the envelope's step keeps (48 R372, R373, R378, R380) -/

theorem gateEdge_ok (cfg : Config) (g : Bool) {ch : Channel} (h : ChannelOk ch) : ChannelOk (gateEdge cfg g ch) := by
  obtain e | e | e := gateEdge_cases cfg g ch <;> rw [e]
  · exact ⟨h.noise, rfl, fun _ => ⟨rfl, rfl⟩, fun hz => absurd hz Bool.false_ne_true⟩
  · exact ⟨h.noise, rfl, fun ha => absurd ha Bool.false_ne_true, h.frozen⟩
  · exact h

theorem tick_ok (cfg : Config) (sustain : BitVec 8) {ch : Channel} (h : ChannelOk ch) :
    ChannelOk (tick cfg sustain ch) := by
  obtain ⟨ha, hz, e⟩ | ⟨ha, -, e⟩ | ⟨_, e⟩ := tick_cases cfg sustain ch <;> rw [e]
  · exact ⟨h.noise, h.sustain, fun _ => h.attack ha, fun hz' => absurd (hz.symm.trans hz') Bool.false_ne_true⟩
  · exact ⟨h.noise, h.sustain, fun ha' => absurd (ha.symm.trans ha') Bool.false_ne_true, of_decide_eq_true⟩
  · exact ⟨h.noise, h.sustain, h.attack, h.frozen⟩

theorem ChannelOk.withRateCounter {ch : Channel} (h : ChannelOk ch) (rc : BitVec 15) :
    ChannelOk { ch with rateCounter := rc } := ⟨h.noise, h.sustain, h.attack, h.frozen⟩

theorem envStep_ok (cfg : Config) (t : Sid) (c : Fin 3) (n : Nat) {ch : Channel} (h : ChannelOk ch) :
    ChannelOk (envStep cfg t c n ch) := by
  have hedge := gateEdge_ok cfg (t.gateBit c) h
  obtain rfl | hn := Nat.eq_zero_or_pos n
  · exact h
  · rw [envStep_of_pos hn cfg t c rfl rfl rfl]
    split
    · exact tick_ok cfg _ (hedge.withRateCounter _)
    · exact hedge.withRateCounter _

end Sys2Proof.Machine
end

section
/-! PROOFS. The raster timer (spec/60_exceptions.md R440 to R447): an advance as the rule's loop (O44), the row after
any sequence of advances (O45), the request (O46), and what an advance keeps in range (O11). -/

namespace Sys2Proof.Machine

open Sys2Proof

/-! ## The configuration's domain (93 U18, U20) -/

theorem inDomain_iff (cfg : Config) : inDomain cfg = true ↔
    cfg.phaseBits = 24 ∧ cfg.waveBits = 12 ∧ 1 ≤ cfg.rowsTotal ∧ cfg.rowsTotal ≤ 512 ∧ 1 ≤ cfg.cyclesPerRow ∧
      1 ≤ cfg.attenuation := by
  simp [inDomain, and_assoc]

/-! ## An advance as the rule's loop (60 R441) -/

section Advance

variable {cfg : Config} {r : Raster}

/-- The row moves on by the whole rows of the time. -/
theorem Raster.advance_row (hdom : inDomain cfg = true) (hrow : r.row.toNat < cfg.rowsTotal) (n : Nat) :
    (r.advance cfg n).row.toNat = (r.row.toNat + (r.acc + n) / cfg.cyclesPerRow) % cfg.rowsTotal := by
  obtain ⟨-, -, -, hmax, -⟩ := (inDomain_iff cfg).mp hdom
  exact rowTicks_row hmax _ hrow

theorem Raster.advance_acc (cfg : Config) (n : Nat) (r : Raster) :
    (r.advance cfg n).acc = (r.acc + n) % cfg.cyclesPerRow := rfl

theorem Raster.advance_within {n : Nat} (h : r.acc + n < cfg.cyclesPerRow) :
    r.advance cfg n = { r with acc := r.acc + n } := by
  rw [Raster.advance, Nat.div_eq_of_lt h, Nat.mod_eq_of_lt h, Raster.rowTicks]

/-- One turn of the loop: the row passes, and the rest of the time is still to be advanced. -/
theorem Raster.advance_turn {n : Nat} (hpos : 1 ≤ cfg.cyclesPerRow) (h : cfg.cyclesPerRow ≤ r.acc + n) :
    r.advance cfg n =
      ({ r.rowTick cfg.rowsTotal with acc := r.acc + n - cfg.cyclesPerRow } : Raster).advance cfg 0 := by
  simp only [Raster.advance, rowTicks_acc, Nat.add_zero]
  rw [Nat.div_eq_sub_div hpos h, Nat.mod_eq_sub_mod h, Raster.rowTicks]

/-- The whole rows and the remainder of two advances are those of their sum. -/
theorem Raster.advance_advance (hpos : 1 ≤ cfg.cyclesPerRow) (a b : Nat) :
    (r.advance cfg a).advance cfg b = r.advance cfg (a + b) := by
  have hsum : r.acc + (a + b) =
      (r.acc + a) % cfg.cyclesPerRow + b + cfg.cyclesPerRow * ((r.acc + a) / cfg.cyclesPerRow) := by
    have := Nat.mod_add_div (r.acc + a) cfg.cyclesPerRow
    omega
  have hdiv := Nat.add_mul_div_left ((r.acc + a) % cfg.cyclesPerRow + b) ((r.acc + a) / cfg.cyclesPerRow) hpos
  simp only [Raster.advance, rowTicks_acc]
  rw [hsum, hdiv, Nat.add_mul_mod_self_left, Nat.add_comm (_ / _), rowTicks_add]

end Advance

/-- Settles O44: no turn of the loop, one turn, and two advances. -/
theorem rasterLoop : Obligations.RasterLoop := fun _ _ a b _ hpos =>
  ⟨Raster.advance_within, Raster.advance_turn hpos, Raster.advance_advance hpos a b⟩

/-! ## Any sequence of advances (60 R447) -/

/-- A sequence of advances is one advance of the whole time. -/
theorem foldl_advance {cfg : Config} (ns : List Nat) {r : Raster} (hacc : r.acc < cfg.cyclesPerRow) :
    ns.foldl (fun r n => r.advance cfg n) r = r.advance cfg ns.sum := by
  induction ns generalizing r with
  | nil => exact (Raster.advance_within (n := 0) hacc).symm
  | cons n ns ih =>
    have hpos : 1 ≤ cfg.cyclesPerRow := Nat.one_le_of_lt hacc
    rw [List.foldl_cons, ih (Nat.mod_lt _ hpos), Raster.advance_advance hpos, List.sum_cons]

/-- Settles O45: from reset the whole time is advanced at once, over row 0 and an empty accumulator. -/
theorem rasterRowAfterTime : Obligations.RasterRowAfterTime := by
  rintro cfg ns _ hdom rfl
  obtain ⟨-, -, hrows, -, hpos, -⟩ := (inDomain_iff cfg).mp hdom
  have hrow : Raster.reset.row.toNat < cfg.rowsTotal := hrows
  rw [foldl_advance ns (r := Raster.reset) hpos, Raster.advance_row hdom hrow, Raster.advance_acc]
  simp [Raster.reset]

/-! ## The request (60 R442, R443, R447) -/

/-- The match bit does not look at the request bit. -/
theorem rowTicks_matched_irq (R k : Nat) (b : Bool) (r : Raster) :
    (Raster.rowTicks R k { r with irq := b }).matched = (Raster.rowTicks R k r).matched := by
  induction k generalizing r b with
  | zero => rfl
  | succ k ih =>
    have hb := ih (b || (r.enable.getLsbD 0 && nextRow R r.row == r.cmp)) (r.rowTick R)
    rw [Raster.rowTicks, Raster.rowTicks, ← hb]
    simp only [rowTick_cases]

/-- Within a whole frame the row passes onto every row in range. -/
theorem exists_row_passed {R row cmp : Nat} (hrow : row < R) (hcmp : cmp < R) :
    ∃ k, 1 ≤ k ∧ k ≤ R ∧ (row + k) % R = cmp := by
  by_cases h : row < cmp
  · exact ⟨cmp - row, by omega, by omega, by rw [Nat.add_sub_cancel' h.le, Nat.mod_eq_of_lt hcmp]⟩
  · refine ⟨R + cmp - row, by omega, by omega, ?_⟩
    rw [Nat.add_sub_cancel' (by omega), Nat.add_mod_left, Nat.mod_eq_of_lt hcmp]

/-- A bus write sets neither request bit: the acknowledge clears both, and no other write reaches them. -/
theorem Raster.write_requests (cfg : Config) (w : Target) (v : Byte) (r : Raster) :
    ((r.write cfg w v).irq = true → r.irq = true) ∧ ((r.write cfg w v).matched = true → r.matched = true) := by
  cases w with
  | rasterFlag =>
    simp only [Raster.write, Raster.acknowledge]
    split
    · exact ⟨nofun, nofun⟩
    · exact ⟨id, id⟩
  | sid _ | rasterControl | rasterRow | rasterEnable | external | ram => exact ⟨id, id⟩

theorem Raster.advance_irq {cfg : Config} {r : Raster} (hdom : inDomain cfg = true)
    (hrow : r.row.toNat < cfg.rowsTotal) (n : Nat) :
    (r.advance cfg n).irq = true ↔ r.irq = true ∨ (r.enable.getLsbD 0 = true ∧
      ∃ k, 1 ≤ k ∧ k ≤ (r.acc + n) / cfg.cyclesPerRow ∧ (r.row.toNat + k) % cfg.rowsTotal = r.cmp.toNat) := by
  obtain ⟨-, -, -, hmax, -⟩ := (inDomain_iff cfg).mp hdom
  exact rowTicks_irq hmax _ hrow

/-- The match bit becomes what the request bit would, had that begun equal to it. -/
theorem Raster.advance_matched (cfg : Config) (n : Nat) (r : Raster) :
    (r.advance cfg n).matched = (({ r with irq := r.matched } : Raster).advance cfg n).irq :=
  (rowTicks_matched_irq _ _ r.matched r).symm.trans (rowTicks_matched _ _ (r := { r with irq := r.matched }) rfl).symm

/-- A whole frame's time with the match enabled is sure to pass onto the compare row. -/
theorem Raster.advance_irq_of_frame {cfg : Config} {r : Raster} {n : Nat} (hdom : inDomain cfg = true)
    (hrow : r.row.toNat < cfg.rowsTotal) (henabled : r.enable.getLsbD 0 = true) (hcmp : r.cmp.toNat < cfg.rowsTotal)
    (htime : cfg.rowsTotal * cfg.cyclesPerRow ≤ n) : (r.advance cfg n).irq = true := by
  obtain ⟨-, -, -, -, hpos, -⟩ := (inDomain_iff cfg).mp hdom
  obtain ⟨k, h1, hk, hpass⟩ := exists_row_passed hrow hcmp
  have hrows : k ≤ (r.acc + n) / cfg.cyclesPerRow :=
    hk.trans ((Nat.le_div_iff_mul_le hpos).mpr (htime.trans (Nat.le_add_left n r.acc)))
  exact (Raster.advance_irq hdom hrow n).mpr (.inr ⟨henabled, k, h1, hrows, hpass⟩)

/-- Settles O46: the request after whole rows, the row that a whole frame is sure to pass, and the bus writes. -/
theorem rasterRequest : Obligations.RasterRequest := by
  refine ⟨fun _ _ n hdom hrow => Raster.advance_irq hdom hrow n, fun cfg r n hdom hrow henabled hcmp htime => ⟨?_, ?_⟩,
    fun a v s => Raster.write_requests s.cfg (s.target a) v s.raster⟩
  · exact Raster.advance_irq_of_frame hdom hrow henabled hcmp htime
  · rw [Raster.advance_matched]
    exact Raster.advance_irq_of_frame (r := { r with irq := r.matched }) hdom hrow henabled hcmp htime

end Sys2Proof.Machine
end

section
/-! PROOFS. The output stage (spec/49_sid_filter_mixer.md R390 to R403): the volume state (O56), silence (O57), the
filter bypassed (O55), and the default filter step and mix (O58). -/

namespace Sys2Proof.Machine

open Sys2Proof

/-! ## The volume state (49 R401) -/

/-- A constant register is a fixed point. -/
theorem volSmoothStep_of_eq {v : Rat} {raw : BitVec 4} (h : v = (raw.toNat : Rat)) : volSmoothStep v raw = v := by
  rw [volSmoothStep, ← h, sub_self, mul_zero, add_zero]

theorem sidOutput_volSmooth (cfg : Config) (sums : Int × Int) (t : Sid) :
    (sidOutput cfg sums t).1.volSmooth = volSmoothStep t.volSmooth t.volume := rfl

/-- Settles O56: the step stays between the old state and the register, whichever is the lower. -/
theorem volumeStage : Obligations.VolumeStage := by
  rintro cfg sums t _ rfl
  rw [sidOutput_volSmooth]
  exact ⟨fun h => (volSmoothStep_of_eq h).trans h, fun h => volSmoothStep_between le_rfl h h le_rfl,
    fun h => volSmoothStep_between h le_rfl le_rfl h, rfl, rfl, rfl, rfl⟩

/-! ## Silence (49 R403) -/

/-- A sample of 0 goes nowhere. -/
theorem route_of_sample_zero {ch : Channel} (h : channelSample ch = 0) (t : Sid) (c : Fin 3) (sums : Int × Int) :
    route t c ch sums = sums := by
  simp [route, h]

/-- The default filter at rest on a silent input stays at rest, whatever its coefficients. -/
theorem filterStepStandard_rest (cut res : Rat) : filterStepStandard 0 0 0 cut res = (0, 0, 0) := by
  simp [filterStepStandard]

theorem filterOut_zero (modeVol : Byte) : filterOut modeVol 0 0 0 = 0 := by simp [filterOut, tap]

theorem filterStep_standard {cfg : Config} (h : cfg.filter = .standard) (lp bp : Rat) (x : Int) (cut res : Rat) :
    filterStep cfg lp bp x cut res = filterStepStandard lp bp x cut res := by rw [filterStep, h]

theorem quantise_standard {cfg : Config} (h : cfg.quantise = .standard) (q : Rat) :
    quantise cfg q = q.num.tdiv q.den := by rw [quantise, h]

/-- Settles O57: three samples of 0, and a mix of 0 with a volume state that has no AC part. -/
theorem silence : Obligations.Silence := by
  refine ⟨fun cfg n t hlevel => ?sums, fun cfg t hfilter hquantise hlp hbp hvolume => ?output⟩
  case sums =>
    obtain ⟨hch, -, hsums⟩ := sidAdvance_eq cfg n t
    have silent (c : Fin 3) : channelSample (channelAfter cfg n t c).1 = 0 :=
      channelSample_of_level_zero (hch c ▸ hlevel c)
    rw [hsums, route_of_sample_zero (silent 0), route_of_sample_zero (silent 1), route_of_sample_zero (silent 2)]
  case output =>
    have hrest (cut res : Rat) : filterStep cfg t.lp t.bp 0 cut res = (0, 0, 0) := by
      rw [filterStep_standard hfilter, hlp, hbp, filterStepStandard_rest]
    simp only [sidOutput, hrest, filterOut_zero, volSmoothStep_of_eq hvolume, quantise_standard hquantise, mixOut]
    simp [hvolume]

/-! ## The taps (49 R397, R399) -/

theorem filterOut_of_no_tap {modeVol : Byte} (h : ∀ i, 4 ≤ i → i ≤ 6 → modeVol.getLsbD i = false)
    (lp bp hp : Rat) : filterOut modeVol lp bp hp = 0 := by
  rw [filterOut, h 4 (by decide) (by decide), h 5 (by decide) (by decide), h 6 (by decide) (by decide)]
  simp [tap]

/-- Without a tap the sample is made of the direct sum, the volume register and the volume state. -/
theorem sidOutput_of_no_tap {t : Sid} (h : ∀ i, 4 ≤ i → i ≤ 6 → t.modeVol.getLsbD i = false) (cfg : Config)
    (sums : Int × Int) : (sidOutput cfg sums t).2 =
      quantise cfg (mixOut sums.2 (volSmoothStep t.volSmooth (loNibble t.modeVol)) (loNibble t.modeVol)
        / cfg.attenuation) := by
  simp only [sidOutput, filterOut_of_no_tap h, add_zero, Sid.volume]

/-- Settles O55: both samples are made of the same three values. -/
theorem filterBypass : Obligations.FilterBypass := by
  intro cfg f f' direct t t' hreg hvs htaps
  have hmode : t'.modeVol = t.modeVol := hreg
  rw [sidOutput_of_no_tap htaps, sidOutput_of_no_tap (hmode ▸ htaps), hmode, hvs]

/-! ## The default filter step and the mix (49 R394 to R402) -/

/-- Settles O58: the recurrence, the taps, the mix and the truncation, read off the output. -/
theorem filterAndMix : Obligations.FilterAndMix := by
  rintro cfg f direct t _ _ _ _ _ _ _ hfilter hquantise rfl rfl rfl rfl rfl rfl rfl
  simp only [sidOutput, filterStep_standard hfilter, quantise_standard hquantise]
  exact ⟨rfl, rfl, rfl⟩

end Sys2Proof.Machine
end

section
/-! PROOFS. Exceptions and what stops an instruction (spec/60_exceptions.md): the interrupt service (O42), the return
from it (O43), and the refusals of `exec` (O8). -/

namespace Sys2Proof.Machine

open Sys2Proof Sys2Proof.Laws

/-! ## The interrupt service (60 R424 to R434) -/

/-- The state `s` with what `ServiceInterrupts` reports: whether a vector was entered, and the latch. -/
def State.serviced (taken : Bool) (latch : Nat) (s : State) : State := { s with taken := taken, prevNmi := latch }

theorem serviceInterrupts_of_jammed {s : State} (hj : s.jammed = true) :
    serviceInterrupts s = { s with taken := false } := if_pos hj

theorem serviceInterrupts_of_nmi {s : State} (hj : s.jammed = false) (hn : s.prevNmi < s.nmiLevel) :
    serviceInterrupts s = (enterInterrupt s.cfg.nmiVector s).serviced true s.nmiLevel := by
  rw [serviceInterrupts, if_neg (by simp [hj]), if_pos (by simpa [State.nmiRequested] using hn), State.serviced]

theorem serviceInterrupts_of_irq {s : State} (hj : s.jammed = false) (hn : s.nmiLevel ≤ s.prevNmi)
    (hline : s.raster.irq = true ∨ s.extIrq = true) (hmask : flag s.p .i = false) :
    serviceInterrupts s = (enterInterrupt s.cfg.irqVector s).serviced true s.nmiLevel := by
  have hirq : s.irqRequested = true := by simp [State.irqRequested, State.irqLine, hline, hmask]
  rw [serviceInterrupts, if_neg (by simp [hj]), if_neg (by simpa [State.nmiRequested] using hn), if_pos hirq,
    State.serviced]

theorem serviceInterrupts_of_none {s : State} (hj : s.jammed = false) (hn : s.nmiLevel ≤ s.prevNmi)
    (hline : (s.raster.irq = false ∧ s.extIrq = false) ∨ flag s.p .i = true) :
    serviceInterrupts s = s.serviced false s.nmiLevel := by
  have hirq : ¬ s.irqRequested = true := by
    obtain ⟨hr, he⟩ | hmask := hline
    · simp [State.irqRequested, State.irqLine, hr, he]
    · simp [State.irqRequested, hmask]
  rw [serviceInterrupts, if_neg (by simp [hj]), if_neg (by simpa [State.nmiRequested] using hn), if_neg hirq,
    State.serviced]

/-- What the service leaves alone whichever of its cases it takes. -/
structure ServiceKept (s t : State) : Prop where
  jammed : t.jammed = s.jammed
  cfg : t.cfg = s.cfg
  outcome : t.outcome = s.outcome
  nmiLevel : t.nmiLevel = s.nmiLevel
  extIrq : t.extIrq = s.extIrq
  pending : t.pending = s.pending
  requests : t.requests = s.requests
  sums : t.sums = s.sums
  pairs : t.pairs = s.pairs
  samples : t.samples = s.samples

theorem serviced_kept (taken : Bool) (latch : Nat) (s : State) : ServiceKept s (s.serviced taken latch) := by
  constructor <;> rfl

theorem enterInterrupt_rest (vector : Addr) (s : State) : RestKept s (enterInterrupt vector s) :=
  takeException_rest _ _ _ _

theorem enterInterrupt_serviced_kept (vector : Addr) (latch : Nat) (s : State) :
    ServiceKept s ((enterInterrupt vector s).serviced true latch) := by
  obtain ⟨-, hjammed, hcfg, hlevel, hext, hpending, hrequests, -, hsums, hpairs, hsamples⟩ :=
    enterInterrupt_rest vector s
  have houtcome : (enterInterrupt vector s).outcome = s.outcome := takeException_outcome s.pc s.entryStatus vector s
  exact ⟨hjammed, hcfg, houtcome, hlevel, hext, hpending, hrequests, hsums, hpairs, hsamples⟩

theorem serviceInterrupts_serviceKept (s : State) : ServiceKept s (serviceInterrupts s) := by
  unfold serviceInterrupts
  split
  · exact serviced_kept false s.prevNmi s
  · split
    · exact enterInterrupt_serviced_kept _ _ s
    · split
      · exact enterInterrupt_serviced_kept _ _ s
      · exact serviced_kept false _ s

/-- What is pushed is `pc` and `P` as it stands, with `I` forced in when so configured (60 R429). -/
theorem enterInterrupt_serviced_entered (vector : Addr) (latch : Nat) {s : State} {status : Byte}
    (h : status = if s.cfg.irqPushIForced then s.p ||| 0x04 else s.p) :
    Entered s.pc status vector s ((enterInterrupt vector s).serviced true latch) := by
  subst h
  exact (takeException_entered s.pc s.entryStatus vector s).congr rfl rfl rfl ⟨rfl, rfl⟩
    (fun r => by cases r <;> rfl) ⟨rfl, rfl, rfl, rfl⟩

theorem serviceInterrupts_latch {s : State} (hj : s.jammed = false) :
    (serviceInterrupts s).prevNmi = s.nmiLevel := by
  unfold serviceInterrupts
  rw [if_neg (by simp [hj])]
  split
  · rfl
  · split <;> rfl

/-- Settles O42: the frame, the jammed case, and the three cases of the two lines. -/
theorem interruptsAreServiced : Obligations.InterruptsAreServiced := by
  rintro s _ rfl
  obtain ⟨hjammed, hcfg, houtcome, hlevel, hext, hpending, hrequests, hsums, hpairs, hsamples⟩ :=
    serviceInterrupts_serviceKept s
  refine ⟨hjammed, hcfg, houtcome, hlevel, hext, hpending, hrequests, hsums, hpairs, hsamples,
    serviceInterrupts_of_jammed, fun hj => ⟨serviceInterrupts_latch hj, fun status hstatus =>
      ⟨fun hn => ?nmi, fun hn hline hmask => ?irq, serviceInterrupts_of_none hj⟩⟩⟩
  case nmi =>
    rw [serviceInterrupts_of_nmi hj hn]
    exact ⟨rfl, enterInterrupt_serviced_entered _ _ hstatus⟩
  case irq =>
    rw [serviceInterrupts_of_irq hj hn hline hmask]
    exact ⟨rfl, enterInterrupt_serviced_entered _ _ hstatus⟩

/-! ## The return from an interrupt (60 R430) -/

/-- `RTI` with a status byte and the address `v` in the three bytes above `SP`, where memory answers. -/
theorem rti_of_saved {s : State} {v a b c : Addr} (hsp : s.sp ≠ s.cfg.spReset)
    (ha : s.cfg.stackBase + zeroPage (s.sp + 1) = a) (hb : s.cfg.stackBase + zeroPage (s.sp + 2) = b)
    (hc : s.cfg.stackBase + zeroPage (s.sp + 3) = c) (hta : s.target a = .ram) (htb : s.target b = .ram)
    (htc : s.target c = .ram) (hlo : s.mem.read b = loByte v) (hhi : s.mem.read c = hiByte v) :
    ∃ u, exec .rti s = .next u ∧ u.pc = v ∧ u.p = s.mem.read a ∧ u.sp = s.sp + 3 ∧ RegsKept [.sp] s u ∧
      RestKept s u := by
  subst ha hb hc
  obtain ⟨-, -, -, hrti⟩ := breakAndReturnRun
  obtain ⟨hreturn, -⟩ := hrti s
  obtain ⟨u, hu, hpc, hp, husp, -, -, -, hrest, -, hregs⟩ := hreturn hsp _ _ _ rfl rfl rfl
  rw [busRead_ram (s := (busRead _ s).2) htb, busRead_ram (s := (busRead _ (busRead _ s).2).2) htc] at hpc
  simp only [busRead_mem, hlo, hhi, joinBytes_hi_lo] at hpc
  exact ⟨u, hu, hpc, hp.trans (busRead_ram hta), husp, hregs, hrest⟩

/-- Settles O43: the three bytes `RTI` reads are those the entry stored, and `SP` is back where it was. -/
theorem interruptThenReturn : Obligations.InterruptThenReturn := by
  intro vector s hw h0 h1 h2 hforced hspReset
  have hrest := enterInterrupt_rest vector s
  obtain ⟨-, -, -, hsp, hregs, -, -, -, -, hsaved⟩ := takeException_entered s.pc s.entryStatus vector s
  change (enterInterrupt vector s).sp = s.sp - 3 at hsp
  change RegsKept [.sp] s (enterInterrupt vector s) at hregs
  obtain ⟨hhi, hlo, hstatus⟩ := hsaved hw
  generalize ht : enterInterrupt vector s = t at *
  rw [← enterInterrupt, ht] at hhi hlo hstatus
  have htarget (b : Addr) : t.target b = s.target b := by rw [State.target, State.target, hrest.cfg]
  have slot (j k : Byte) (h : s.sp - 3 + j = s.sp - k) : t.cfg.stackBase + zeroPage (t.sp + j) = stackSlot s k := by
    rw [hrest.cfg, hsp, h, stackSlot]
  have hreset : t.sp ≠ t.cfg.spReset := by rwa [hsp, hrest.cfg]
  obtain ⟨u, hrti, hpc, hp, husp, huregs, hurest⟩ := rti_of_saved hreset (slot 1 2 (by bv_omega))
    (slot 2 1 (by bv_omega)) (slot 3 0 (by bv_omega)) ((htarget _).trans h2) ((htarget _).trans h1)
    ((htarget _).trans h0) (hlo h1) (hhi h0)
  refine ⟨u, hrti, hpc, ?status, fun r _ => ?regs, hrest.trans hurest⟩
  case status => rw [hp, hstatus h2, State.entryStatus, hforced, if_neg Bool.false_ne_true]
  case regs =>
    by_cases hr : r = .sp
    · subst hr
      calc u.sp = s.sp - 3 + 3 := by rw [husp, hsp]
        _ = s.sp := by bv_omega
    · have hmem : r ∉ [Reg.sp] := by simpa using hr
      exact (huregs r hmem).trans (hregs r hmem)

/-! ## What `exec` refuses (46 R292, R299) -/

/-- An instruction guarded by `UNSTABLE_ADMITTED` answers, or is refused while that is false. -/
theorem guarded_cases (b : Bool) (t : State) (r : Refusal) :
    (∃ u, (if b then .next t else .refused r : Host.Outcome State Fault Refusal) = .next u) ∨
      (b = false ∧ (if b then .next t else .refused r : Host.Outcome State Fault Refusal) = .refused r) := by
  cases b with
  | true => exact .inl ⟨t, rfl⟩
  | false => exact .inr ⟨rfl, rfl⟩

theorem exec_arr_of_decimal {s : State} (h : flag s.p .d = true) (m : Byte) :
    exec (.arr m) s = .refused .arrDecimal := if_pos h

/-- Settles O8: the six guarded arms, `ARR`, and every other arm, which answers. -/
theorem refusalsAreTheStatedOnes : Obligations.RefusalsAreTheStatedOnes := by
  refine ⟨fun i s => ?cases, fun s => ⟨fun h => ?unstable, exec_arr_of_decimal⟩⟩
  case unstable =>
    have hnot : ¬ s.cfg.unstableAdmitted = true := by simp [h]
    exact ⟨fun _ => if_neg hnot, fun _ => if_neg hnot, fun _ => if_neg hnot, fun _ => if_neg hnot,
      fun _ => if_neg hnot, fun _ => if_neg hnot⟩
  case cases =>
    cases i with
    | ane m =>
      exact (guarded_cases s.cfg.unstableAdmitted _ _).imp_right fun ⟨h, e⟩ => .inl ⟨h, .inl ⟨m, rfl, e⟩⟩
    | lxa m =>
      exact (guarded_cases s.cfg.unstableAdmitted _ _).imp_right fun ⟨h, e⟩ => .inl ⟨h, .inr (.inl ⟨m, rfl, e⟩)⟩
    | sha o =>
      exact (guarded_cases s.cfg.unstableAdmitted _ _).imp_right fun ⟨h, e⟩ =>
        .inl ⟨h, .inr (.inr (.inl ⟨o, rfl, e⟩))⟩
    | shx a =>
      exact (guarded_cases s.cfg.unstableAdmitted _ _).imp_right fun ⟨h, e⟩ =>
        .inl ⟨h, .inr (.inr (.inr (.inl ⟨a, rfl, e⟩)))⟩
    | shy a =>
      exact (guarded_cases s.cfg.unstableAdmitted _ _).imp_right fun ⟨h, e⟩ =>
        .inl ⟨h, .inr (.inr (.inr (.inr (.inl ⟨a, rfl, e⟩))))⟩
    | tas a =>
      exact (guarded_cases s.cfg.unstableAdmitted _ _).imp_right fun ⟨h, e⟩ =>
        .inl ⟨h, .inr (.inr (.inr (.inr (.inr ⟨a, rfl, e⟩))))⟩
    | arr m =>
      obtain h | h := Bool.eq_false_or_eq_true (flag s.p .d)
      · exact .inr (.inr ⟨h, m, rfl, exec_arr_of_decimal h m⟩)
      · exact .inl ⟨_, if_neg (by simp [h])⟩
    | rts =>
      by_cases h : s.sp = s.cfg.spReset
      · exact .inl ⟨_, exec_rts_of_spReset h⟩
      · exact .inl ⟨_, exec_rts h rfl rfl⟩
    | rti =>
      by_cases h : s.sp = s.cfg.spReset
      · exact .inl ⟨_, exec_rti_of_spReset h⟩
      · exact .inl ⟨_, exec_rti h rfl rfl rfl⟩
    | _ => exact .inl ⟨_, rfl⟩

end Sys2Proof.Machine
end

section
/-! PROOFS. The round (spec/60_exceptions.md R452, spec/70_reset_and_hazards.md): time and samples (O6), the host's
events (O59), what reset alone does (O12), the configuration's domain (O7), and the invariant of every step (O11). -/

namespace Sys2Proof.Machine

open Sys2Proof

/-! ## Outputs and the passing of time (60 R452; 49 R400, R405) -/

/-- One request answered on the pair it brings or on `sums`: the sound chip afterwards, and the sample added to those
reported. -/
def answer (cfg : Config) (sums : Int × Int) (acc : Sid × List Int) (formed : Option (Int × Int)) : Sid × List Int :=
  ((sidOutput cfg (formed.getD sums) acc.1).1, acc.2 ++ [(sidOutput cfg (formed.getD sums) acc.1).2])

theorem output_answer (formed : Option (Int × Int)) (s : State) :
    ((output formed s).sid, (output formed s).samples) = answer s.cfg s.sums (s.sid, s.samples) formed := rfl

/-- Outputs answer the requests in turn, all with the configuration and the pair that stand. -/
theorem outputs_foldl (rs : List (Option (Int × Int))) (s : State) :
    ((outputs rs s).sid, (outputs rs s).samples) = rs.foldl (answer s.cfg s.sums) (s.sid, s.samples) := by
  induction rs generalizing s with
  | nil => rfl
  | cons r rs ih =>
    rw [outputs, ih, List.foldl_cons, ← output_answer]
    rfl

/-- Outputs do not look at the outcome of the last step. -/
theorem outputs_withOutcome (rs : List (Option (Int × Int))) (o : Option StepOutcome) (s : State) :
    outputs rs { s with outcome := o } = { outputs rs s with outcome := o } := by
  induction rs generalizing s with
  | nil => rfl
  | cons r rs ih => exact ih (output r s)

theorem takeSamples_withOutcome (o : Option StepOutcome) (s : State) :
    takeSamples { s with outcome := o } = { takeSamples s with outcome := o } :=
  congrArg (fun t : State => { t with requests := [] }) (outputs_withOutcome s.requests o s)

/-- The two devices advanced and the pair reported; the samples that are due not yet taken. -/
def State.advanced (n : Nat) (s : State) : State :=
  { s with
    raster := s.raster.advance s.cfg n
    sid := (sidAdvance s.cfg n s.sid).1
    sums := (sidAdvance s.cfg n s.sid).2
    pairs := s.pairs ++ [(sidAdvance s.cfg n s.sid).2] }

theorem passTime_advanced (n : Nat) (s : State) :
    passTime n s = { outputs s.requests (s.advanced n) with requests := [] } := rfl

theorem passTime_withOutcome (n : Nat) (o : Option StepOutcome) (s : State) :
    passTime n { s with outcome := o } = { passTime n s with outcome := o } :=
  takeSamples_withOutcome o (s.advanced n)

theorem passTime_outcome (n : Nat) (s : State) : (passTime n s).outcome = s.outcome := by rw [passTime_eq]

theorem advanceDevices_of_cycles {s : State} {n : Nat} (h : s.outcome = some (.cycles n)) :
    advanceDevices s = passTime n s := by rw [advanceDevices, h]

theorem advanceDevices_of_other {s : State} (h : ∀ k, s.outcome ≠ some (.cycles k)) : advanceDevices s = s := by
  unfold advanceDevices
  split
  · exact absurd ‹_› (h _)
  · rfl

/-- Whatever the outcome, the devices and the sound reports alone change. -/
theorem advanceDevices_eq (s : State) : advanceDevices s =
    { s with
      raster := (advanceDevices s).raster, sums := (advanceDevices s).sums, pairs := (advanceDevices s).pairs
      sid := (advanceDevices s).sid, samples := (advanceDevices s).samples
      requests := (advanceDevices s).requests } := by
  by_cases h : ∃ n, s.outcome = some (.cycles n)
  · obtain ⟨n, h⟩ := h
    rw [advanceDevices_of_cycles h, passTime_eq]
  · rw [advanceDevices_of_other (not_exists.mp h)]

/-- Settles O6: the two devices and the requests at a count, nothing at another outcome, and the frame. -/
theorem timePassesByTheCount : Obligations.TimePassesByTheCount := by
  rintro s n _ rfl
  refine ⟨fun h => ?count, advanceDevices_of_other, ?frame⟩
  case count =>
    rw [advanceDevices_of_cycles h]
    refine ⟨?_, ?_, ?_, rfl, outputs_foldl s.requests (s.advanced n)⟩ <;> rw [passTime_eq]
  case frame =>
    rw [advanceDevices_eq]
    exact ⟨rfl, rfl, fun r _ => by cases r <;> rfl, rfl, rfl, rfl, ⟨rfl, rfl⟩, rfl, rfl, rfl, rfl, rfl, rfl, rfl⟩

/-! ## The host's events (70 R470 to R475) -/

/-- Time the host lets pass is time an instruction of that count would take. -/
theorem hostEvent_advance (n : Nat) (s : State) : hostEvent (.advance n) s =
    { advanceDevices { s with outcome := some (.cycles n) } with outcome := s.outcome } := by
  rw [advanceDevices_of_cycles rfl, passTime_withOutcome, ← passTime_outcome n s]
  rfl

/-- Settles O59: each event is the update that says what it does. -/
theorem hostEventsActBetweenRounds : Obligations.HostEventsActBetweenRounds := by
  intro s t pc addr a x y v n b e cfg pair
  refine ⟨rfl, ?load, rfl, rfl, rfl, rfl, hostEvent_advance n s, rfl, ?output⟩
  case load =>
    rintro rfl
    refine ⟨rfl, fun hw k => ?_⟩
    split
    case isTrue h =>
      subst h
      exact Memory.read_write_same k v hw
    case isFalse h => exact Memory.read_write_ne h v s.mem
  case output =>
    rintro rfl
    refine ⟨rfl, rfl, rfl, ?_⟩
    rintro _ rfl
    cases pair <;> exact ⟨rfl, rfl⟩

/-! ## What reset alone does (70 R470, R471; 60 R434) -/

theorem hostEvent_of_not_reset {e : HostEvent} (h : ∀ cfg entry, e ≠ .reset cfg entry) (s : State) :
    (hostEvent e s).cfg = s.cfg ∧ (hostEvent e s).jammed = s.jammed := by
  cases e with
  | reset cfg entry => exact absurd rfl (h cfg entry)
  | advance n =>
    rw [hostEvent, passTime_eq]
    exact ⟨rfl, rfl⟩
  | nmiLevel _ | extIrq _ | setRegs _ _ _ _ | load _ _ | sample _ | output _ | external _ => exact ⟨rfl, rfl⟩

/-- `t` has the configuration of `s`, and is jammed if `s` is. -/
def FixedAs (s t : State) : Prop := t.cfg = s.cfg ∧ (s.jammed = true → t.jammed = true)

theorem FixedAs.then {s t u : State} (h : FixedAs s t) (hcfg : u.cfg = t.cfg)
    (hjammed : t.jammed = true → u.jammed = true) : FixedAs s u :=
  ⟨hcfg.trans h.1, fun hj => hjammed (h.2 hj)⟩

/-- Settles O12: neither the host's other events, nor an instruction, nor the passing of time touches the two. -/
theorem onlyResetReconfigures : Obligations.OnlyResetReconfigures := by
  intro s t hnone hstep
  refine step_keeps (P := FixedAs s) (fun _ _ hkept h => h.then hkept.cfg hkept.jammed) ?time ?begin hstep
  case time =>
    intro n u h
    rw [passTime_eq]
    exact h
  case begin =>
    refine hostEvents_keep (P := FixedAs s) (fun e he u h => ?_) ⟨rfl, id⟩
    obtain ⟨hcfg, hjammed⟩ := hostEvent_of_not_reset (fun cfg entry heq => hnone cfg entry (heq ▸ he)) u
    exact h.then hcfg hjammed.trans

/-! ## The configuration's domain (49 R402; 93 U18, U20) -/

theorem not_inDomain_iff (cfg : Config) : ¬ inDomain cfg = true ↔
    cfg.rowsTotal = 0 ∨ 512 < cfg.rowsTotal ∨ cfg.cyclesPerRow = 0 ∨ cfg.attenuation = 0 ∨
      cfg.phaseBits ≠ 24 ∨ cfg.waveBits ≠ 12 := by
  rw [inDomain_iff]
  omega

/-- A round is in the domain when the configuration that stands and every one a reset brings are. -/
theorem roundInDomain_iff (s : State) : s.roundInDomain = true ↔
    ∀ cfg : Config, (cfg = s.cfg ∨ ∃ entry, .reset cfg entry ∈ s.pending.headI) → inDomain cfg = true := by
  rw [State.roundInDomain, Bool.and_eq_true, List.all_eq_true]
  constructor
  · rintro ⟨hcfg, hevents⟩ cfg (rfl | ⟨entry, hmem⟩)
    · exact hcfg
    · exact hevents _ hmem
  · intro h
    refine ⟨h _ (.inl rfl), fun e he => ?_⟩
    cases e with
    | reset cfg entry => exact h cfg (.inr ⟨entry, he⟩)
    | nmiLevel _ | extIrq _ | setRegs _ _ _ _ | load _ _ | sample _ | output _ | external _ | advance _ => rfl

theorem exec_ne_configOutOfDomain (i : Instr) (s : State) : exec i s ≠ .refused .configOutOfDomain := by
  intro hexec
  obtain ⟨hcases, -⟩ := refusalsAreTheStatedOnes
  have hstated := hcases i s
  simp [hexec] at hstated

/-- Past the check at its start no part of a round is refused as outside the domain. -/
theorem serviceAndRun_ne_configOutOfDomain (s : State) : serviceAndRun s ≠ .refused .configOutOfDomain := by
  unfold serviceAndRun
  dsimp only
  split
  · exact fun h => nomatch h
  · split
    · exact fun h => nomatch h
    · exact fun h => nomatch h
    · next r hrun =>
      rintro h
      injection h with h
      exact exec_ne_configOutOfDomain _ _ (h ▸ hrun)

theorem step_refused_iff (s : State) : step s = .refused .configOutOfDomain ↔ ¬ s.roundInDomain = true := by
  constructor
  · intro h hdom
    rw [step_of_roundInDomain hdom] at h
    exact serviceAndRun_ne_configOutOfDomain _ h
  · exact fun h => if_neg h

/-- Settles O7: the check at the start of a round is the one that refuses so, and it looks at these configurations. -/
theorem outOfDomainIsRefused : Obligations.OutOfDomainIsRefused := by
  intro s
  rw [step_refused_iff, roundInDomain_iff]
  simp only [not_forall, not_inDomain_iff, exists_prop]

/-! ## The invariant of the sound chip (47 R334, R342; 48 R372 to R380; 49 R401) -/

/-- The part of the invariant that speaks of the sound chip. -/
structure SidOk (t : Sid) : Prop where
  channels : ∀ c : Fin 3, ChannelOk t.ch[c]
  ring : t.ringMsb = phaseMsb t.ch[2].phase
  sync : t.syncRise = (!phaseMsb t.ch[2].prevPhase && phaseMsb t.ch[2].phase)
  volume : 0 ≤ t.volSmooth ∧ t.volSmooth ≤ 15

/-- Its channels, carried bits and volume state are all it speaks of. -/
theorem SidOk.congr {t u : Sid} (h : SidOk t) (hch : u.ch = t.ch) (hring : u.ringMsb = t.ringMsb)
    (hsync : u.syncRise = t.syncRise) (hvol : 0 ≤ u.volSmooth ∧ u.volSmooth ≤ 15) : SidOk u where
  channels c := hch ▸ h.channels c
  ring := by rw [hring, hch, h.ring]
  sync := by rw [hsync, hch, h.sync]
  volume := hvol

theorem oscStep_ok (cfg : Config) (t : Sid) (c : Fin 3) (n : Nat) (k : Carried) {ch : Channel} (h : ChannelOk ch) :
    ChannelOk (oscStep cfg t c n k ch).1 := by
  obtain ⟨-, -, -, hnoise, -⟩ := noiseProperties cfg t c n k ch _ rfl
  have hlfsr := hnoise h.noise
  obtain ⟨_, _, _, _, e⟩ := oscStep_frame cfg t c n k ch
  rw [e] at hlfsr ⊢
  exact ⟨hlfsr, h.sustain, h.attack, h.frozen⟩

theorem SidOk.sidAdvance {t : Sid} (h : SidOk t) (cfg : Config) (n : Nat) : SidOk (sidAdvance cfg n t).1 := by
  obtain ⟨hch, hcarried, -⟩ := sidAdvance_eq cfg n t
  have hsync : (Machine.sidAdvance cfg n t).1.syncRise = (channelAfter cfg n t 2).2.syncRise :=
    congrArg Carried.syncRise hcarried
  have hring : (Machine.sidAdvance cfg n t).1.ringMsb = (channelAfter cfg n t 2).2.ringMsb :=
    congrArg Carried.ringMsb hcarried
  have hch2 : (Machine.sidAdvance cfg n t).1.ch[2] = (channelAfter cfg n t 2).1 := hch 2
  refine ⟨sidAdvance_channels cfg n t (fun u c k _ hc => oscStep_ok cfg u c n k (envStep_ok cfg u c n hc)) h.channels,
    ?ring, ?sync, h.volume⟩
  case ring =>
    rw [hring, hch2]
    exact oscStep_ringMsb ..
  case sync =>
    rw [hsync, hch2]
    obtain rfl | hn := Nat.eq_zero_or_pos n
    · rw [channelAfter_zero]
      exact h.sync
    · exact channelStep_syncRise hn cfg t 2 _

theorem SidOk.outputs {s : State} (h : SidOk s.sid) (rs : List (Option (Int × Int))) : SidOk (outputs rs s).sid := by
  obtain ⟨hch, -, hsync, hring, hvol⟩ := outputs_sid rs s
  have hraw0 : (0 : Rat) ≤ (s.sid.volume.toNat : Rat) := Nat.cast_nonneg _
  have hraw15 : (s.sid.volume.toNat : Rat) ≤ 15 := by
    have : s.sid.volume.toNat ≤ 15 := Nat.le_of_lt_succ s.sid.volume.isLt
    exact_mod_cast this
  exact h.congr hch hring hsync
    (hvol (fun v => 0 ≤ v ∧ v ≤ 15) (fun v ⟨h0, h15⟩ => volSmoothStep_between h0 h15 hraw0 hraw15) h.volume)

theorem SidOk.reset : SidOk Sid.reset :=
  ⟨invariantAtReset.channels, invariantAtReset.ring, invariantAtReset.sync, invariantAtReset.volume⟩

/-! ## The invariant of the timer (60 R444, R447) -/

/-- The part of the invariant that speaks of the raster timer. -/
structure RasterOk (cfg : Config) (r : Raster) : Prop where
  request : r.irq = r.matched
  timer : inDomain cfg = true → r.acc < cfg.cyclesPerRow ∧ r.row.toNat < cfg.rowsTotal

theorem RasterOk.advance {cfg : Config} {r : Raster} (h : RasterOk cfg r) (n : Nat) :
    RasterOk cfg (r.advance cfg n) where
  request := rowTicks_matched cfg.rowsTotal _ h.request
  timer hdom := by
    obtain ⟨-, -, hrows, -, hpos, -⟩ := (inDomain_iff cfg).mp hdom
    obtain ⟨-, hrow⟩ := h.timer hdom
    rw [Raster.advance_acc, Raster.advance_row hdom hrow]
    exact ⟨Nat.mod_lt _ hpos, Nat.mod_lt _ hrows⟩

theorem RasterOk.reset (cfg : Config) : RasterOk cfg Raster.reset where
  request := rfl
  timer hdom := by
    obtain ⟨-, -, hrows, -, hpos, -⟩ := (inDomain_iff cfg).mp hdom
    exact ⟨hpos, hrows⟩

/-! ## The invariant of every step -/

theorem inv_iff (s : State) : Inv s ↔ s.mem.wf = true ∧ SidOk s.sid ∧ RasterOk s.cfg s.raster :=
  ⟨fun h => ⟨h.memory, ⟨h.channels, h.ring, h.sync, h.volume⟩, h.request, h.timer⟩,
    fun ⟨hmem, hsid, hraster⟩ =>
      ⟨hmem, hsid.channels, hsid.ring, hsid.sync, hsid.volume, hraster.request, hraster.timer⟩⟩

/-- What an instruction and the interrupt service keep is enough for the invariant. -/
theorem StoreKept.inv {s t : State} (h : StoreKept s t) (hs : Inv s) : Inv t := by
  obtain ⟨hmem, hsid, hrequest, htimer⟩ := (inv_iff s).mp hs
  refine (inv_iff t).mpr ⟨h.wf hmem, hsid.congr h.ch h.ringMsb h.syncRise (h.volSmooth ▸ hsid.volume),
    h.request hrequest, ?_⟩
  rw [h.cfg, h.acc, h.row]
  exact htimer

theorem Inv.outputs {s : State} (h : Inv s) (rs : List (Option (Int × Int))) : Inv (outputs rs s) := by
  obtain ⟨hmem, hsid, hraster⟩ := (inv_iff s).mp h
  have hsid' := hsid.outputs rs
  rw [outputs_eq]
  exact (inv_iff _).mpr ⟨hmem, hsid', hraster⟩

theorem Inv.passTime {s : State} (h : Inv s) (n : Nat) : Inv (passTime n s) := by
  obtain ⟨hmem, hsid, hraster⟩ := (inv_iff s).mp h
  have hadvanced : Inv (s.advanced n) := (inv_iff _).mpr ⟨hmem, hsid.sidAdvance s.cfg n, hraster.advance n⟩
  obtain ⟨hmem', hsid', hraster'⟩ := (inv_iff _).mp (hadvanced.outputs s.requests)
  rw [passTime_advanced]
  exact (inv_iff _).mpr ⟨hmem', hsid', hraster'⟩

theorem Inv.hostEvent {s : State} (h : Inv s) (e : HostEvent) : Inv (hostEvent e s) := by
  have ⟨hmem, hsid, hraster⟩ := (inv_iff s).mp h
  cases e with
  | load addr v => exact (inv_iff _).mpr ⟨Memory.wf_write addr v hmem, hsid, hraster⟩
  | reset cfg entry => exact (inv_iff _).mpr ⟨hmem, SidOk.reset, RasterOk.reset cfg⟩
  | output formed => exact h.outputs [formed]
  | advance n => exact h.passTime n
  | nmiLevel _ | extIrq _ | setRegs _ _ _ _ | sample _ | external _ => exact (inv_iff _).mpr ⟨hmem, hsid, hraster⟩

/-- Settles O11: the host's events keep the invariant, and so do the service, the instruction and the time. -/
theorem stepKeepsInvariant : Obligations.StepKeepsInvariant := by
  intro s t hs hstep
  refine step_keeps (P := Inv) (fun _ _ hkept => hkept.inv) (fun n _ h => h.passTime n) ?begin hstep
  case begin => exact hostEvents_keep (fun e _ _ h => h.hostEvent e) ((inv_iff _).mpr ((inv_iff s).mp hs))

end Sys2Proof.Machine
end
